-- ==== Sys2Proof/Word.lean ====
section
/-! DEFINITION. The word types of the block (00_scope.md R9, R10): bytes, codepoints, the 16-bit operand and field word,
the 20-bit command word, bit strings and byte strings. -/

namespace Sys2Proof

/-- An 8-bit byte of an input or output stream (20_memory.md R68). -/
abbrev Byte := BitVec 8

/-- A codepoint, format CP15: a 15-bit unsigned value (30_encoding.md R80). -/
abbrev Code := BitVec 15

/-- The 16-bit data field of a command word, and the 16-bit state fields (30_encoding.md R90, 10_state.md R23). -/
abbrev Word16 := BitVec 16

/-- A command word, format CMD20: op in bits 19:16, data in bits 15:0 (30_encoding.md R90). -/
abbrev CmdWord := BitVec 20

/-- A finite list of 8-bit values (00_scope.md R10). -/
abbrev ByteString := List Byte

/-- A finite list of bits, true for 1 (00_scope.md R9, R10). -/
abbrev BitString := List Bool

end Sys2Proof
end

