-- ==== Sys2Proof/Config.lean ====
section
/-! DEFINITION. The fixed constants of 00_scope.md R5 ("The source fixes them and no configuration changes them").
The two parameters, MAX_CODE_SIZE and PACK_INIT_COUNT (R6, R7), are state (ENC.max and PK.init), because INIT and
INIT_PACK write them. The spec leaves no value free (93_implementation_defined.md), so no opaque value stands here. -/

namespace Sys2Proof.Config

/-- END_OF_INFO, "stream terminator / block flush marker". -/
def eoi : Code := 256#15

/-- BUMP, "signals consumer to widen subsequent codepoint width by one bit". -/
def bump : Code := 257#15

/-- CLEAR, "signals dictionary reset". -/
def clear : Code := 258#15

/-- FIRST_DYN: the first dynamically assigned code. -/
def firstDyn : Code := 259#15

/-- INIT_SIZE: the initial dictionary size, "256 literals + 3 controls". -/
def initSize : Word16 := 259#16

/-- W0: the initial code width. -/
def initWidth : BitVec 4 := 9#4

/-- WMAX: the largest code width. -/
def maxWidth : BitVec 4 := 15#4

/-- THRESH0: the initial bump threshold. -/
def initThresh : Word16 := 511#16

/-- HARD_CEILING: "absolute hard ceiling (32768 total entries)". -/
def hardCeiling : Nat := 32768

/-- The power-on value of MAX_CODE_SIZE (R6). -/
def defaultMax : Word16 := 32768#16

end Sys2Proof.Config
end

