-- ==== Sys2Proof/Syntax.lean ====
section
/-! DEFINITION. The instructions: one constructor for each row of spec/opcode_table.json. The first fifteen are the
commands of 30_encoding.md R91, then the reserved opcode (R93), then the five codepoint classes of R80, which are the
Decoder's own instructions (42_decoder.md: "Each codepoint acts as one instruction of the Decoder"). -/

namespace Sys2Proof

inductive Instr where
  /-- ENC_BYTE b (41_encoder.md R142). -/
  | encByte (b : Byte)
  /-- ENC_END (41_encoder.md R148). -/
  | encEnd
  /-- PACK_CODE cp (43_packer_unpacker.md R221). -/
  | packCode (cp : Code)
  /-- PACK_END (43_packer_unpacker.md R229). -/
  | packEnd
  /-- UNPK_BYTE B (43_packer_unpacker.md R232). -/
  | unpkByte (b : Byte)
  /-- UNPK_END (43_packer_unpacker.md R238). -/
  | unpkEnd
  /-- DEC_CODE cp (42_decoder.md R181). -/
  | decCode (cp : Code)
  /-- DEC_END (42_decoder.md R190). -/
  | decEnd
  /-- DEC_RESOLVE cp (42_decoder.md R189). -/
  | decResolve (cp : Code)
  /-- CMP_BYTE b (44_facade.md R270). -/
  | cmpByte (b : Byte)
  /-- CMP_END (44_facade.md R271). -/
  | cmpEnd
  /-- DCMP_BYTE B (44_facade.md R272). -/
  | dcmpByte (b : Byte)
  /-- DCMP_END (44_facade.md R273). -/
  | dcmpEnd
  /-- INIT m (44_facade.md R276). -/
  | init (m : Word16)
  /-- INIT_PACK n (44_facade.md R277). -/
  | initPack (n : Word16)
  /-- The reserved opcode 0xF, with whatever data it carries (30_encoding.md R93). -/
  | reserved (data : Word16)
  /-- CP_EOI, codepoint 256 (30_encoding.md R82). -/
  | cpEoi
  /-- CP_BUMP, codepoint 257 (30_encoding.md R83). -/
  | cpBump
  /-- CP_CLEAR, codepoint 258 (30_encoding.md R84). -/
  | cpClear
  /-- CP_LITERAL, codepoints 0..255 (30_encoding.md R81). -/
  | cpLiteral (b : Byte)
  /-- CP_DYNAMIC, codepoints 259..32767 (30_encoding.md R85). -/
  | cpDynamic (cp : Code)
  deriving DecidableEq, Repr

/-- What reaches the block from outside: a command word on the command port, or a codepoint at the Decoder.
The second is the model's handle for the CP15 rows of the opcode table (assumption log 3). -/
inductive PortWord where
  | cmd (w : CmdWord)
  | code (cp : Code)
  deriving DecidableEq, Repr

end Sys2Proof
end

