-- ==== Sys2Proof/WellFormed.lean ====
section
/-! DEFINITION. Which instructions have an encoding. An operand's type carries its width, so one check is left: a
CP_DYNAMIC codepoint lies in 259..32767, the row's range (30_encoding.md R80, R86). -/

namespace Sys2Proof

/-- 30_encoding.md R80: CP_DYNAMIC is "any value not above" the other four rows, 259..32767. -/
def Instr.wf : Instr → Bool
  | .encByte _ => true
  | .encEnd => true
  | .packCode _ => true
  | .packEnd => true
  | .unpkByte _ => true
  | .unpkEnd => true
  | .decCode _ => true
  | .decEnd => true
  | .decResolve _ => true
  | .cmpByte _ => true
  | .cmpEnd => true
  | .dcmpByte _ => true
  | .dcmpEnd => true
  | .init _ => true
  | .initPack _ => true
  | .reserved _ => true
  | .cpEoi => true
  | .cpBump => true
  | .cpClear => true
  | .cpLiteral _ => true
  | .cpDynamic cp => decide (259 ≤ cp.toNat)

end Sys2Proof
end

