-- ==== Sys2Proof/Machine/Operands.lean ====
section
/-! DEFINITION. The four operand forms of a command word (30_encoding.md R91, R92): how `data` is read, when it is legal,
and how a value is put back into it. No operand is sign-extended, scaled or shifted (R92). -/

namespace Sys2Proof.Machine

/-- The op field of a command word, bits 19:16 (30_encoding.md R90). -/
def opField (w : CmdWord) : BitVec 4 := w.extractLsb' 16 4

/-- The data field of a command word, bits 15:0 (30_encoding.md R90). -/
def dataField (w : CmdWord) : Word16 := w.extractLsb' 0 16

/-- A command word from its two fields (30_encoding.md R90). -/
def commandWord (op : BitVec 4) (data : Word16) : CmdWord := op.setWidth 20 <<< 16 ||| data.setWidth 20

/-- Byte form: `b = data[7:0]`, and `data[15:8] = 0` (30_encoding.md R91, R92). -/
def operandByte (data : Word16) : Option Byte :=
  if data.extractLsb' 8 8 = 0#8 then some (data.extractLsb' 0 8) else none

/-- Codepoint form: `cp = data[14:0]`, and `data[15] = 0` (30_encoding.md R91, R92). -/
def operandCode (data : Word16) : Option Code :=
  if data.extractLsb' 15 1 = 0#1 then some (data.extractLsb' 0 15) else none

/-- No operand: `data = 0` (30_encoding.md R92). -/
def operandNone (data : Word16) : Bool := decide (data = 0#16)

/-- `zext_16(b)` of a byte operand (41_encoder.md R142). -/
def dataOfByte (b : Byte) : Word16 := b.setWidth 16

/-- `zext_16(cp)` of a codepoint operand (42_decoder.md R181). -/
def dataOfCode (cp : Code) : Word16 := cp.setWidth 16

/-- Well-formed command words, clause by clause as 30_encoding.md R92 lists them. -/
def wellFormedWord (w : CmdWord) : Bool :=
  let op := (opField w).toNat
  let data := dataField w
  decide (op ≠ 0xF)
    && (!(op == 0x0 || op == 0x4 || op == 0x9 || op == 0xB) || decide (data.toNat / 256 = 0))
    && (!(op == 0x2 || op == 0x6 || op == 0x8) || decide (data.toNat / 32768 = 0))
    && (!(op == 0x1 || op == 0x3 || op == 0x5 || op == 0x7 || op == 0xA || op == 0xC) || decide (data.toNat = 0))

end Sys2Proof.Machine
end

