-- ==== Sys2Proof/Decode.lean ====
section
/-! DEFINITION. The decoder of command words (30_encoding.md R91 to R93) and of codepoints (R80, R86), total, rejecting
by name; then the encoder, written from the same tables. A command word is delivered whole (R90), so it has no byte
order, and a codepoint is a 15-bit value. -/

namespace Sys2Proof

open Sys2Proof.Machine

/-- Why a command word is not well-formed (30_encoding.md R92). The reserved opcode is no rejection: it is the opcode
table's row "(reserved)", whose meaning is ILLEGAL_COMMAND (R93). -/
inductive DecodeError where
  /-- A byte command (ENC_BYTE, UNPK_BYTE, CMP_BYTE, DCMP_BYTE) with `data[15:8] ≠ 0`. -/
  | byteOperandTooWide
  /-- A codepoint command (PACK_CODE, DEC_CODE, DEC_RESOLVE) with `data[15] ≠ 0`. -/
  | codeOperandTooWide
  /-- An END command with `data ≠ 0`. -/
  | endOperandNotZero
  deriving DecidableEq, Repr

/-- A command with a byte operand. -/
def decodeByteForm (f : Byte → Instr) (data : Word16) : Except DecodeError Instr :=
  match operandByte data with
  | some b => .ok (f b)
  | none => .error .byteOperandTooWide

/-- A command with a codepoint operand. -/
def decodeCodeForm (f : Code → Instr) (data : Word16) : Except DecodeError Instr :=
  match operandCode data with
  | some cp => .ok (f cp)
  | none => .error .codeOperandTooWide

/-- A command with no operand. -/
def decodeEndForm (i : Instr) (data : Word16) : Except DecodeError Instr :=
  if operandNone data then .ok i else .error .endOperandNotZero

/-- The opcode map of 30_encoding.md R91, on the op field's number; 0xF is the reserved opcode. -/
def decodeOp (op : Nat) (data : Word16) : Except DecodeError Instr :=
  match op with
  | 0x0 => decodeByteForm .encByte data
  | 0x1 => decodeEndForm .encEnd data
  | 0x2 => decodeCodeForm .packCode data
  | 0x3 => decodeEndForm .packEnd data
  | 0x4 => decodeByteForm .unpkByte data
  | 0x5 => decodeEndForm .unpkEnd data
  | 0x6 => decodeCodeForm .decCode data
  | 0x7 => decodeEndForm .decEnd data
  | 0x8 => decodeCodeForm .decResolve data
  | 0x9 => decodeByteForm .cmpByte data
  | 0xA => decodeEndForm .cmpEnd data
  | 0xB => decodeByteForm .dcmpByte data
  | 0xC => decodeEndForm .dcmpEnd data
  | 0xD => .ok (.init data)
  | 0xE => .ok (.initPack data)
  | _ => .ok (.reserved data)

/-- The instruction of a command word. -/
def decodeCommand (w : CmdWord) : Except DecodeError Instr :=
  decodeOp (opField w).toNat (dataField w)

/-- Class decoding of a codepoint (30_encoding.md R86): the first match in the order CP_EOI, CP_BUMP, CP_CLEAR,
CP_LITERAL, CP_DYNAMIC. Total: the last row matches everything. -/
def decodeCode (cp : Code) : Instr :=
  if cp = Config.eoi then .cpEoi
  else if cp = Config.bump then .cpBump
  else if cp = Config.clear then .cpClear
  else if cp.extractLsb' 8 7 = 0#7 then .cpLiteral (cp.extractLsb' 0 8)
  else .cpDynamic cp

/-- The decoder. -/
def decode : PortWord → Except DecodeError Instr
  | .cmd w => decodeCommand w
  | .code cp => .ok (decodeCode cp)

/-- The codepoint of a literal byte: `0000000 bbbbbbbb` (30_encoding.md R80). -/
def codeOfByte (b : Byte) : Code := b.setWidth 15

/-- The encoder: the word of an instruction (30_encoding.md R80, R91). -/
def encode : Instr → PortWord
  | .encByte b => .cmd (commandWord 0x0#4 (dataOfByte b))
  | .encEnd => .cmd (commandWord 0x1#4 0#16)
  | .packCode cp => .cmd (commandWord 0x2#4 (dataOfCode cp))
  | .packEnd => .cmd (commandWord 0x3#4 0#16)
  | .unpkByte b => .cmd (commandWord 0x4#4 (dataOfByte b))
  | .unpkEnd => .cmd (commandWord 0x5#4 0#16)
  | .decCode cp => .cmd (commandWord 0x6#4 (dataOfCode cp))
  | .decEnd => .cmd (commandWord 0x7#4 0#16)
  | .decResolve cp => .cmd (commandWord 0x8#4 (dataOfCode cp))
  | .cmpByte b => .cmd (commandWord 0x9#4 (dataOfByte b))
  | .cmpEnd => .cmd (commandWord 0xA#4 0#16)
  | .dcmpByte b => .cmd (commandWord 0xB#4 (dataOfByte b))
  | .dcmpEnd => .cmd (commandWord 0xC#4 0#16)
  | .init m => .cmd (commandWord 0xD#4 m)
  | .initPack n => .cmd (commandWord 0xE#4 n)
  | .reserved data => .cmd (commandWord 0xF#4 data)
  | .cpEoi => .code Config.eoi
  | .cpBump => .code Config.bump
  | .cpClear => .code Config.clear
  | .cpLiteral b => .code (codeOfByte b)
  | .cpDynamic cp => .code cp

/-- The port word of an opcode-table word: a row of at most 16 bits is a CP15 codepoint (bits 14:0), a wider one a CMD20
command word (bits 19:0), each with bit 0 its least significant bit (assumption log 9). -/
def tableWord (nbits w : Nat) : PortWord :=
  if nbits ≤ 16 then .code (BitVec.ofNat 15 w) else .cmd (BitVec.ofNat 20 w)

/-- Does an opcode-table word fit its format: CP15 has 15 bits, CMD20 has 20. -/
def tableWordFits (nbits w : Nat) : Bool :=
  if nbits ≤ 16 then decide (w < 2 ^ 15) else decide (w < 2 ^ 20)

/-- What the decoder reads from an opcode-table word; none where it refuses, or where the word has a bit outside its
format. -/
def decodeTableWord (nbits w : Nat) : Option Instr :=
  if tableWordFits nbits w then
    match decode (tableWord nbits w) with
    | .ok i => some i
    | .error _ => none
  else none

end Sys2Proof
end

