-- ==== Sys2Proof/Machine/Bits.lean ====
section
/-! DEFINITION. The bit-sequence utilities (40_bit_utilities.md R120 to R123), MSB first, and the Packer's byte flush
(43_packer_unpacker.md R228). -/

namespace Sys2Proof.Machine

/-- `[B[7], B[6], ..., B[0]]` (20_memory.md R65, 40_bit_utilities.md R120). -/
def byteBits (b : Byte) : BitString :=
  [b.getLsbD 7, b.getLsbD 6, b.getLsbD 5, b.getLsbD 4, b.getLsbD 3, b.getLsbD 2, b.getLsbD 1, b.getLsbD 0]

/-- `bytes_to_bits` (40_bit_utilities.md R120). -/
def bytesToBits : ByteString → BitString
  | [] => []
  | b :: t => byteBits b ++ bytesToBits t

/-- `bits_to_int` (40_bit_utilities.md R121): `bits_to_int(x ++ [y]) = 2 * bits_to_int(x) + y`. -/
def bitsToInt (x : BitString) : Nat := x.foldl (fun n y => 2 * n + y.toNat) 0

/-- `[v[w-1], ..., v[0]]`: the bits that `intToBits` gives under its precondition, and no `int_to_bits` outside it. -/
def fieldBits : Nat → Nat → BitString
  | 0, _ => []
  | w + 1, v => v.testBit w :: fieldBits w v

/-- `int_to_bits(v, w)`, "defined for `v < 2^w`" (40_bit_utilities.md R122): "A model must not give the out-of-range case a
value", so none there. -/
def intToBits (v w : Nat) : Option BitString := if v < 2 ^ w then some (fieldBits w v) else none

/-- `zeros(n)`. -/
def zeros (n : Nat) : BitString := List.replicate n false

/-- `(8 - n mod 8) mod 8`: the bits from length n up to the next byte boundary (40_bit_utilities.md R123). -/
def padLength (n : Nat) : Nat := (8 - n % 8) % 8

/-- `x ++ zeros(p)`, up to the next multiple of 8 (40_bit_utilities.md R123, 43_packer_unpacker.md R225). -/
def padToByte (x : BitString) : BitString := x ++ zeros (padLength x.length)

/-- The byte of a group of 8 bits (20_memory.md R65). Applied to groups of 8 bits only, whose value is below 256. -/
def groupByte (x : BitString) : Byte := BitVec.ofNat 8 (bitsToInt x)

/-- Every complete group of 8 bits from the front as one byte, and the bits left over (43_packer_unpacker.md R228). -/
def flushBytes : BitString → ByteString × BitString
  | x0 :: x1 :: x2 :: x3 :: x4 :: x5 :: x6 :: x7 :: rest =>
    (groupByte [x0, x1, x2, x3, x4, x5, x6, x7] :: (flushBytes rest).1, (flushBytes rest).2)
  | short => ([], short)

/-- `bits_to_bytes` (40_bit_utilities.md R123): zero-pads the last byte's low-order bits. -/
def bitsToBytes (x : BitString) : ByteString := (flushBytes (padToByte x)).1

end Sys2Proof.Machine
end

