-- ==== Sys2Proof/Machine/Dict.lean ====
section
/-! DEFINITION. The dictionaries' three operations (00_scope.md R11) and the two reset dictionaries (10_state.md R22, R30).
A dictionary is a list of entries in the order they were inserted, each key once (assumption log 7). -/

namespace Sys2Proof.Machine

/-- A finite map, as the list of its entries. -/
abbrev Dict (κ ν : Type) := List (κ × ν)

/-- `DictRead(d, k)`: the value of key `k`, or none (00_scope.md R11). -/
def dictRead {κ ν : Type} [DecidableEq κ] : Dict κ ν → κ → Option ν
  | [], _ => none
  | (k', v) :: d, k => if k' = k then some v else dictRead d k

/-- `DictHas(d, k)`: `DictRead(d, k) != none` (00_scope.md R11). -/
def dictHas {κ ν : Type} [DecidableEq κ] (d : Dict κ ν) (k : κ) : Bool := (dictRead d k).isSome

/-- `DictWrite(d, k, v)`: "binds `k` to `v` and changes no other key" (00_scope.md R11). A new key goes last, as code
assignment is "strictly insertion-ordered" (10_state.md R22). -/
def dictWrite {κ ν : Type} [DecidableEq κ] : Dict κ ν → κ → ν → Dict κ ν
  | [], k, v => [(k, v)]
  | (k', v') :: d, k, v => if k' = k then (k, v) :: d else (k', v') :: dictWrite d k v

/-- The keys of a dictionary, in order. -/
def dictKeys {κ ν : Type} (d : Dict κ ν) : List κ := d.map Prod.fst

/-- The values of a dictionary, in order. -/
def dictVals {κ ν : Type} (d : Dict κ ν) : List ν := d.map Prod.snd

/-- The canonical form: each key stands once ("Keys are unique", 10_state.md R22). -/
def dictWf {κ ν : Type} [DecidableEq κ] (d : Dict κ ν) : Bool := decide (dictKeys d).Nodup

/-- `EncDict0`: the 256 entries `[i] -> i` (10_state.md R22). -/
def encDict0 : Dict ByteString Code :=
  (List.range 256).map fun i => ([BitVec.ofNat 8 i], BitVec.ofNat 15 i)

/-- `DecDict0`: the 256 entries `i -> [i]`; 256, 257 and 258 have no entry (10_state.md R30). -/
def decDict0 : Dict Code ByteString :=
  (List.range 256).map fun i => (BitVec.ofNat 15 i, [BitVec.ofNat 8 i])

end Sys2Proof.Machine
end

