-- ==== Sys2Proof/Machine/State.lean ====
section
/-! DEFINITION. The state of the block (10_state.md), the model's stops, and the state after power-on. "The named fields
below are the whole architectural state" (R20): five parts, ENC, DE, PK, UP and CMD. The model adds the command port's
pending words and the last command's response (assumption log 1 and 4). -/

namespace Sys2Proof.Machine

/-- The fault codes of 60_exceptions.md R290. Codes 9..15 are "never written", and no value here stands for one
(assumption log 8). These are recorded by the machine, which goes on; they are not the model's stops. -/
inductive FaultCode where
  | none
  | configError
  | protocolMisuse
  | dictCeiling
  | codeTooWide
  | unknownCode
  | widthOverflow
  | streamClosed
  | illegalCommand
  deriving DecidableEq, Repr

/-- The done bit and the fault field that each of the four units has (10_state.md R28, R29, R33, R34, R40, R41, R45, R46). -/
structure UnitCtl where
  done : Bool
  fault : FaultCode
  deriving DecidableEq, Repr

/-- The Encoder, ENC (10_state.md R22 to R29). -/
structure Enc where
  /-- ENC.dict (R22). -/
  dict : Dict ByteString Code
  /-- ENC.size (R23). -/
  size : Word16
  /-- ENC.prefix (R24). -/
  pfx : ByteString
  /-- ENC.max (R25). -/
  max : Word16
  /-- ENC.thresh (R26). -/
  thresh : Word16
  /-- ENC.width (R27). -/
  width : BitVec 4
  /-- ENC.done and ENC.fault (R28, R29). -/
  ctl : UnitCtl
  deriving DecidableEq, Repr

/-- The Decoder, DE (10_state.md R30 to R34). -/
structure De where
  /-- DE.dict (R30). -/
  dict : Dict Code ByteString
  /-- DE.size (R31). -/
  size : Word16
  /-- DE.prefix (R32). -/
  pfx : Option ByteString
  /-- DE.done and DE.fault (R33, R34). -/
  ctl : UnitCtl
  deriving DecidableEq, Repr

/-- The Packer, PK (10_state.md R35 to R41). -/
structure Pk where
  /-- PK.width (R35). -/
  width : BitVec 4
  /-- PK.count (R36). -/
  count : Word16
  /-- PK.init (R37). -/
  init : Word16
  /-- PK.thresh (R38). -/
  thresh : Word16
  /-- PK.buf (R39). -/
  buf : BitString
  /-- PK.done and PK.fault (R40, R41). -/
  ctl : UnitCtl
  deriving DecidableEq, Repr

/-- The Unpacker, UP (10_state.md R42 to R46). -/
structure Up where
  /-- UP.width (R42). -/
  width : BitVec 4
  /-- UP.acc (R43). -/
  acc : BitString
  /-- UP.off (R44): intra-command, 0 between commands. -/
  off : BitVec 3
  /-- UP.skip (R44): intra-command, 0 between commands. -/
  skip : Bool
  /-- UP.done and UP.fault (R45, R46). -/
  ctl : UnitCtl
  deriving DecidableEq, Repr

/-- The command port's own fault field, CMD (10_state.md R47). -/
structure Cmd where
  fault : FaultCode
  deriving DecidableEq, Repr

/-- An item of a response: a codepoint or a byte (10_state.md R49). -/
inductive Item where
  | code (cp : Code)
  | byte (b : Byte)
  deriving DecidableEq, Repr

/-- The response record `{out : List, blk_end : Bool}` (10_state.md R49). -/
structure Response where
  out : List Item
  blkEnd : Bool
  deriving DecidableEq, Repr

/-- The state of the block. -/
structure State where
  /-- ENC. -/
  enc : Enc
  /-- DE. -/
  de : De
  /-- PK. -/
  pk : Pk
  /-- UP. -/
  up : Up
  /-- CMD. -/
  cmd : Cmd
  /-- What the host got back for the last command (R49): the model's own field (assumption log 4). -/
  resp : Response
  /-- What the host has issued and the block has not yet taken, oldest first: the model's own field (assumption log 1). -/
  port : List PortWord
  deriving DecidableEq, Repr

/-- The model's stops. Each is a use of an operator of the spec outside the precondition the spec gives it, which happens
only in a state that no run reaches; the spec says nothing of such a state, and the model gives it no value. Each is safe:
the model stops where the spec has no meaning (assumption log 6). -/
inductive Fault where
  /-- `DictRead` of a key that is not bound, where its value is to be emitted. Raised by ENC_BYTE, ENC_END and the façade
  commands over them, when ENC.prefix is not a key (10_state.md R24 says it always is). Safe. -/
  | absentKey
  /-- `s[0]` of an empty list (00_scope.md R10: "the first element of a non-empty list"). Raised by DEC_CODE,
  DEC_RESOLVE, DCMP_BYTE and the CP_LITERAL and CP_DYNAMIC arms, when an entry or DE.prefix is empty (R32 and
  20_memory.md R63 say none is). Safe. -/
  | emptyString
  /-- A value put into a field it does not fit (00_scope.md R9, R13: "every rule that updates one shows that the result
  fits"). Raised by ENC_BYTE, PACK_CODE and the façade commands over them, at a BUMP when the threshold is above 32767
  or ENC.width is 15. Safe. -/
  | fieldOverflow
  /-- `zeros(8 - len(PK.buf))` with more than 8 pending bits (10_state.md R39: 0 to 7 between commands). Raised by PACK_END
  and CMP_END. Safe. -/
  | padUnderflow
  deriving DecidableEq, Repr

/-- An instruction the model gives no meaning. -/
inductive Refusal where
  /-- The instruction has no meaning yet. Raised by no arm of exec: every row of the opcode table has its meaning. Safe. -/
  | notModelled (mnemonic : String)
  deriving DecidableEq, Repr

/-- A unit's control fields after INIT: done 0, fault NONE (10_state.md R50). -/
def UnitCtl.reset : UnitCtl := { done := false, fault := .none }

/-- No item and no block end. -/
def Response.empty : Response := { out := [], blkEnd := false }

/-- Power-on (70_reset_and_hazards.md R330): every field as the column "after INIT(m)" of 10_state.md R50 gives it, with
m = 32768. No word is pending and no command has been answered (assumption log 1 and 4). -/
def State.reset : State where
  enc := { dict := encDict0, size := 259#16, pfx := [], max := 32768#16, thresh := 511#16, width := 9#4, ctl := UnitCtl.reset }
  de := { dict := decDict0, size := 259#16, pfx := none, ctl := UnitCtl.reset }
  pk := { width := 9#4, count := 259#16, init := 259#16, thresh := 511#16, buf := [], ctl := UnitCtl.reset }
  up := { width := 9#4, acc := [], off := 0#3, skip := false, ctl := UnitCtl.reset }
  cmd := { fault := .none }
  resp := Response.empty
  port := []

end Sys2Proof.Machine
end

