-- ==== Sys2Proof/Machine/Flags.lean ====
section
/-! DEFINITION. The status view. The block has no condition flags ("There are no flags", 41_encoder.md R142); what it shows
of itself is STATUS, a 24-bit read-only view of the fault and done fields (10_state.md R48). -/

namespace Sys2Proof.Machine

/-- The 4-bit number of a fault code (60_exceptions.md R290). -/
def faultBits : FaultCode → BitVec 4
  | .none => 0#4
  | .configError => 1#4
  | .protocolMisuse => 2#4
  | .dictCeiling => 3#4
  | .codeTooWide => 4#4
  | .unknownCode => 5#4
  | .widthOverflow => 6#4
  | .streamClosed => 7#4
  | .illegalCommand => 8#4

/-- A field of STATUS with its low bit at bit `i`. -/
def statusField {n : Nat} (x : BitVec n) (i : Nat) : BitVec 24 := x.setWidth 24 <<< i

/-- STATUS (10_state.md R48): ENC_FAULT in bits 3:0, PK_FAULT 7:4, UP_FAULT 11:8, DE_FAULT 15:12, CMD_FAULT 19:16, then
ENC_DONE 20, PK_DONE 21, UP_DONE 22, DE_DONE 23. Reading it is no command and changes nothing. -/
def State.status (s : State) : BitVec 24 :=
  statusField (faultBits s.enc.ctl.fault) 0 ||| statusField (faultBits s.pk.ctl.fault) 4
    ||| statusField (faultBits s.up.ctl.fault) 8 ||| statusField (faultBits s.de.ctl.fault) 12
    ||| statusField (faultBits s.cmd.fault) 16 ||| statusField (BitVec.ofBool s.enc.ctl.done) 20
    ||| statusField (BitVec.ofBool s.pk.ctl.done) 21 ||| statusField (BitVec.ofBool s.up.ctl.done) 22
    ||| statusField (BitVec.ofBool s.de.ctl.done) 23

/-- No fault field is set. -/
def faultFree (s : State) : Bool :=
  decide (s.enc.ctl.fault = .none) && decide (s.de.ctl.fault = .none) && decide (s.pk.ctl.fault = .none)
    && decide (s.up.ctl.fault = .none) && decide (s.cmd.fault = .none)

end Sys2Proof.Machine
end

