-- ==== Sys2Proof/Machine/Ops.lean ====
section
/-! DEFINITION. The operations the commands share: the operators that have a precondition, raising a fault and clearing
faults, the guard, the five reset procedures, command dispatch and the response. -/

namespace Sys2Proof.Machine

/-- What a rule gives: a value, or a stop of the model where an operator's precondition fails (assumption log 6). -/
abbrev Result (α : Type) := Except Fault α

/-- `zext_N(v)`: "`v` as an N-bit value when `v < 2^N`. It is never applied to a larger `v`" (00_scope.md R9, R13). -/
def zext (n v : Nat) : Result (BitVec n) := if v < 2 ^ n then .ok (BitVec.ofNat n v) else .error .fieldOverflow

/-- `s[0]`, "the first element of a non-empty list" (00_scope.md R10). -/
def firstByte : ByteString → Result Byte
  | [] => .error .emptyString
  | b :: _ => .ok b

/-- `(t << 1) | 1`, "double the threshold (shift left, set low bit)" (10_state.md R26, R38). -/
def nextThresh (t : Word16) : Result Word16 := zext 16 ((t.toNat <<< 1) ||| 1)

/-- The code that an insertion at `size` gets; the rules insert only at a size below the ceiling 32768, where it fits 15
bits (41_encoder.md R144, 42_decoder.md R185). -/
def codeOfSize (size : Word16) : Code := BitVec.ofNat 15 size.toNat

/-- Would one more entry make the size exceed 32768 (41_encoder.md R142, 42_decoder.md R187)? -/
def pastCeiling (size : Word16) : Bool := decide (Config.hardCeiling < size.toNat + 1)

/-- `raise Fault(code)` (60_exceptions.md R293(a)): the unit's fault field takes the code. The rule that raises ends its
part of the command there (R293(b)); what it wrote and emitted before stands (R293(c), (d)). Nothing is saved and nothing
is vectored (R298). -/
def raiseFault (code : FaultCode) (c : UnitCtl) : UnitCtl := { c with fault := code }

/-- Clearing (60_exceptions.md R299): done 0 and fault NONE, by INIT, and by INIT_PACK for the Packer. There is no
return-from-trap command. -/
def clearUnit (_c : UnitCtl) : UnitCtl := UnitCtl.reset

/-- The unit's END command has run (10_state.md R28, R33, R40, R45). -/
def closeUnit (c : UnitCtl) : UnitCtl := { c with done := true }

/-- The first two lines of every unit rule, in their order (60_exceptions.md R294, R296): the Guard, which ends the unit's
part with no change; then STREAM_CLOSED; then the rule's own body. -/
def guardUnit {α : Type} (c : UnitCtl) (ignored : α) (raised : UnitCtl → α) (body : α) : α :=
  if c.fault ≠ .none then ignored
  else if c.done then raised (raiseFault .streamClosed c)
  else body

/-- `EncReset()` (41_encoder.md R140). -/
def encReset (e : Enc) : Enc :=
  { e with dict := encDict0, size := Config.initSize, pfx := [], thresh := Config.initThresh, width := Config.initWidth }

/-- Is a MAX_CODE_SIZE legal: `259 <= m <= 32768` (00_scope.md R6). -/
def legalMax (m : Word16) : Bool := decide (259 ≤ m.toNat) && decide (m.toNat ≤ 32768)

/-- `EncConfigure(m)` (41_encoder.md R141). -/
def encConfigure (m : Word16) (e : Enc) : Enc :=
  let r := encReset { e with max := m }
  { r with ctl := if legalMax m then clearUnit r.ctl else raiseFault .configError (clearUnit r.ctl) }

/-- `DecReset()` (42_decoder.md R180). -/
def decReset (d : De) : De := { d with dict := decDict0, size := Config.initSize, pfx := none }

/-- The Decoder's part of INIT (44_facade.md R276). -/
def decInit (d : De) : De := { decReset d with ctl := clearUnit d.ctl }

/-- `PackWidthReset()` (43_packer_unpacker.md R220). -/
def packWidthReset (p : Pk) : Pk := { p with width := Config.initWidth, count := p.init, thresh := Config.initThresh }

/-- `PackInit(n)` (43_packer_unpacker.md R220). -/
def packInit (n : Word16) (p : Pk) : Pk :=
  { packWidthReset { p with init := n } with buf := [], ctl := clearUnit p.ctl }

/-- `UnpackInit()` (43_packer_unpacker.md R231). -/
def unpackInit (u : Up) : Up :=
  { width := Config.initWidth, acc := [], off := 0#3, skip := false, ctl := clearUnit u.ctl }

/-- Gives the host a command's response (10_state.md R49). -/
def respond (s : State) (out : List Item) (blkEnd : Bool) : State := { s with resp := { out := out, blkEnd := blkEnd } }

/-- The outcome of a command's rule. -/
def outcomeOf (r : Result State) : Host.Outcome State Fault Refusal :=
  match r with
  | .ok t => .next t
  | .error f => .fault f

/-- Dispatch of a command other than INIT (60_exceptions.md R295): while CMD.fault is non-zero it has no effect and an empty
response; else its rule runs. -/
def dispatchCommand (s : State) (rule : Result State) : Host.Outcome State Fault Refusal :=
  if s.cmd.fault ≠ .none then .next (respond s [] false) else outcomeOf rule

/-- An illegal command word (30_encoding.md R93, 60_exceptions.md R295): CMD.fault takes 8, "unless `CMD.fault` is already
non-zero"; no unit changes, and the response is empty. -/
def illegalCommand (s : State) : Host.Outcome State Fault Refusal :=
  dispatchCommand s (.ok (respond { s with cmd := { fault := .illegalCommand } } [] false))

end Sys2Proof.Machine
end

