-- ==== Sys2Proof/Machine/Decoder.lean ====
section
/-! DEFINITION. The Decoder's arms and the commands DEC_CODE, DEC_RESOLVE and DEC_END (42_decoder.md). A Decoder rule gives
the Decoder, the bytes emitted, and whether it processed an END_OF_INFO (`blk_end`). -/

namespace Sys2Proof.Machine

/-- What a Decoder rule gives: the unit, the bytes in order, and `blk_end`. -/
abbrev DecResult := Result (De × ByteString × Bool)

/-- A Decoder rule that raises before it writes or emits anything (60_exceptions.md R293). -/
def decRaise (code : FaultCode) (d : De) : DecResult := .ok ({ d with ctl := raiseFault code d.ctl }, [], false)

/-- BUMP arm (42_decoder.md R182): consumed, no effect, the prefix kept. -/
def decBump (d : De) : DecResult := .ok (d, [], false)

/-- END_OF_INFO arm (42_decoder.md R183). -/
def decEoi (d : De) : DecResult := .ok (decReset d, [], true)

/-- CLEAR arm (42_decoder.md R184). -/
def decClear (d : De) : DecResult := .ok (decReset d, [], false)

/-- "Set prefix = output; emit each byte of output in order" (42_decoder.md R185). -/
def decEmit (out : ByteString) (d : De) : DecResult := .ok ({ d with pfx := some out }, out, false)

/-- Binds the next code, DE.size, to `v` (42_decoder.md R185, R186). -/
def decInsert (v : ByteString) (d : De) : De :=
  { d with dict := dictWrite d.dict (codeOfSize d.size) v, size := d.size + 1#16 }

/-- Known-code arm (42_decoder.md R185), with the ceiling (R187). -/
def decKnown (out : ByteString) (d : De) : DecResult :=
  match d.pfx with
  | none => decEmit out d
  | some p =>
    if pastCeiling d.size then decRaise .dictCeiling d
    else do
      let x ← firstByte out
      decEmit out (decInsert (p ++ [x]) d)

/-- Special-case arm (42_decoder.md R186), with the ceiling (R187): `cp = DE.size`, so "at code cp" is the next code. -/
def decSpecial (p : ByteString) (d : De) : DecResult :=
  if pastCeiling d.size then decRaise .dictCeiling d
  else do
    let x ← firstByte p
    decEmit (p ++ [x]) (decInsert (p ++ [x]) d)

/-- The arms of a data codepoint: known, special case, unknown (42_decoder.md R185, R186, R188). -/
def decData (cp : Code) (d : De) : DecResult :=
  match dictRead d.dict cp with
  | some out => decKnown out d
  | none =>
    match d.pfx with
    | some p => if cp.toNat = d.size.toNat then decSpecial p d else decRaise .unknownCode d
    | none => decRaise .unknownCode d

/-- `DecStep(cp, resolve)` (42_decoder.md R181, R189). -/
def decStep (resolve : Bool) (cp : Code) (d : De) : DecResult :=
  if cp = Config.bump then decBump d
  else if cp = Config.eoi then
    if resolve then decRaise .protocolMisuse d else decEoi d
  else if cp = Config.clear then decClear d
  else decData cp d

/-- The guard and the closed check before a Decoder rule (42_decoder.md R181). -/
def decGuard (d : De) (body : DecResult) : DecResult :=
  guardUnit d.ctl (.ok (d, [], false)) (fun c => .ok ({ d with ctl := c }, [], false)) body

/-- The DEC_CODE rule (42_decoder.md R181). -/
def decCode (cp : Code) (d : De) : DecResult := decGuard d (decStep false cp d)

/-- The DEC_RESOLVE rule (42_decoder.md R189). -/
def decResolve (cp : Code) (d : De) : DecResult := decGuard d (decStep true cp d)

/-- The DEC_END rule (42_decoder.md R190). -/
def decEnd (d : De) : DecResult := decGuard d (.ok ({ d with ctl := closeUnit d.ctl }, [], false))

/-- The state and response after a Decoder command: its items are bytes (10_state.md R49). -/
def respondDec (s : State) (r : DecResult) : Result State := do
  let (d, out, blkEnd) ← r
  .ok (respond { s with de := d } (out.map .byte) blkEnd)

/-- DEC_CODE cp (42_decoder.md R181). -/
def execDecCode (cp : Code) (s : State) : Host.Outcome State Fault Refusal :=
  dispatchCommand s (respondDec s (decCode cp s.de))

/-- DEC_RESOLVE cp (42_decoder.md R189). -/
def execDecResolve (cp : Code) (s : State) : Host.Outcome State Fault Refusal :=
  dispatchCommand s (respondDec s (decResolve cp s.de))

/-- DEC_END (42_decoder.md R190). -/
def execDecEnd (s : State) : Host.Outcome State Fault Refusal :=
  dispatchCommand s (respondDec s (decEnd s.de))

end Sys2Proof.Machine
end

