-- ==== Sys2Proof/Machine/Codepoint.lean ====
section
/-! DEFINITION. The codepoint classes as instructions of the Decoder (30_encoding.md R80 to R86; 42_decoder.md: "Each
codepoint acts as one instruction of the Decoder"). Each runs its arm at stream level, as DEC_CODE does: dispatch, guard,
closed check, then the arm (assumption log 3). -/

namespace Sys2Proof.Machine

/-- One arm of the Decoder, run at stream level (42_decoder.md R181). -/
def runArm (s : State) (arm : DecResult) : Host.Outcome State Fault Refusal :=
  dispatchCommand s (respondDec s (decGuard s.de arm))

/-- CP_EOI (42_decoder.md R183). -/
def execCpEoi (s : State) : Host.Outcome State Fault Refusal := runArm s (decEoi s.de)

/-- CP_BUMP (42_decoder.md R182). -/
def execCpBump (s : State) : Host.Outcome State Fault Refusal := runArm s (decBump s.de)

/-- CP_CLEAR (42_decoder.md R184). -/
def execCpClear (s : State) : Host.Outcome State Fault Refusal := runArm s (decClear s.de)

/-- CP_LITERAL b (42_decoder.md R185): a literal is a data codepoint, always known (30_encoding.md R81). -/
def execCpLiteral (b : Byte) (s : State) : Host.Outcome State Fault Refusal := runArm s (decData (codeOfByte b) s.de)

/-- CP_DYNAMIC cp (42_decoder.md R185, R186, R188; 30_encoding.md R85). -/
def execCpDynamic (cp : Code) (s : State) : Host.Outcome State Fault Refusal := runArm s (decData cp s.de)

end Sys2Proof.Machine
end

