-- ==== Sys2Proof/Machine/Configuration.lean ====
section
/-! DEFINITION. The configuration commands INIT and INIT_PACK (44_facade.md R276, R277) and the reserved opcode
(30_encoding.md R93). -/

namespace Sys2Proof.Machine

/-- INIT m (44_facade.md R276): "never blocked", so it does not go through the CMD.fault check (60_exceptions.md R295). -/
def execInit (m : Word16) (s : State) : Host.Outcome State Fault Refusal :=
  .next (respond
    { s with
      enc := encConfigure m s.enc
      de := decInit s.de
      pk := packInit Config.initSize s.pk
      up := unpackInit s.up
      cmd := { fault := .none } } [] false)

/-- INIT_PACK n (44_facade.md R277). -/
def execInitPack (n : Word16) (s : State) : Host.Outcome State Fault Refusal :=
  dispatchCommand s (.ok (respond { s with pk := packInit n s.pk } [] false))

/-- The reserved opcode 0xF (30_encoding.md R93): an illegal command word, whatever its data. -/
def execReserved (_data : Word16) (s : State) : Host.Outcome State Fault Refusal := illegalCommand s

end Sys2Proof.Machine
end

