-- ==== Sys2Proof/Machine/Encoder.lean ====
section
/-! DEFINITION. The Encoder's rules and the commands ENC_BYTE and ENC_END (41_encoder.md). -/

namespace Sys2Proof.Machine

/-- `emit(DictRead(ENC.dict, ENC.prefix))` if the prefix is non-empty (41_encoder.md R146, R148). -/
def encPending (e : Enc) : Result (List Code) :=
  if e.pfx = [] then .ok []
  else
    match dictRead e.dict e.pfx with
    | some c => .ok [c]
    | none => .error .absentKey

/-- Rule 5, flush (41_encoder.md R146). -/
def encFlush (e : Enc) : Result (Enc × List Code) :=
  if e.max.toNat ≤ e.size.toNat then do
    let out ← encPending e
    .ok (encReset e, out ++ [Config.eoi])
  else .ok (e, [])

/-- Rule 6, bump, on the state rule 5 leaves (41_encoder.md R147). -/
def encBump (e : Enc) : Result (Enc × List Code) :=
  if e.thresh.toNat < e.size.toNat then do
    let t ← nextThresh e.thresh
    let w ← zext 4 (e.width.toNat + 1)
    .ok ({ e with thresh := t, width := w }, [Config.bump])
  else .ok (e, [])

/-- Rules 5 and 6 in their order, after steps 1 to 4 emitted `out` (41_encoder.md R142). -/
def encAfterWalk (e : Enc) (out : List Code) : Result (Enc × List Code) := do
  let (e1, o1) ← encFlush e
  let (e2, o2) ← encBump e1
  .ok (e2, out ++ o1 ++ o2)

/-- Step 3 (41_encoder.md R144): emit the prefix's code, insert the candidate at code ENC.size, and start again from the
byte. -/
def encDefine (b : Byte) (e : Enc) : Result (Enc × List Code) :=
  if pastCeiling e.size then .ok ({ e with ctl := raiseFault .dictCeiling e.ctl }, [])
  else do
    let out ← encPending e
    encAfterWalk
      { e with dict := dictWrite e.dict (e.pfx ++ [b]) (codeOfSize e.size), size := e.size + 1#16, pfx := [b] } out

/-- ENC_BYTE of an Encoder that is neither faulted nor closed: steps 1 to 4, then rules 5 and 6 (41_encoder.md R142). -/
def encWalk (b : Byte) (e : Enc) : Result (Enc × List Code) :=
  if dictHas e.dict (e.pfx ++ [b]) then encAfterWalk { e with pfx := e.pfx ++ [b] } []
  else if e.pfx ≠ [] then encDefine b e
  else encAfterWalk { e with pfx := [b] } []

/-- The ENC_BYTE rule (41_encoder.md R142). -/
def encByte (b : Byte) (e : Enc) : Result (Enc × List Code) :=
  guardUnit e.ctl (.ok (e, [])) (fun c => .ok ({ e with ctl := c }, [])) (encWalk b e)

/-- The body of ENC_END (41_encoder.md R148). -/
def encFinish (e : Enc) : Result (Enc × List Code) := do
  let out ← encPending e
  .ok ({ encReset e with ctl := closeUnit e.ctl }, out ++ [Config.eoi])

/-- The ENC_END rule (41_encoder.md R148). -/
def encEnd (e : Enc) : Result (Enc × List Code) :=
  guardUnit e.ctl (.ok (e, [])) (fun c => .ok ({ e with ctl := c }, [])) (encFinish e)

/-- The state and response after an Encoder command: its items are codepoints (10_state.md R49). -/
def respondEnc (s : State) (r : Result (Enc × List Code)) : Result State := do
  let (e, out) ← r
  .ok (respond { s with enc := e } (out.map .code) false)

/-- ENC_BYTE b (41_encoder.md R142). -/
def execEncByte (b : Byte) (s : State) : Host.Outcome State Fault Refusal :=
  dispatchCommand s (respondEnc s (encByte b s.enc))

/-- ENC_END (41_encoder.md R148). -/
def execEncEnd (s : State) : Host.Outcome State Fault Refusal :=
  dispatchCommand s (respondEnc s (encEnd s.enc))

end Sys2Proof.Machine
end

