-- ==== Sys2Proof/Machine/Packer.lean ====
section
/-! DEFINITION. The Packer's rules and the commands PACK_CODE and PACK_END (43_packer_unpacker.md, sections 1 to 3). -/

namespace Sys2Proof.Machine

/-- A Packer rule that raises before it writes or emits anything (43_packer_unpacker.md R221). -/
def packRaise (code : FaultCode) (p : Pk) : Result (Pk × ByteString) :=
  .ok ({ p with ctl := raiseFault code p.ctl }, [])

/-- The field write and the count (43_packer_unpacker.md R223, R224); the count wraps modulo 2^16 (00_scope.md R13). -/
def packField (field : BitString) (p : Pk) : Pk := { p with buf := p.buf ++ field, count := p.count + 1#16 }

/-- BUMP: the width and the threshold after its field (43_packer_unpacker.md R227). The caller has checked that the width is
not 15, so width + 1 fits. -/
def packWiden (p : Pk) : Result Pk := do
  let t ← nextThresh p.thresh
  .ok { p with width := p.width + 1#4, thresh := t }

/-- The byte flush at the end of every PACK_CODE (43_packer_unpacker.md R228). -/
def packFlush (p : Pk) : Pk × ByteString := ({ p with buf := (flushBytes p.buf).2 }, (flushBytes p.buf).1)

/-- What a codepoint does after its field is in the buffer, by its class (43_packer_unpacker.md R225 to R227). -/
def packEffect (cp : Code) (p : Pk) : Result Pk :=
  if cp = Config.eoi then .ok (packWidthReset { p with buf := padToByte p.buf })
  else if cp = Config.bump then packWiden p
  else if cp = Config.clear then .ok (packWidthReset p)
  else .ok p

/-- PACK_CODE of a Packer that is neither faulted nor closed (43_packer_unpacker.md R221): CODE_TOO_WIDE exactly where
`int_to_bits` has no value (R222), then WIDTH_OVERFLOW (R227), then the field, its effect and the flush. -/
def packBody (cp : Code) (p : Pk) : Result (Pk × ByteString) :=
  match intToBits cp.toNat p.width.toNat with
  | none => packRaise .codeTooWide p
  | some field =>
    if cp = Config.bump ∧ p.width = Config.maxWidth then packRaise .widthOverflow p
    else do
      let q ← packEffect cp (packField field p)
      .ok (packFlush q)

/-- The guard and the closed check before a Packer rule (43_packer_unpacker.md R221). -/
def packGuard (p : Pk) (body : Result (Pk × ByteString)) : Result (Pk × ByteString) :=
  guardUnit p.ctl (.ok (p, [])) (fun c => .ok ({ p with ctl := c }, [])) body

/-- The PACK_CODE rule (43_packer_unpacker.md R221). -/
def packCode (cp : Code) (p : Pk) : Result (Pk × ByteString) := packGuard p (packBody cp p)

/-- The body of PACK_END (43_packer_unpacker.md R229). -/
def packFinish (p : Pk) : Result (Pk × ByteString) :=
  if p.buf = [] then .ok ({ p with ctl := closeUnit p.ctl }, [])
  else if 8 < p.buf.length then .error .padUnderflow
  else .ok ({ p with buf := [], ctl := closeUnit p.ctl }, [groupByte (p.buf ++ zeros (8 - p.buf.length))])

/-- The PACK_END rule (43_packer_unpacker.md R229). -/
def packEnd (p : Pk) : Result (Pk × ByteString) := packGuard p (packFinish p)

/-- The state and response after a Packer command: its items are bytes (10_state.md R49). -/
def respondPk (s : State) (r : Result (Pk × ByteString)) : Result State := do
  let (p, out) ← r
  .ok (respond { s with pk := p } (out.map .byte) false)

/-- PACK_CODE cp (43_packer_unpacker.md R221). -/
def execPackCode (cp : Code) (s : State) : Host.Outcome State Fault Refusal :=
  dispatchCommand s (respondPk s (packCode cp s.pk))

/-- PACK_END (43_packer_unpacker.md R229). -/
def execPackEnd (s : State) : Host.Outcome State Fault Refusal :=
  dispatchCommand s (respondPk s (packEnd s.pk))

end Sys2Proof.Machine
end

