-- ==== Sys2Proof/Machine/Unpacker.lean ====
section
/-! DEFINITION. The Unpacker's rules and the commands UNPK_BYTE and UNPK_END (43_packer_unpacker.md, section 4). -/

namespace Sys2Proof.Machine

/-- The codepoint of a completed field (43_packer_unpacker.md R234). A field has at most 15 bits, so its value fits. -/
def fieldCode (acc : BitString) : Code := BitVec.ofNat 15 (bitsToInt acc)

/-- What a codepoint read does to the Unpacker after it is emitted (43_packer_unpacker.md R235 to R237). The caller has
raised WIDTH_OVERFLOW for a BUMP at width 15, so width + 1 fits. -/
def unpkEffect (cp : Code) (u : Up) : Up :=
  if cp = Config.bump then { u with width := u.width + 1#4 }
  else if cp = Config.eoi then { u with skip := true, width := Config.initWidth }
  else if cp = Config.clear then { u with width := Config.initWidth }
  else u

/-- The loop of UNPK_BYTE over the bits left, of which the first has index `i` (43_packer_unpacker.md R232, R233). It gives
the unit and the codepoints emitted in order. -/
def unpkBits : Nat → BitString → Up → Up × List Code
  | _, [], u => (u, [])
  | i, x :: rest, u =>
    let u := { u with off := BitVec.ofNat 3 i }
    if u.skip then unpkBits (i + 1) rest u
    else
      let u := { u with acc := u.acc ++ [x] }
      if u.acc.length = u.width.toNat then
        let cp := fieldCode u.acc
        if cp = Config.bump ∧ u.width = Config.maxWidth then ({ u with ctl := raiseFault .widthOverflow u.ctl }, [])
        else
          let r := unpkBits (i + 1) rest (unpkEffect cp { u with acc := [] })
          (r.1, cp :: r.2)
      else unpkBits (i + 1) rest u

/-- UNPK_BYTE of an Unpacker that is neither faulted nor closed (43_packer_unpacker.md R232). UP.off and UP.skip are 0 at
the end of every command (10_state.md R44), of one that raised too (assumption log 5). -/
def unpkBody (b : Byte) (u : Up) : Up × List Code :=
  let r := unpkBits 0 (bytesToBits [b]) { u with skip := false }
  ({ r.1 with off := 0#3, skip := false }, r.2)

/-- The guard and the closed check before an Unpacker rule (43_packer_unpacker.md R232). -/
def unpkGuard (u : Up) (body : Up × List Code) : Up × List Code :=
  guardUnit u.ctl (u, []) (fun c => ({ u with ctl := c }, [])) body

/-- The UNPK_BYTE rule (43_packer_unpacker.md R232). -/
def unpkByte (b : Byte) (u : Up) : Up × List Code := unpkGuard u (unpkBody b u)

/-- The UNPK_END rule (43_packer_unpacker.md R238). -/
def unpkEnd (u : Up) : Up × List Code := unpkGuard u ({ u with acc := [], ctl := closeUnit u.ctl }, [])

/-- The state and response after an Unpacker command: its items are codepoints (10_state.md R49). -/
def respondUp (s : State) (r : Up × List Code) : Result State :=
  .ok (respond { s with up := r.1 } (r.2.map .code) false)

/-- UNPK_BYTE B (43_packer_unpacker.md R232). -/
def execUnpkByte (b : Byte) (s : State) : Host.Outcome State Fault Refusal :=
  dispatchCommand s (respondUp s (unpkByte b s.up))

/-- UNPK_END (43_packer_unpacker.md R238). -/
def execUnpkEnd (s : State) : Host.Outcome State Fault Refusal :=
  dispatchCommand s (respondUp s (unpkEnd s.up))

end Sys2Proof.Machine
end

