-- ==== Sys2Proof/Machine/Facade.lean ====
section
/-! DEFINITION. The façade commands CMP_BYTE, CMP_END, DCMP_BYTE and DCMP_END: the rules of two units in sequence inside one
command (44_facade.md R270 to R273). -/

namespace Sys2Proof.Machine

/-- The loop of CMP_BYTE and CMP_END (44_facade.md R270): pack each codepoint in order, and stop once the Packer is
faulted. -/
def packAll : List Code → Pk → Result (Pk × ByteString)
  | [], p => .ok (p, [])
  | cp :: rest, p => do
    let (q, out) ← packCode cp p
    if q.ctl.fault ≠ .none then .ok (q, out)
    else do
      let (r, more) ← packAll rest q
      .ok (r, out ++ more)

/-- The loop of DCMP_BYTE (44_facade.md R272): decode each codepoint in order, and stop once the Decoder is faulted;
`blk_end` is the OR of the responses'. -/
def decAll : List Code → De → DecResult
  | [], d => .ok (d, [], false)
  | cp :: rest, d => do
    let (q, out, blkEnd) ← decCode cp d
    if q.ctl.fault ≠ .none then .ok (q, out, blkEnd)
    else do
      let (r, more, moreEnd) ← decAll rest q
      .ok (r, out ++ more, blkEnd || moreEnd)

/-- The CMP_BYTE rule (44_facade.md R270). -/
def cmpByte (b : Byte) (s : State) : Result State := do
  let (e, codes) ← encByte b s.enc
  let (p, out) ← packAll codes s.pk
  .ok (respond { s with enc := e, pk := p } (out.map .byte) false)

/-- The CMP_END rule (44_facade.md R271): PACK_END runs whatever came before. -/
def cmpEnd (s : State) : Result State := do
  let (e, codes) ← encEnd s.enc
  let (p, out) ← packAll codes s.pk
  let (q, last) ← packEnd p
  .ok (respond { s with enc := e, pk := q } ((out ++ last).map .byte) false)

/-- The DCMP_BYTE rule (44_facade.md R272). -/
def dcmpByte (b : Byte) (s : State) : Result State := do
  let (d, out, blkEnd) ← decAll (unpkByte b s.up).2 s.de
  .ok (respond { s with up := (unpkByte b s.up).1, de := d } (out.map .byte) blkEnd)

/-- The DCMP_END rule (44_facade.md R273): DEC_END runs whatever UNPK_END did; neither emits anything. -/
def dcmpEnd (s : State) : Result State := do
  let (d, out, blkEnd) ← decEnd s.de
  .ok (respond { s with up := (unpkEnd s.up).1, de := d } (out.map .byte) blkEnd)

/-- CMP_BYTE b (44_facade.md R270). -/
def execCmpByte (b : Byte) (s : State) : Host.Outcome State Fault Refusal := dispatchCommand s (cmpByte b s)

/-- CMP_END (44_facade.md R271). -/
def execCmpEnd (s : State) : Host.Outcome State Fault Refusal := dispatchCommand s (cmpEnd s)

/-- DCMP_BYTE B (44_facade.md R272). -/
def execDcmpByte (b : Byte) (s : State) : Host.Outcome State Fault Refusal := dispatchCommand s (dcmpByte b s)

/-- DCMP_END (44_facade.md R273). -/
def execDcmpEnd (s : State) : Host.Outcome State Fault Refusal := dispatchCommand s (dcmpEnd s)

end Sys2Proof.Machine
end

