-- ==== Sys2Proof/Machine/Dispatch.lean ====
section
/-! DEFINITION. The meaning of every instruction, one arm for each constructor of Instr. -/

namespace Sys2Proof.Machine

def exec (i : Instr) (s : State) : Host.Outcome State Fault Refusal :=
  match i with
  | .encByte b => Sys2Proof.Machine.execEncByte b s
  | .encEnd => Sys2Proof.Machine.execEncEnd s
  | .packCode cp => Sys2Proof.Machine.execPackCode cp s
  | .packEnd => Sys2Proof.Machine.execPackEnd s
  | .unpkByte b => Sys2Proof.Machine.execUnpkByte b s
  | .unpkEnd => Sys2Proof.Machine.execUnpkEnd s
  | .decCode cp => Sys2Proof.Machine.execDecCode cp s
  | .decEnd => Sys2Proof.Machine.execDecEnd s
  | .decResolve cp => Sys2Proof.Machine.execDecResolve cp s
  | .cmpByte b => Sys2Proof.Machine.execCmpByte b s
  | .cmpEnd => Sys2Proof.Machine.execCmpEnd s
  | .dcmpByte b => Sys2Proof.Machine.execDcmpByte b s
  | .dcmpEnd => Sys2Proof.Machine.execDcmpEnd s
  | .init m => Sys2Proof.Machine.execInit m s
  | .initPack n => Sys2Proof.Machine.execInitPack n s
  | .reserved data => Sys2Proof.Machine.execReserved data s
  | .cpEoi => Sys2Proof.Machine.execCpEoi s
  | .cpBump => Sys2Proof.Machine.execCpBump s
  | .cpClear => Sys2Proof.Machine.execCpClear s
  | .cpLiteral b => Sys2Proof.Machine.execCpLiteral b s
  | .cpDynamic cp => Sys2Proof.Machine.execCpDynamic cp s

end Sys2Proof.Machine
end

