-- ==== Sys2Proof/Machine/Fetch.lean ====
section
/-! DEFINITION. Taking the next word from the command port. "Commands arrive on the command port and are consumed in arrival
order" (10_state.md R21); the block fetches nothing from storage (20_memory.md R72). -/

namespace Sys2Proof.Machine

/-- The oldest pending word, and the state without it; none when the host has issued nothing. -/
def fetch (s : State) : Option (PortWord × State) :=
  match s.port with
  | [] => none
  | w :: rest => some (w, { s with port := rest })

/-- A step with nothing pending: the block waits for the host, and nothing changes (assumption log 1). -/
def idle (s : State) : Host.Outcome State Fault Refusal := .next s

/-- Puts a word where the next step takes its word from: at the front of the port. -/
def placeWord (w : PortWord) (s : State) : State := { s with port := w :: s.port }

end Sys2Proof.Machine
end

