-- ==== Sys2Proof/Machine/Step.lean ====
section
/-! DEFINITION. One step of the block: take the oldest pending word, decode it, and run it (60_exceptions.md R295). A word
that does not decode is an illegal command word (30_encoding.md R93). -/

namespace Sys2Proof.Machine

def step (s : State) : Host.Outcome State Fault Refusal :=
  match fetch s with
  | none => idle s
  | some (w, t) =>
    match decode w with
    | .ok i => exec i t
    | .error _ => illegalCommand t

/-- The state with an opcode-table word issued, so that the next step takes exactly it (assumption log 2 and 9). -/
def State.withFetchWord (s : State) (nbits w : Nat) : State := placeWord (tableWord nbits w) s

end Sys2Proof.Machine
end

