-- ==== Sys2Proof/Machine/Stream.lean ====
section
/-! DEFINITION. The packed stream as a format (30_encoding.md R87, R88), apart from the units that write and read it. -/

namespace Sys2Proof.Machine

/-- The width of the next field (30_encoding.md R88): one more after BUMP, 9 after END_OF_INFO or CLEAR, else the same. -/
def nextWidth (w : Nat) (cp : Code) : Nat :=
  if cp = Config.bump then w + 1
  else if cp = Config.eoi ∨ cp = Config.clear then 9
  else w

/-- Can a stream at width `w` hold these codepoints: each fits its field (43_packer_unpacker.md R222), and no BUMP stands
at width 15 (30_encoding.md R88). -/
def fitsStream : Nat → List Code → Bool
  | _, [] => true
  | w, cp :: rest =>
    decide (cp.toNat < 2 ^ w) && !(decide (cp = Config.bump) && decide (w = 15)) && fitsStream (nextWidth w cp) rest

/-- The fields of a stream as one bit string, given the bits already written (30_encoding.md R87): each codepoint MSB first
at its width, zero bits to the byte boundary after every END_OF_INFO. A codepoint too wide for its field has no field
(`intToBits`; 40_bit_utilities.md R122: "A model must not give the out-of-range case a value"), so none there. The spec gives
no stream with a BUMP at width 15 ("a fault", R88): that it is none too is the model's choice (DESIGN CHOICE, safe,
assumption log 15). It is defined exactly under `fitsStream` (Laws/Stream.lean, streamBits_isSome). -/
def streamBits : Nat → List Code → BitString → Option BitString
  | _, [], x => some x
  | w, cp :: rest, x =>
    if cp = Config.bump ∧ w = 15 then none
    else
      (intToBits cp.toNat w).bind fun field =>
        streamBits (nextWidth w cp) rest (if cp = Config.eoi then padToByte (x ++ field) else x ++ field)

/-- A packed stream (30_encoding.md R87): the fields from width 9, then zero bits to the byte boundary, as bytes. None for a
codepoint list that no Packer accepts without fault, as `streamBits` (assumption log 15). -/
def packedStream (codes : List Code) : Option ByteString := (streamBits 9 codes []).map bitsToBytes

end Sys2Proof.Machine
end

