-- ==== Sys2Proof/Machine/Transforms.lean ====
section
/-! DEFINITION. The host's side: issuing command words, and the transforms compress and decompress, which are sequences of
commands (44_facade.md R274, R275; 30_encoding.md R95). The host issues one word and waits for its response before the
next (60_exceptions.md R304). -/

namespace Sys2Proof.Machine

/-- One word issued and run. -/
def issue (w : PortWord) (s : State) : Host.Outcome State Fault Refusal := step { s with port := s.port ++ [w] }

/-- A sequence of words issued one at a time: the last state and the responses in order; none if a step stops. -/
def issueAll : List PortWord → State → Option (State × List Response)
  | [], s => some (s, [])
  | w :: rest, s =>
    match issue w s with
    | .next t =>
      match issueAll rest t with
      | some (u, rs) => some (u, t.resp :: rs)
      | none => none
    | .fault _ => none
    | .refused _ => none

/-- A sequence of instructions run one after another: the last state and the responses in order; none if one stops. -/
def execAll : List Instr → State → Option (State × List Response)
  | [], s => some (s, [])
  | i :: rest, s =>
    match exec i s with
    | .next t =>
      match execAll rest t with
      | some (u, rs) => some (u, t.resp :: rs)
      | none => none
    | .fault _ => none
    | .refused _ => none

/-- The bytes of a response's items. -/
def itemBytes : List Item → ByteString
  | [] => []
  | .byte b :: rest => b :: itemBytes rest
  | .code _ :: rest => itemBytes rest

/-- The codepoints of a response's items. -/
def itemCodes : List Item → List Code
  | [] => []
  | .code cp :: rest => cp :: itemCodes rest
  | .byte _ :: rest => itemCodes rest

/-- The bytes of a list of responses, in order. -/
def responseBytes (rs : List Response) : ByteString := rs.flatMap fun r => itemBytes r.out

/-- The codepoints of a list of responses, in order. -/
def responseCodes (rs : List Response) : List Code := rs.flatMap fun r => itemCodes r.out

/-- The items of a list of responses, in order. -/
def responseItems (rs : List Response) : List Item := rs.flatMap fun r => r.out

/-- Did a response of the list report a block end. -/
def responseEnds (rs : List Response) : Bool := rs.any fun r => r.blkEnd

/-- `COMPRESS x` (30_encoding.md R95): INIT m, CMP_BYTE of each byte, CMP_END. -/
def compressCommands (m : Word16) (x : ByteString) : List Instr := .init m :: x.map .cmpByte ++ [.cmpEnd]

/-- `DECOMPRESS y` (30_encoding.md R95): INIT 32768, DCMP_BYTE of each byte, DCMP_END. -/
def decompressCommands (y : ByteString) : List Instr := .init Config.defaultMax :: y.map .dcmpByte ++ [.dcmpEnd]

/-- A host sequence issued as command words: the last state and the concatenation of the `out` lists' bytes; none if a step
stops. It runs any sequence, the compress sequence of an illegal m and the decompress sequence of a malformed stream too. -/
def runCommands (is : List Instr) (s : State) : Option (State × ByteString) :=
  match issueAll (is.map encode) s with
  | some (t, rs) => some (t, responseBytes rs)
  | none => none

/-- `compress(x, m)` (44_facade.md R274): the concatenation of the `out` lists, with the last state. R274 defines it for a
legal `m` only; that it gives none for any other `m` is the model's choice (DESIGN CHOICE, safe, assumption log 14). -/
def compress (m : Word16) (x : ByteString) (s : State) : Option (State × ByteString) :=
  if legalMax m then runCommands (compressCommands m x) s else none

/-- `decompress(y)` (44_facade.md R275): the concatenation of the `out` lists, with the last state. "It is defined when no
fault is recorded at the end": otherwise it gives none. -/
def decompress (y : ByteString) (s : State) : Option (State × ByteString) :=
  match runCommands (decompressCommands y) s with
  | some (t, x) => if faultFree t then some (t, x) else none
  | none => none

/-- `m = 2^w`, the façade's spelling of the maximum as a width (44_facade.md R274, 00_scope.md R6). The spec gives it for `w`
in 9..15 only; that it gives none for any other `w` is the model's choice (DESIGN CHOICE, safe, assumption log 14). -/
def maxOfWidth (w : Nat) : Option Word16 :=
  if 9 ≤ w ∧ w ≤ 15 then some (BitVec.ofNat 16 (2 ^ w)) else none

/-- `compress` with the maximum given as a width, as "at the public surface" (44_facade.md R274); none for a `w` outside
9..15, as `maxOfWidth`. -/
def compressWidth (w : Nat) (x : ByteString) (s : State) : Option (State × ByteString) :=
  (maxOfWidth w).bind fun m => compress m x s

end Sys2Proof.Machine
end

