-- ==== Sys2Proof/Safety.lean ====
section
/-! DEFINITION. What a claim may assume of a state and what a safe run is: the invariants the spec states for every reachable
state (00_scope.md R8; 10_state.md R23, R32, R39, R43, R44, R51, R52; 20_memory.md R64; 60_exceptions.md R291), unit by
unit, and the step that does not stop. -/

namespace Sys2Proof.Machine

/-- The codes in use at a dictionary size: 0..255 and 259..size-1, in the order they were assigned (10_state.md R31, R51(b)). -/
def codesInUse (size : Nat) : List Code :=
  (List.range 256 ++ List.range' 259 (size - 259)).map (BitVec.ofNat 15)

/-- A unit that is neither faulted nor closed, so that its commands run (60_exceptions.md R294, R296). -/
abbrev UnitCtl.ready (c : UnitCtl) : Prop := c.fault = .none ∧ c.done = false

/-- The command port is not blocked (60_exceptions.md R295). -/
abbrev State.unblocked (s : State) : Prop := s.cmd.fault = .none

/-- The Encoder's invariants. -/
structure EncOk (e : Enc) : Prop where
  /-- Keys are unique (10_state.md R22). -/
  keys_once : dictWf e.dict = true
  /-- Keys are non-empty (10_state.md R22). -/
  keys_nonempty : ∀ k ∈ dictKeys e.dict, k ≠ []
  /-- Every literal is a key, bound to its own code (10_state.md R22, 30_encoding.md R81). -/
  literals : ∀ b : Byte, dictRead e.dict [b] = some (codeOfByte b)
  /-- The dictionary is prefix-closed (10_state.md R51(a)). -/
  closed : ∀ k ∈ dictKeys e.dict, ∀ p ∈ k.inits, p ≠ [] → p ∈ dictKeys e.dict
  /-- The codes in use are 0..255 and 259..size-1, each once, in insertion order (10_state.md R22, R51(b)). -/
  codes : dictVals e.dict = codesInUse e.size.toNat
  /-- A key of length 2 or more extends a key that was there when it was inserted (10_state.md R51(c)). -/
  extends_earlier : ∀ kv ∈ e.dict, 2 ≤ kv.1.length → ∃ pv ∈ e.dict, pv.1 = kv.1.dropLast ∧ pv.2.toNat < kv.2.toNat
  /-- The size counts the keys of length 2 or more (10_state.md R23). -/
  size_counts : e.size.toNat = 259 + ((dictKeys e.dict).filter fun k => decide (2 ≤ k.length)).length
  /-- A key is at most ENC.max - 258 bytes long (20_memory.md R64), by its code. -/
  key_length : ∀ kv ∈ e.dict, 259 ≤ kv.2.toNat → kv.1.length + 257 ≤ kv.2.toNat
  /-- The prefix is empty or a key (10_state.md R51(d)). -/
  pfx_key : e.pfx = [] ∨ dictHas e.dict e.pfx = true
  /-- 10_state.md R51(e). -/
  size_bounds : 259 ≤ e.size.toNat ∧ e.size.toNat ≤ max 259 (e.max.toNat - 1)
  /-- 10_state.md R51(f). -/
  thresh_width : e.thresh.toNat = 2 ^ e.width.toNat - 1 ∧ e.size.toNat ≤ e.thresh.toNat
  /-- ENC.width is in 9..15 (41_encoder.md R147). -/
  width_low : 9 ≤ e.width.toNat
  /-- CONFIG_ERROR stands exactly while ENC.max is illegal (10_state.md R25, R29). -/
  config : e.ctl.fault = .configError ↔ legalMax e.max = false
  /-- What the Encoder can record (60_exceptions.md R291). -/
  fault_codes : e.ctl.fault ∈ [FaultCode.none, .configError, .dictCeiling, .streamClosed]

/-- The Decoder's invariants. -/
structure DeOk (d : De) : Prop where
  /-- The keys are 0..255 and 259..size-1, each once, in order (10_state.md R31, R52(a)). -/
  keys : dictKeys d.dict = codesInUse d.size.toNat
  /-- A literal decodes to itself (30_encoding.md R81). -/
  literals : ∀ b : Byte, dictRead d.dict (codeOfByte b) = some [b]
  /-- Entries are non-empty (20_memory.md R63). -/
  vals_nonempty : ∀ v ∈ dictVals d.dict, v ≠ []
  /-- An entry at 259 or above is an earlier entry and one byte (10_state.md R52(b)). -/
  extends_earlier : ∀ kv ∈ d.dict, 259 ≤ kv.1.toNat → ∃ pv ∈ d.dict, pv.1.toNat < kv.1.toNat ∧ pv.2 = kv.2.dropLast
  /-- An entry is at most DE.size - 258 bytes long (20_memory.md R64), by its code. -/
  val_length : ∀ kv ∈ d.dict, 259 ≤ kv.1.toNat → kv.2.length + 257 ≤ kv.1.toNat
  /-- The prefix, when there is one, is an entry (10_state.md R32). -/
  pfx_entry : ∀ p, d.pfx = some p → p ∈ dictVals d.dict
  /-- With no prefix nothing has been defined since the reset (10_state.md R52(c), 42_decoder.md R181). -/
  pfx_none : d.pfx = none → d.size.toNat = 259
  /-- 10_state.md R31. -/
  size_bounds : 259 ≤ d.size.toNat ∧ d.size.toNat ≤ 32768
  /-- What the Decoder can record (60_exceptions.md R291). -/
  fault_codes : d.ctl.fault ∈ [FaultCode.none, .protocolMisuse, .dictCeiling, .unknownCode, .streamClosed]

/-- The Packer's invariants. -/
structure PkOk (p : Pk) : Prop where
  /-- PK.width is in 9..15 (10_state.md R35). -/
  width_low : 9 ≤ p.width.toNat
  /-- The threshold goes with the width (10_state.md R38, 43_packer_unpacker.md R227). -/
  thresh_width : p.thresh.toNat = 2 ^ p.width.toNat - 1
  /-- 10_state.md R39. -/
  buf_short : p.buf.length ≤ 7
  /-- What the Packer can record (60_exceptions.md R291). -/
  fault_codes : p.ctl.fault ∈ [FaultCode.none, .codeTooWide, .widthOverflow, .streamClosed]

/-- The Unpacker's invariants. R43's bound holds while no fault is recorded: a WIDTH_OVERFLOW keeps the 15 bits of its
field (60_exceptions.md R293, assumption log 13). -/
structure UpOk (u : Up) : Prop where
  /-- UP.width is in 9..15 (10_state.md R42). -/
  width_low : 9 ≤ u.width.toNat
  /-- 10_state.md R43. -/
  acc_short : u.ctl.fault = .none → u.acc.length < u.width.toNat
  /-- The bits of a field that raised WIDTH_OVERFLOW are at most the field (60_exceptions.md R293). -/
  acc_field : u.acc.length ≤ u.width.toNat
  /-- 10_state.md R44. -/
  between : u.off = 0#3 ∧ u.skip = false
  /-- What the Unpacker can record (60_exceptions.md R291). -/
  fault_codes : u.ctl.fault ∈ [FaultCode.none, .widthOverflow, .streamClosed]

/-- What the command port can record (10_state.md R47, 60_exceptions.md R291). -/
abbrev CmdOk (c : Cmd) : Prop := c.fault ∈ [FaultCode.none, .illegalCommand]

/-- The invariant of the block: every unit's, and the command port's. -/
structure State.Ok (s : State) : Prop where
  enc : EncOk s.enc
  de : DeOk s.de
  pk : PkOk s.pk
  up : UpOk s.up
  cmd : CmdOk s.cmd

/-- A step that does not stop: the model found a meaning in the spec for all it did. -/
def SafeStep (s : State) : Prop := ∃ t, step s = .next t

end Sys2Proof.Machine
end

