-- ==== Sys2Proof/Certificates/Slice0/Obligations.lean ====
section
/-! DEFINITION. The statements for the provers. Each says in its docstring which rule of spec/ it formalises. A statement
whose conclusion is `exec i s = .next …` is also its instruction's completion statement and its frame: the state written
out is `s` with the named fields changed and nothing else (the block has no memory and no program counter). -/

namespace Sys2Proof.Machine

/-- The instructions that make the Decoder execute codepoint `cp`: DEC_CODE, DEC_RESOLVE, and the codepoint's own row. -/
def executesCode (i : Instr) (cp : Code) : Prop :=
  i = .decCode cp ∨ i = .decResolve cp ∨ (∃ b : Byte, cp = codeOfByte b ∧ i = .cpLiteral b)
    ∨ (259 ≤ cp.toNat ∧ i = .cpDynamic cp)

/-- A data codepoint: none of the three control codes (00_scope.md R14). -/
abbrev isDataCode (cp : Code) : Prop := cp ≠ Config.eoi ∧ cp ≠ Config.bump ∧ cp ≠ Config.clear

/-- The response of a command that emits nothing. -/
def silent (s : State) : State := { s with resp := { out := [], blkEnd := false } }

/-- The commands that reach the Encoder. -/
def touchesEnc : Instr → Bool
  | .encByte _ | .encEnd | .cmpByte _ | .cmpEnd | .init _ => true
  | _ => false

/-- The commands that reach the Packer. -/
def touchesPk : Instr → Bool
  | .packCode _ | .packEnd | .cmpByte _ | .cmpEnd | .init _ | .initPack _ => true
  | _ => false

/-- The commands that reach the Unpacker. -/
def touchesUp : Instr → Bool
  | .unpkByte _ | .unpkEnd | .dcmpByte _ | .dcmpEnd | .init _ => true
  | _ => false

/-- The commands that reach the Decoder, the codepoints among them. -/
def touchesDe : Instr → Bool
  | .decCode _ | .decResolve _ | .decEnd | .dcmpByte _ | .dcmpEnd | .init _
  | .cpEoi | .cpBump | .cpClear | .cpLiteral _ | .cpDynamic _ => true
  | _ => false

/-- Two states that differ at most in PK.count and PK.init. -/
def sameButCount (s t : State) : Prop :=
  t = { s with pk := { s.pk with count := t.pk.count, init := t.pk.init } }

end Sys2Proof.Machine

open Sys2Proof Sys2Proof.Machine

/-! ### Encoding and decoding -/

/-- Words written out from the spec's encodings (95_test_vectors.md V7, 30_encoding.md R94, R80) decode to their
instructions, and the ill-formed ones of V7 are refused. -/
def Obligations.SampleWordsDecode : Prop :=
  decodeTableWord 24 0x00061 = some (.encByte 0x61#8) ∧ decodeTableWord 24 0x10000 = some .encEnd ∧
  decodeTableWord 24 0x20101 = some (.packCode 257#15) ∧ decodeTableWord 24 0x400C0 = some (.unpkByte 0xC0#8) ∧
  decodeTableWord 24 0x60103 = some (.decCode 259#15) ∧ decodeTableWord 24 0x80100 = some (.decResolve 256#15) ∧
  decodeTableWord 24 0x90067 = some (.cmpByte 0x67#8) ∧ decodeTableWord 24 0xC0000 = some .dcmpEnd ∧
  decodeTableWord 24 0xD8000 = some (.init 32768#16) ∧ decodeTableWord 24 0xE0102 = some (.initPack 258#16) ∧
  decodeTableWord 24 0xF0000 = some (.reserved 0#16) ∧ decodeTableWord 16 0x0100 = some .cpEoi ∧
  decodeTableWord 16 0x0061 = some (.cpLiteral 0x61#8) ∧ decodeTableWord 16 0x0103 = some (.cpDynamic 259#15) ∧
  decodeTableWord 24 0x00100 = none ∧ decodeTableWord 24 0x28000 = none ∧ decodeTableWord 24 0x10001 = none

/-- Decoding an encoded well-formed instruction gives it back, with every operand (30_encoding.md R80, R91). -/
def Obligations.DecodeOfEncodeIsTheInstruction : Prop := ∀ i : Instr, i.wf = true → decode (encode i) = .ok i

/-- Each word has one meaning: a word that decodes is the encoding of what it decodes to, which is well-formed
(30_encoding.md R86, R91, R93). -/
def Obligations.EncodeOfDecodeIsTheWord : Prop :=
  ∀ (w : PortWord) (i : Instr), decode w = .ok i → i.wf = true ∧ encode i = w

/-- 30_encoding.md R92, in arithmetic on the word's number: exactly the words R92 calls well-formed decode to a command of
R91 (op 0xF decodes to the reserved row, which is none). -/
def Obligations.WellFormedWordsAreTheCommands : Prop :=
  ∀ w : CmdWord,
    (∃ i, decode (.cmd w) = .ok i ∧ ∀ data, i ≠ .reserved data) ↔
      (w.toNat / 65536 ≠ 15 ∧
        (w.toNat / 65536 ∈ [0, 4, 9, 11] → w.toNat % 65536 < 256) ∧
        (w.toNat / 65536 ∈ [2, 6, 8] → w.toNat % 65536 < 32768) ∧
        (w.toNat / 65536 ∈ [1, 3, 5, 7, 10, 12] → w.toNat % 65536 = 0))

/-- 30_encoding.md R86: the class of every codepoint, by the first row that matches. -/
def Obligations.CodepointClassIsTheFirstMatch : Prop :=
  ∀ cp : Code, decode (.code cp) = .ok
    (if cp.toNat = 256 then .cpEoi else if cp.toNat = 257 then .cpBump else if cp.toNat = 258 then .cpClear
      else if cp.toNat < 256 then .cpLiteral (BitVec.ofNat 8 cp.toNat) else .cpDynamic cp)

/-! ### The step and dispatch -/

/-- A step runs the decoded instruction: it takes the oldest pending word from the port and is exec of what the word decodes
to (10_state.md R21, 60_exceptions.md R295). -/
def Obligations.StepRunsTheDecodedInstruction : Prop :=
  ∀ (s : State) (w : PortWord) (rest : List PortWord) (i : Instr),
    s.port = w :: rest → decode w = .ok i → step s = exec i { s with port := rest }

/-- With nothing pending a step changes nothing: the model's choice (assumption log 1). -/
def Obligations.IdleStepChangesNothing : Prop := ∀ s : State, s.port = [] → step s = .next s

/-- 60_exceptions.md R295, branch by branch, for a pending command word: INIT first, then the CMD.fault block, then
ILLEGAL_COMMAND, then the rule of op. -/
def Obligations.DispatchFollowsItsProcedure : Prop :=
  ∀ (s : State) (w : CmdWord) (rest : List PortWord), s.port = .cmd w :: rest →
    let s0 : State := { s with port := rest }
    (w.toNat / 65536 = 13 → step s = exec (.init (BitVec.ofNat 16 w.toNat)) s0) ∧
    (w.toNat / 65536 ≠ 13 → s.cmd.fault ≠ .none → step s = .next (silent s0)) ∧
    (s.cmd.fault = .none → wellFormedWord w = false →
      step s = .next (silent { s0 with cmd := { fault := .illegalCommand } })) ∧
    (s.cmd.fault = .none → wellFormedWord w = true → ∃ i, decode (.cmd w) = .ok i ∧ step s = exec i s0)

/-- 30_encoding.md R93: an illegal word changes no unit, answers with an empty response, and sets CMD.fault to
ILLEGAL_COMMAND unless it is set; the reserved opcode is such a word whatever its data; and every well-formed word names a
command of R91. -/
def Obligations.IllegalWordSetsOnlyCmdFault : Prop :=
  (∀ (s : State) (w : CmdWord) (rest : List PortWord), s.port = .cmd w :: rest → wellFormedWord w = false →
    (s.cmd.fault = .none →
      step s = .next { s with port := rest, cmd := { fault := .illegalCommand }, resp := { out := [], blkEnd := false } }) ∧
    (s.cmd.fault ≠ .none → step s = .next { s with port := rest, resp := { out := [], blkEnd := false } })) ∧
  (∀ data : Word16, wellFormedWord (commandWord 0xF#4 data) = false) ∧
  (∀ w : CmdWord, wellFormedWord w = true → ∃ i, decode (.cmd w) = .ok i ∧ ∀ data, i ≠ .reserved data)

/-- The reserved opcode completes (30_encoding.md R93): its whole effect is CMD.fault. -/
def Obligations.ReservedOpcodeRecordsIllegalCommand : Prop :=
  ∀ (s : State) (data : Word16), s.cmd.fault = .none →
    exec (.reserved data) s = .next { s with cmd := { fault := .illegalCommand }, resp := { out := [], blkEnd := false } }

/-- While CMD.fault is non-zero every instruction but INIT has no effect and an empty response (60_exceptions.md R295,
10_state.md R47, which speak of commands). That the five CP15 rows, which are codepoints and no commands, pass this check
too is the model's reading (DEDUCED, assumption log 3). -/
def Obligations.BlockedPortIgnoresAllButInit : Prop :=
  ∀ (i : Instr) (s : State), s.cmd.fault ≠ .none → (∀ m, i ≠ .init m) → exec i s = .next (silent s)

/-- 60_exceptions.md R294: a faulted unit ignores its commands; in a façade command a guarded first unit passes on no items,
and the END of the second unit still runs. R294 speaks of commands: that a faulted Decoder ignores the five CP15 rows
(cpEoi, cpBump, cpClear, cpLiteral, cpDynamic) too is the model's reading (DEDUCED, assumption log 3). -/
def Obligations.FaultedUnitIgnoresItsCommands : Prop :=
  ∀ (s : State) (b : Byte) (cp : Code), s.unblocked →
    (s.enc.ctl.fault ≠ .none →
      exec (.encByte b) s = .next (silent s) ∧ exec .encEnd s = .next (silent s) ∧
      exec (.cmpByte b) s = .next (silent s) ∧ exec .cmpEnd s = exec .packEnd s) ∧
    (s.pk.ctl.fault ≠ .none → exec (.packCode cp) s = .next (silent s) ∧ exec .packEnd s = .next (silent s)) ∧
    (s.up.ctl.fault ≠ .none →
      exec (.unpkByte b) s = .next (silent s) ∧ exec .unpkEnd s = .next (silent s) ∧
      exec (.dcmpByte b) s = .next (silent s) ∧ exec .dcmpEnd s = exec .decEnd s) ∧
    (s.de.ctl.fault ≠ .none →
      exec (.decCode cp) s = .next (silent s) ∧ exec (.decResolve cp) s = .next (silent s) ∧
      exec .decEnd s = .next (silent s) ∧ exec .cpEoi s = .next (silent s) ∧ exec .cpBump s = .next (silent s) ∧
      exec .cpClear s = .next (silent s) ∧ exec (.cpLiteral b) s = .next (silent s) ∧
      exec (.cpDynamic cp) s = .next (silent s))

/-- After a unit's END command its commands record STREAM_CLOSED and do nothing else (70_reset_and_hazards.md R333,
10_state.md R28, R33, R40, R45; 60_exceptions.md R296, which speak of commands). That a closed Decoder treats the five CP15
rows so too is the model's reading (DEDUCED, assumption log 3). -/
def Obligations.ClosedUnitRecordsStreamClosed : Prop :=
  ∀ (s : State) (i : Instr), s.unblocked →
    (s.enc.ctl.fault = .none → s.enc.ctl.done = true → i ∈ [.encEnd] ∨ (∃ b, i = .encByte b) →
      exec i s = .next (silent { s with enc := { s.enc with ctl := { done := true, fault := .streamClosed } } })) ∧
    (s.pk.ctl.fault = .none → s.pk.ctl.done = true → i ∈ [.packEnd] ∨ (∃ cp, i = .packCode cp) →
      exec i s = .next (silent { s with pk := { s.pk with ctl := { done := true, fault := .streamClosed } } })) ∧
    (s.up.ctl.fault = .none → s.up.ctl.done = true → i ∈ [.unpkEnd] ∨ (∃ b, i = .unpkByte b) →
      exec i s = .next (silent { s with up := { s.up with ctl := { done := true, fault := .streamClosed } } })) ∧
    (s.de.ctl.fault = .none → s.de.ctl.done = true →
      i ∈ [.decEnd, .cpEoi, .cpBump, .cpClear] ∨ (∃ cp, i = .decCode cp ∨ i = .decResolve cp ∨ i = .cpDynamic cp) ∨
        (∃ b, i = .cpLiteral b) →
      exec i s = .next (silent { s with de := { s.de with ctl := { done := true, fault := .streamClosed } } }))

/-- Faults are sticky (60_exceptions.md R299; 10_state.md R29, R34, R41, R46, R47): a recorded fault is changed only by INIT,
and the Packer's also by INIT_PACK. -/
def Obligations.FaultsAreSticky : Prop :=
  ∀ (i : Instr) (s t : State), exec i s = .next t → (∀ m, i ≠ .init m) →
    (s.enc.ctl.fault ≠ .none → t.enc.ctl.fault = s.enc.ctl.fault) ∧
    (s.de.ctl.fault ≠ .none → t.de.ctl.fault = s.de.ctl.fault) ∧
    (s.up.ctl.fault ≠ .none → t.up.ctl.fault = s.up.ctl.fault) ∧
    (s.cmd.fault ≠ .none → t.cmd.fault = s.cmd.fault) ∧
    (s.pk.ctl.fault ≠ .none → (∀ n, i ≠ .initPack n) → t.pk.ctl.fault = s.pk.ctl.fault)

/-- The frame of every instruction, unit by unit (10_state.md R20, R25, R37): "Each unit's fields are written only by that
unit's commands and by INIT (and INIT_PACK for PK)"; ENC.max is written by INIT only, PK.init by INIT and INIT_PACK only;
CMD.fault by INIT and the reserved opcode only; no instruction touches the pending words. -/
def Obligations.UnitsWriteOnlyTheirOwnFields : Prop :=
  ∀ (i : Instr) (s t : State), exec i s = .next t →
    (touchesEnc i = false → t.enc = s.enc) ∧ (touchesPk i = false → t.pk = s.pk) ∧
    (touchesUp i = false → t.up = s.up) ∧ (touchesDe i = false → t.de = s.de) ∧
    ((∀ m, i ≠ .init m) → t.enc.max = s.enc.max) ∧
    ((∀ m, i ≠ .init m) → (∀ n, i ≠ .initPack n) → t.pk.init = s.pk.init) ∧
    ((∀ m, i ≠ .init m) → (∀ d, i ≠ .reserved d) → t.cmd = s.cmd) ∧ t.port = s.port

/-- `blk_end` is 1 only when the Decoder processed an END_OF_INFO in this command (10_state.md R49, 42_decoder.md R183):
DEC_CODE 256, the codepoint CP_EOI, or a DCMP_BYTE whose byte completed END_OF_INFO; and then the Decoder is as after a
reset. -/
def Obligations.BlockEndMeansEndOfInfo : Prop :=
  ∀ (i : Instr) (s t : State), exec i s = .next t → t.resp.blkEnd = true →
    (i = .decCode Config.eoi ∨ i = .cpEoi ∨ ∃ b, i = .dcmpByte b ∧ Config.eoi ∈ (unpkByte b s.up).2) ∧
    t.de.dict = decDict0 ∧ t.de.size = 259#16 ∧ t.de.pfx = none

/-! ### The Encoder -/

/-- 41_encoder.md R143: the candidate is a key, so the prefix becomes it and nothing is emitted (rules 5 and 6 do not apply
below the cap and the threshold); and with an empty prefix the candidate is always a key. -/
def Obligations.EncByteExtendsThePrefix : Prop :=
  (∀ (s : State) (b : Byte), s.unblocked → s.enc.ctl.ready → dictHas s.enc.dict (s.enc.pfx ++ [b]) = true →
    s.enc.size.toNat < s.enc.max.toNat → s.enc.size.toNat ≤ s.enc.thresh.toNat →
    exec (.encByte b) s = .next (silent { s with enc := { s.enc with pfx := s.enc.pfx ++ [b] } })) ∧
  (∀ (e : Enc) (b : Byte), EncOk e → e.pfx = [] → dictHas e.dict (e.pfx ++ [b]) = true)

/-- 41_encoder.md R144: the candidate is not a key and the prefix is not empty, so the prefix's code is emitted, the
candidate is bound to ENC.size, the size grows by one and the prefix becomes the byte (below the cap and the threshold). -/
def Obligations.EncByteEmitsAndDefines : Prop :=
  ∀ (s : State) (b : Byte) (c : Code), s.unblocked → s.enc.ctl.ready →
    dictHas s.enc.dict (s.enc.pfx ++ [b]) = false → s.enc.pfx ≠ [] → dictRead s.enc.dict s.enc.pfx = some c →
    s.enc.size.toNat < 32768 → s.enc.size.toNat + 1 < s.enc.max.toNat → s.enc.size.toNat + 1 ≤ s.enc.thresh.toNat →
    exec (.encByte b) s = .next { s with
      enc := { s.enc with
        dict := dictWrite s.enc.dict (s.enc.pfx ++ [b]) (BitVec.ofNat 15 s.enc.size.toNat)
        size := BitVec.ofNat 16 (s.enc.size.toNat + 1)
        pfx := [b] }
      resp := { out := [.code c], blkEnd := false } }

/-- 41_encoder.md R146: when the size reaches ENC.max, the pending code, which is the literal of the byte, and END_OF_INFO
are emitted, and the Encoder's dictionary, size, prefix, threshold and width are reset; no BUMP follows. The first clause
is the command in which step 3 inserted, the second the one in which the size was at the cap already (ENC.max = 259). -/
def Obligations.EncByteFlushesAtTheCap : Prop :=
  ∀ (s : State) (b : Byte), s.unblocked → s.enc.ctl.ready → EncOk s.enc →
    let reset : Enc := { s.enc with dict := encDict0, size := 259#16, pfx := [], thresh := 511#16, width := 9#4 }
    (∀ c, dictHas s.enc.dict (s.enc.pfx ++ [b]) = false → dictRead s.enc.dict s.enc.pfx = some c →
      s.enc.max.toNat ≤ s.enc.size.toNat + 1 →
      exec (.encByte b) s = .next { s with
        enc := reset
        resp := { out := [.code c, .code (codeOfByte b), .code 256#15], blkEnd := false } }) ∧
    (dictHas s.enc.dict (s.enc.pfx ++ [b]) = true → s.enc.max.toNat ≤ s.enc.size.toNat →
      exec (.encByte b) s = .next { s with
        enc := reset
        resp := { out := [.code (codeOfByte b), .code 256#15], blkEnd := false } })

/-- 41_encoder.md R147: below the cap, when the size passes the threshold, BUMP follows the code, the threshold is doubled
with its low bit set and the width grows by one; the size is then 2^k for a k in 9..14, so a seventh BUMP never occurs. -/
def Obligations.EncByteBumpsPastTheThreshold : Prop :=
  ∀ (s : State) (b : Byte) (c : Code), s.unblocked → s.enc.ctl.ready → EncOk s.enc →
    dictHas s.enc.dict (s.enc.pfx ++ [b]) = false → dictRead s.enc.dict s.enc.pfx = some c →
    s.enc.size.toNat + 1 < s.enc.max.toNat → s.enc.thresh.toNat < s.enc.size.toNat + 1 →
    exec (.encByte b) s = .next { s with
      enc := { s.enc with
        dict := dictWrite s.enc.dict (s.enc.pfx ++ [b]) (BitVec.ofNat 15 s.enc.size.toNat)
        size := BitVec.ofNat 16 (s.enc.size.toNat + 1)
        pfx := [b]
        thresh := BitVec.ofNat 16 (2 * s.enc.thresh.toNat + 1)
        width := BitVec.ofNat 4 (s.enc.width.toNat + 1) }
      resp := { out := [.code c, .code 257#15], blkEnd := false } } ∧
    s.enc.size.toNat + 1 = 2 ^ s.enc.width.toNat ∧ s.enc.width.toNat ≤ 14

/-- Every ENC_BYTE of a ready Encoder completes, writes the Encoder only, and emits codepoints in one of the five shapes of
41_encoder.md R142 and R152: c a data code, l a literal, never CLEAR, never BUMP and END_OF_INFO together. -/
def Obligations.EncByteOutputShapes : Prop :=
  ∀ (s : State) (b : Byte), s.unblocked → s.enc.ctl.ready → EncOk s.enc →
    ∃ (e : Enc) (out : List Code),
      exec (.encByte b) s = .next { s with enc := e, resp := { out := out.map .code, blkEnd := false } } ∧
      (out = [] ∨ (∃ c, isDataCode c ∧ out = [c]) ∨ (∃ c, isDataCode c ∧ out = [c, 257#15]) ∨
        (∃ c l : Code, isDataCode c ∧ l.toNat < 256 ∧ out = [c, l, 256#15]) ∨
        (∃ l : Code, l.toNat < 256 ∧ s.enc.max = 259#16 ∧ out = [l, 256#15]))

/-- 41_encoder.md R148: ENC_END emits the pending code if there is one, then END_OF_INFO, resets the dictionary and closes
the unit; a faulted Encoder ignores it, and a closed one records STREAM_CLOSED. -/
def Obligations.EncEndFlushesAndCloses : Prop :=
  encode .encEnd = .cmd 0x10000#20 ∧
  (∀ s : State, s.unblocked → s.enc.ctl.fault ≠ .none → exec .encEnd s = .next (silent s)) ∧
  (∀ s : State, s.unblocked → s.enc.ctl.fault = .none → s.enc.ctl.done = true →
    exec .encEnd s = .next (silent { s with enc := { s.enc with ctl := { done := true, fault := .streamClosed } } })) ∧
  ∀ s : State, s.unblocked → s.enc.ctl.ready →
    let closed : Enc := { s.enc with
      dict := encDict0, size := 259#16, pfx := [], thresh := 511#16, width := 9#4, ctl := { done := true, fault := .none } }
    (s.enc.pfx = [] →
      exec .encEnd s = .next { s with enc := closed, resp := { out := [.code 256#15], blkEnd := false } }) ∧
    (∀ c, s.enc.pfx ≠ [] → dictRead s.enc.dict s.enc.pfx = some c →
      exec .encEnd s = .next { s with enc := closed, resp := { out := [.code c, .code 256#15], blkEnd := false } })

/-- 41_encoder.md R151, the emission bound: every codepoint the Encoder emits fits the width it counts at that moment. -/
def Obligations.EmittedCodesFitTheWidth : Prop :=
  ∀ (s t : State) (i : Instr) (c : Code), EncOk s.enc → ((∃ b, i = .encByte b) ∨ i = .encEnd) → exec i s = .next t →
    s.unblocked → Item.code c ∈ t.resp.out → c.toNat < 2 ^ s.enc.width.toNat

/-- 41_encoder.md R150, the growth law: an ENC_BYTE that does not flush keeps the size when it emits nothing and raises it by
one when it emits; one that flushes leaves 259. -/
def Obligations.EncoderGrowthLaw : Prop :=
  ∀ (s t : State) (b : Byte), EncOk s.enc → s.unblocked → s.enc.ctl.ready → exec (.encByte b) s = .next t →
    (Item.code 256#15 ∉ t.resp.out → t.resp.out = [] → t.enc.size = s.enc.size) ∧
    (Item.code 256#15 ∉ t.resp.out → t.resp.out ≠ [] → t.enc.size.toNat = s.enc.size.toNat + 1) ∧
    (Item.code 256#15 ∈ t.resp.out → t.enc.size.toNat = 259)

/-! ### The Decoder -/

/-- 42_decoder.md R182: BUMP is consumed with no effect, and the prefix is kept. -/
def Obligations.BumpLeavesTheDecoder : Prop :=
  ∀ (s : State) (i : Instr), s.unblocked → s.de.ctl.ready → i ∈ [.cpBump, .decCode 257#15, .decResolve 257#15] →
    exec i s = .next (silent s)

/-- 42_decoder.md R183: END_OF_INFO resets the Decoder in place, emits nothing and sets `blk_end`. -/
def Obligations.EndOfInfoResetsTheDecoder : Prop :=
  ∀ (s : State) (i : Instr), s.unblocked → s.de.ctl.ready → i ∈ [.cpEoi, .decCode 256#15] →
    exec i s = .next { s with
      de := { s.de with dict := decDict0, size := 259#16, pfx := none }
      resp := { out := [], blkEnd := true } }

/-- 42_decoder.md R184: CLEAR resets the Decoder, emits nothing and sets no `blk_end`. -/
def Obligations.ClearResetsTheDecoder : Prop :=
  ∀ (s : State) (i : Instr), s.unblocked → s.de.ctl.ready → i ∈ [.cpClear, .decCode 258#15, .decResolve 258#15] →
    exec i s = .next { s with
      de := { s.de with dict := decDict0, size := 259#16, pfx := none }
      resp := { out := [], blkEnd := false } }

/-- 42_decoder.md R185: a known data codepoint emits its entry, which becomes the prefix; if there was a prefix, the entry
prefix + output[0] is inserted at DE.size. -/
def Obligations.KnownCodeEmitsItsEntry : Prop :=
  ∀ (s : State) (i : Instr) (cp : Code) (x : Byte) (xs : ByteString), s.unblocked → s.de.ctl.ready → isDataCode cp →
    executesCode i cp → dictRead s.de.dict cp = some (x :: xs) →
    (s.de.pfx = none →
      exec i s = .next { s with
        de := { s.de with pfx := some (x :: xs) }
        resp := { out := (x :: xs).map .byte, blkEnd := false } }) ∧
    (∀ p, s.de.pfx = some p → s.de.size.toNat < 32768 →
      exec i s = .next { s with
        de := { s.de with
          dict := dictWrite s.de.dict (BitVec.ofNat 15 s.de.size.toNat) (p ++ [x])
          size := BitVec.ofNat 16 (s.de.size.toNat + 1)
          pfx := some (x :: xs) }
        resp := { out := (x :: xs).map .byte, blkEnd := false } })

/-- 42_decoder.md R186: the special case, `cp = DE.size` with a prefix p: the output p + p[0] is emitted, inserted at code
cp and becomes the prefix. -/
def Obligations.SpecialCaseDefinesTheCode : Prop :=
  ∀ (s : State) (i : Instr) (cp : Code) (x : Byte) (xs : ByteString), s.unblocked → s.de.ctl.ready → 259 ≤ cp.toNat →
    executesCode i cp → dictRead s.de.dict cp = none → cp.toNat = s.de.size.toNat → s.de.pfx = some (x :: xs) →
    exec i s = .next { s with
      de := { s.de with
        dict := dictWrite s.de.dict cp (x :: xs ++ [x])
        size := BitVec.ofNat 16 (s.de.size.toNat + 1)
        pfx := some (x :: xs ++ [x]) }
      resp := { out := (x :: xs ++ [x]).map .byte, blkEnd := false } }

/-- 42_decoder.md R188: a dynamic codepoint above DE.size, or equal to it with no prefix, records UNKNOWN_CODE; nothing else
is written and nothing is emitted. In the states the invariant allows these are exactly the codes that are neither known
nor the special case. -/
def Obligations.UnknownCodeFaults : Prop :=
  ∀ (s : State) (i : Instr) (cp : Code), s.unblocked → s.de.ctl.ready → DeOk s.de → isDataCode cp → executesCode i cp →
    ((259 ≤ cp.toNat ∧ (s.de.size.toNat < cp.toNat ∨ (cp.toNat = s.de.size.toNat ∧ s.de.pfx = none))) ↔
      (dictHas s.de.dict cp = false ∧ ¬ (cp.toNat = s.de.size.toNat ∧ s.de.pfx ≠ none))) ∧
    (259 ≤ cp.toNat → (s.de.size.toNat < cp.toNat ∨ (cp.toNat = s.de.size.toNat ∧ s.de.pfx = none)) →
      exec i s = .next (silent { s with de := { s.de with ctl := { done := false, fault := .unknownCode } } }))

/-- 42_decoder.md R187: an insertion that would make DE.size exceed 32768 records DICT_CEILING before anything is written or
emitted. -/
def Obligations.DecoderCeilingFaults : Prop :=
  ∀ (s : State) (i : Instr) (cp : Code) (out p : ByteString), s.unblocked → s.de.ctl.ready → isDataCode cp →
    executesCode i cp → dictRead s.de.dict cp = some out → s.de.pfx = some p → 32768 < s.de.size.toNat + 1 →
    exec i s = .next (silent { s with de := { s.de with ctl := { done := false, fault := .dictCeiling } } })

/-- 42_decoder.md R189: DEC_RESOLVE records PROTOCOL_MISUSE on END_OF_INFO, and acts as DEC_CODE does on every other
codepoint, and on every codepoint where the port is blocked or the Decoder is faulted or closed. -/
def Obligations.ResolveIsDecodeButForEndOfInfo : Prop :=
  ∀ (s : State) (cp : Code),
    encode (.decResolve cp) = .cmd (commandWord 0x8#4 (dataOfCode cp)) ∧
    (cp ≠ 256#15 → exec (.decResolve cp) s = exec (.decCode cp) s) ∧
    (¬ (s.unblocked ∧ s.de.ctl.ready) → exec (.decResolve cp) s = exec (.decCode cp) s) ∧
    (s.unblocked → s.de.ctl.ready →
      exec (.decResolve 256#15) s =
        .next (silent { s with de := { s.de with ctl := { done := false, fault := .protocolMisuse } } }))

/-- 42_decoder.md R190: DEC_END sets DE.done and does nothing else; a faulted Decoder ignores it, and a closed one records
STREAM_CLOSED. -/
def Obligations.DecEndClosesTheDecoder : Prop :=
  encode .decEnd = .cmd 0x70000#20 ∧
  ∀ s : State, s.unblocked →
    (s.de.ctl.ready →
      exec .decEnd s = .next (silent { s with de := { s.de with ctl := { done := true, fault := .none } } })) ∧
    (s.de.ctl.fault ≠ .none → exec .decEnd s = .next (silent s)) ∧
    (s.de.ctl.fault = .none → s.de.ctl.done = true →
      exec .decEnd s = .next (silent { s with de := { s.de with ctl := { done := true, fault := .streamClosed } } }))

/-- "Each codepoint acts as one instruction of the Decoder. The codepoint's class selects the arm that runs" (42_decoder.md):
DEC_CODE is the codepoint's own instruction, in every state (assumption log 3). -/
def Obligations.DecCodeRunsTheCodepointsInstruction : Prop :=
  ∀ (s : State) (cp : Code), exec (.decCode cp) s = exec (decodeCode cp) s

/-- 30_encoding.md R81 and R85: from every state the invariant allows, with room for an entry, a literal emits its byte, and
a dynamic code below DE.size, or equal to it with a prefix, emits a non-empty string. -/
def Obligations.ValidCodepointsComplete : Prop :=
  ∀ s : State, s.unblocked → s.de.ctl.ready → DeOk s.de → s.de.size.toNat < 32768 →
    (∀ b : Byte, ∃ d : De, d.pfx = some [b] ∧
      exec (.cpLiteral b) s = .next { s with de := d, resp := { out := [.byte b], blkEnd := false } }) ∧
    (∀ cp : Code, 259 ≤ cp.toNat →
      (cp.toNat < s.de.size.toNat ∨ (cp.toNat = s.de.size.toNat ∧ s.de.pfx ≠ none)) →
      ∃ (d : De) (out : ByteString), out ≠ [] ∧ d.pfx = some out ∧
        exec (.cpDynamic cp) s = .next { s with de := d, resp := { out := out.map .byte, blkEnd := false } })

/-! ### The Packer -/

/-- 43_packer_unpacker.md R221 and R223 to R228 for a codepoint that is packed: the bits emitted and the bits kept are, in
order, the bits pending and the field at the old width (padded to a byte after END_OF_INFO); fewer than 8 are kept; the
count, the width and the threshold are as the codepoint's class says; nothing else changes. -/
def Obligations.PackCodeWritesTheField : Prop :=
  ∀ (s : State) (cp : Code), s.unblocked → s.pk.ctl.ready → PkOk s.pk → cp.toNat < 2 ^ s.pk.width.toNat →
    ¬ (cp = 257#15 ∧ s.pk.width = 15#4) →
    ∃ (p : Pk) (out : ByteString),
      exec (.packCode cp) s = .next { s with pk := p, resp := { out := out.map .byte, blkEnd := false } } ∧
      bytesToBits out ++ p.buf =
        (if cp = 256#15 then padToByte (s.pk.buf ++ fieldBits s.pk.width.toNat cp.toNat)
          else s.pk.buf ++ fieldBits s.pk.width.toNat cp.toNat) ∧
      p.buf.length < 8 ∧ out.length ≤ 3 ∧ (cp = 256#15 → p.buf = []) ∧
      p.width.toNat = nextWidth s.pk.width.toNat cp ∧
      p.count = (if cp = 256#15 ∨ cp = 258#15 then s.pk.init else s.pk.count + 1#16) ∧
      p.thresh.toNat = (if cp = 256#15 ∨ cp = 258#15 then 511
        else if cp = 257#15 then 2 * s.pk.thresh.toNat + 1 else s.pk.thresh.toNat) ∧
      p.init = s.pk.init ∧ p.ctl = s.pk.ctl

/-- 43_packer_unpacker.md R222: a codepoint that does not fit the width is not written; the Packer records CODE_TOO_WIDE. -/
def Obligations.TooWideCodeIsNotPacked : Prop :=
  ∀ (s : State) (cp : Code), s.unblocked → s.pk.ctl.ready → 2 ^ s.pk.width.toNat ≤ cp.toNat →
    exec (.packCode cp) s = .next (silent { s with pk := { s.pk with ctl := { done := false, fault := .codeTooWide } } })

/-- 43_packer_unpacker.md R227: BUMP is written at the old width, then the width grows by one and the threshold is doubled
with its low bit set; at width 15 it records WIDTH_OVERFLOW and writes nothing. -/
def Obligations.PackedBumpWidens : Prop :=
  ∀ s : State, s.unblocked → s.pk.ctl.ready → PkOk s.pk →
    (s.pk.width.toNat < 15 → ∃ (p : Pk) (out : ByteString),
      exec (.packCode 257#15) s = .next { s with pk := p, resp := { out := out.map .byte, blkEnd := false } } ∧
      bytesToBits out ++ p.buf = s.pk.buf ++ fieldBits s.pk.width.toNat 257 ∧
      p.width.toNat = s.pk.width.toNat + 1 ∧ p.thresh.toNat = 2 * s.pk.thresh.toNat + 1 ∧ p.ctl = s.pk.ctl) ∧
    (s.pk.width = 15#4 →
      exec (.packCode 257#15) s =
        .next (silent { s with pk := { s.pk with ctl := { done := false, fault := .widthOverflow } } }))

/-- 43_packer_unpacker.md R226: after END_OF_INFO or CLEAR the width is 9, the count PK.init and the threshold 511. -/
def Obligations.ControlCodesResetThePackedWidth : Prop :=
  ∀ (s : State) (cp : Code), s.unblocked → s.pk.ctl.ready → PkOk s.pk → (cp = 256#15 ∨ cp = 258#15) →
    ∃ (p : Pk) (out : ByteString),
      exec (.packCode cp) s = .next { s with pk := p, resp := { out := out.map .byte, blkEnd := false } } ∧
      p.width = 9#4 ∧ p.count = s.pk.init ∧ p.thresh = 511#16 ∧ p.init = s.pk.init ∧ p.ctl = s.pk.ctl

/-- 43_packer_unpacker.md R229: PACK_END emits the pending bits, zero-padded to one byte, if there are any, and closes the
unit; a faulted Packer ignores it, and a closed one records STREAM_CLOSED. -/
def Obligations.PackEndEmitsThePartialByte : Prop :=
  encode .packEnd = .cmd 0x30000#20 ∧
  (∀ s : State, s.unblocked → s.pk.ctl.fault ≠ .none → exec .packEnd s = .next (silent s)) ∧
  (∀ s : State, s.unblocked → s.pk.ctl.fault = .none → s.pk.ctl.done = true →
    exec .packEnd s = .next (silent { s with pk := { s.pk with ctl := { done := true, fault := .streamClosed } } })) ∧
  ∀ s : State, s.unblocked → s.pk.ctl.ready → s.pk.buf.length ≤ 7 →
    (s.pk.buf = [] →
      exec .packEnd s = .next (silent { s with pk := { s.pk with ctl := { done := true, fault := .none } } })) ∧
    (s.pk.buf ≠ [] →
      exec .packEnd s = .next { s with
        pk := { s.pk with buf := [], ctl := { done := true, fault := .none } }
        resp := { out := [.byte (BitVec.ofNat 8 (bitsToInt (s.pk.buf ++ zeros (8 - s.pk.buf.length))))], blkEnd := false } })

/-- No output depends on PK.count or PK.init (10_state.md R36, 43_packer_unpacker.md R224, 44_facade.md R277): from two states
that differ only there, an instruction gives the same response and two states that again differ only there, or stops both. -/
def Obligations.PackerCountNeverShows : Prop :=
  ∀ (i : Instr) (s t : State), sameButCount s t →
    (∃ s' t', exec i s = .next s' ∧ exec i t = .next t' ∧ s'.resp = t'.resp ∧ sameButCount s' t') ∨
    (∃ f, exec i s = .fault f ∧ exec i t = .fault f)

/-- 30_encoding.md R87 and R88: packing any codepoint sequence, and PACK_END, completes. If each codepoint fits the width
schedule, it emits the packed stream: the fields at the scheduled widths, MSB first, zero bits to the byte after each
END_OF_INFO and at the end. If not, the Packer records CODE_TOO_WIDE or WIDTH_OVERFLOW (43_packer_unpacker.md R222, R227). -/
def Obligations.PackerWritesThePackedStream : Prop :=
  ∀ codes : List Code,
    ∃ (t : State) (rs : List Response),
      execAll (codes.map .packCode ++ [.packEnd]) State.reset = some (t, rs) ∧
      (fitsStream 9 codes = true → packedStream codes = some (responseBytes rs) ∧ t.pk.ctl.fault = .none) ∧
      (fitsStream 9 codes = false → t.pk.ctl.fault ∈ [FaultCode.codeTooWide, .widthOverflow])

/-! ### The Unpacker -/

/-- 43_packer_unpacker.md R232 to R234: a byte that completes no field adds its 8 bits, MSB first, to UP.acc and emits
nothing. -/
def Obligations.UnpkByteAccumulates : Prop :=
  ∀ (s : State) (b : Byte), s.unblocked → s.up.ctl.ready → UpOk s.up → s.up.acc.length + 8 < s.up.width.toNat →
    exec (.unpkByte b) s = .next (silent { s with up := { s.up with acc := s.up.acc ++ bytesToBits [b] } })

/-- 43_packer_unpacker.md R232 to R237: a byte that completes a field emits its codepoint; the bits left over start the next
field, or are dropped after END_OF_INFO; the width follows the schedule. A BUMP read at width 15 records WIDTH_OVERFLOW and
emits nothing (60_exceptions.md R293). What the Unpacker holds after that raise is the model's reading: UP.acc keeps the 15
bits of the field (DEDUCED, assumption log 13; R237 calls the bits lost), and UP.off and UP.skip are 0 as before the command
(DEDUCED, assumption log 5). -/
def Obligations.UnpkByteCompletesAField : Prop :=
  ∀ (s : State) (b : Byte), s.unblocked → s.up.ctl.ready → UpOk s.up → s.up.width.toNat ≤ s.up.acc.length + 8 →
    let bits := s.up.acc ++ bytesToBits [b]
    let cp : Code := BitVec.ofNat 15 (bitsToInt (bits.take s.up.width.toNat))
    (¬ (cp = 257#15 ∧ s.up.width = 15#4) →
      exec (.unpkByte b) s = .next { s with
        up := { s.up with
          acc := if cp = 256#15 then [] else bits.drop s.up.width.toNat
          width := BitVec.ofNat 4 (nextWidth s.up.width.toNat cp) }
        resp := { out := [.code cp], blkEnd := false } }) ∧
    (cp = 257#15 → s.up.width = 15#4 →
      exec (.unpkByte b) s = .next (silent { s with
        up := { s.up with
          acc := bits.take s.up.width.toNat
          ctl := { done := false, fault := .widthOverflow } } }))

/-- 43_packer_unpacker.md R238: UNPK_END drops the bits left over and closes the unit; a faulted Unpacker ignores it, and a
closed one records STREAM_CLOSED. -/
def Obligations.UnpkEndDropsTheBits : Prop :=
  encode .unpkEnd = .cmd 0x50000#20 ∧
  ∀ s : State, s.unblocked →
    (s.up.ctl.ready →
      exec .unpkEnd s = .next (silent { s with up := { s.up with acc := [], ctl := { done := true, fault := .none } } })) ∧
    (s.up.ctl.fault ≠ .none → exec .unpkEnd s = .next (silent s)) ∧
    (s.up.ctl.fault = .none → s.up.ctl.done = true →
      exec .unpkEnd s = .next (silent { s with up := { s.up with ctl := { done := true, fault := .streamClosed } } }))

/-- 43_packer_unpacker.md R240(a): a codepoint sequence that a Packer accepts from PackInit without fault comes back from the
Unpacker, fed the Packer's bytes from UnpackInit, exactly and without fault. -/
def Obligations.UnpackerInvertsPacker : Prop :=
  ∀ (codes : List Code) (s t : State) (rs : List Response),
    execAll (.init 32768#16 :: codes.map .packCode ++ [.packEnd]) s = some (t, rs) → t.pk.ctl.fault = .none →
    ∃ (u : State) (us : List Response),
      execAll ((responseBytes rs).map .unpkByte ++ [.unpkEnd]) t = some (u, us) ∧
      responseCodes us = codes ∧ u.up.ctl.fault = .none

/-! ### The façade -/

/-- 44_facade.md R270: CMP_BYTE is ENC_BYTE and then PACK_CODE of each codepoint it emitted, in one command that answers the
Packer's bytes only. (Stopping at a Packer fault makes no difference: a faulted Packer ignores the rest.) -/
def Obligations.CmpByteIsEncodeThenPack : Prop :=
  ∀ (s : State) (b : Byte), s.unblocked → EncOk s.enc → PkOk s.pk →
    ∃ (s1 s2 : State) (rs : List Response),
      exec (.encByte b) s = .next s1 ∧
      execAll ((itemCodes s1.resp.out).map .packCode) s1 = some (s2, rs) ∧
      exec (.cmpByte b) s = .next { s2 with resp := { out := responseItems rs, blkEnd := false } }

/-- 44_facade.md R271: CMP_END is ENC_END, then PACK_CODE of each codepoint it emitted, then PACK_END. -/
def Obligations.CmpEndIsEncodeEndThenPackEnd : Prop :=
  ∀ s : State, s.unblocked → EncOk s.enc → PkOk s.pk →
    ∃ (s1 s2 : State) (rs : List Response),
      exec .encEnd s = .next s1 ∧
      execAll ((itemCodes s1.resp.out).map .packCode ++ [.packEnd]) s1 = some (s2, rs) ∧
      exec .cmpEnd s = .next { s2 with resp := { out := responseItems rs, blkEnd := false } }

/-- 44_facade.md R272: DCMP_BYTE is UNPK_BYTE and then DEC_CODE of each codepoint it emitted; `blk_end` is the OR of the
DEC_CODE responses'. -/
def Obligations.DcmpByteIsUnpackThenDecode : Prop :=
  ∀ (s : State) (b : Byte), s.unblocked → UpOk s.up → DeOk s.de →
    ∃ (s1 s2 : State) (rs : List Response),
      exec (.unpkByte b) s = .next s1 ∧
      execAll ((itemCodes s1.resp.out).map .decCode) s1 = some (s2, rs) ∧
      exec (.dcmpByte b) s = .next { s2 with resp := { out := responseItems rs, blkEnd := responseEnds rs } }

/-- 44_facade.md R273: DCMP_END is UNPK_END and then DEC_END, whatever UNPK_END did; it emits nothing. -/
def Obligations.DcmpEndIsUnpackEndThenDecodeEnd : Prop :=
  ∀ s : State, s.unblocked →
    ∃ s1 s2 : State, exec .unpkEnd s = .next s1 ∧ exec .decEnd s1 = .next s2 ∧ s2.resp.out = [] ∧
      exec .dcmpEnd s = .next s2

/-! ### Configuration, reset and status -/

/-- 44_facade.md R276 and 10_state.md R50: INIT m from any state, blocked or faulted or not: every field of the column "after
INIT(m)", and an empty response. -/
def Obligations.InitSetsEveryField : Prop :=
  ∀ (s : State) (m : Word16), encode (.init m) = .cmd (commandWord 0xD#4 m) ∧
    exec (.init m) s = .next {
      enc := {
        dict := encDict0, size := 259#16, pfx := [], max := m, thresh := 511#16, width := 9#4
        ctl := { done := false, fault := if 259 ≤ m.toNat ∧ m.toNat ≤ 32768 then .none else .configError } }
      de := { dict := decDict0, size := 259#16, pfx := none, ctl := { done := false, fault := .none } }
      pk := {
        width := 9#4, count := 259#16, init := 259#16, thresh := 511#16, buf := [], ctl := { done := false, fault := .none } }
      up := { width := 9#4, acc := [], off := 0#3, skip := false, ctl := { done := false, fault := .none } }
      cmd := { fault := .none }
      resp := { out := [], blkEnd := false }
      port := s.port }

/-- 70_reset_and_hazards.md R330: power-on is the state INIT 32768 leaves from any state (but for the words still pending,
which are the model's own field, assumption log 1). -/
def Obligations.PowerOnIsInitDefault : Prop :=
  ∀ s : State, exec (.init 32768#16) s = .next { State.reset with port := s.port }

/-- 44_facade.md R277, 43_packer_unpacker.md R220: INIT_PACK n constructs the Packer anew with count n, and touches nothing
else; a blocked port ignores it. -/
def Obligations.InitPackResetsThePacker : Prop :=
  ∀ (s : State) (n : Word16), encode (.initPack n) = .cmd (commandWord 0xE#4 n) ∧
    (s.unblocked → exec (.initPack n) s = .next (silent { s with
      pk := {
        width := 9#4, count := n, init := n, thresh := 511#16, buf := [], ctl := { done := false, fault := .none } } })) ∧
    (s.cmd.fault ≠ .none → exec (.initPack n) s = .next (silent s))

/-- 10_state.md R48, 60_exceptions.md R290: the layout of STATUS and the numbers of the fault codes. -/
def Obligations.StatusLayout : Prop :=
  (∀ s : State,
    s.status.extractLsb' 0 4 = faultBits s.enc.ctl.fault ∧ s.status.extractLsb' 4 4 = faultBits s.pk.ctl.fault ∧
    s.status.extractLsb' 8 4 = faultBits s.up.ctl.fault ∧ s.status.extractLsb' 12 4 = faultBits s.de.ctl.fault ∧
    s.status.extractLsb' 16 4 = faultBits s.cmd.fault ∧ s.status.getLsbD 20 = s.enc.ctl.done ∧
    s.status.getLsbD 21 = s.pk.ctl.done ∧ s.status.getLsbD 22 = s.up.ctl.done ∧ s.status.getLsbD 23 = s.de.ctl.done) ∧
  [FaultCode.none, .configError, .protocolMisuse, .dictCeiling, .codeTooWide, .unknownCode, .widthOverflow, .streamClosed,
    .illegalCommand].map faultBits = [0#4, 1#4, 2#4, 3#4, 4#4, 5#4, 6#4, 7#4, 8#4]

/-- 40_bit_utilities.md R124: the four identities of the bit utilities. -/
def Obligations.BitUtilityIdentities : Prop :=
  (∀ s : ByteString, bitsToBytes (bytesToBits s) = s) ∧
  (∀ x : BitString, bytesToBits (bitsToBytes x) = x ++ zeros ((8 - x.length % 8) % 8)) ∧
  (∀ v w : Nat, v < 2 ^ w → ∃ x, intToBits v w = some x ∧ bitsToInt x = v) ∧
  (∀ x : BitString, intToBits (bitsToInt x) x.length = some x)

/-! ### Invariants and headline results -/

/-- The state after power-on meets every invariant. -/
def Obligations.ResetMeetsTheInvariant : Prop := State.Ok State.reset

/-- Every step keeps the invariants of 10_state.md R51 and R52 and the bounds of 00_scope.md R8, from every state that has
them, whatever word is pending. The clauses of UpOk about UP.acc, UP.off and UP.skip after a WIDTH_OVERFLOW are the model's
reading (DEDUCED, assumption logs 13 and 5). -/
def Obligations.StepKeepsTheInvariant : Prop := ∀ s t : State, State.Ok s → step s = .next t → State.Ok t

/-- 70_reset_and_hazards.md R341: every command terminates with a next state; from a state with the invariants no step stops. -/
def Obligations.EveryStepCompletes : Prop := ∀ s : State, State.Ok s → ∃ t, step s = .next t

/-- 42_decoder.md R191(d), "the central LZW invariant": for every input and every legal maximum, the codepoints the Encoder
emits, fed to the Decoder by DEC_CODE, give the input back, and neither unit records a fault. -/
def Obligations.DecoderInvertsEncoder : Prop :=
  ∀ (m : Word16) (x : ByteString), legalMax m = true →
    ∃ (t u : State) (rs us : List Response),
      execAll (.init m :: x.map .encByte ++ [.encEnd]) State.reset = some (t, rs) ∧
      execAll ((responseCodes rs).map .decCode ++ [.decEnd]) t = some (u, us) ∧
      responseBytes us = x ∧ t.enc.ctl.fault = .none ∧ u.de.ctl.fault = .none

/-- 44_facade.md R278 and R279: decompress(compress(x, m)) = x for every byte string and every legal m, through command
words issued one at a time, with no fault recorded in either run. -/
def Obligations.DecompressInvertsCompress : Prop :=
  ∀ (m : Word16) (x : ByteString) (s : State), legalMax m = true → s.port = [] →
    ∃ (t u : State) (y : ByteString),
      compress m x s = some (t, y) ∧ faultFree t = true ∧ decompress y t = some (u, x) ∧ faultFree u = true
end

