-- ==== Sys2Proof/Laws/Bits.lean ====
section
/-! SUPPORT. The small laws of the bit utilities: lengths, how each meets append, and what the byte flush leaves. -/

namespace Sys2Proof.Machine

@[simp] theorem byteBits_length (b : Byte) : (byteBits b).length = 8 := rfl

@[simp] theorem bytesToBits_nil : bytesToBits [] = [] := rfl

@[simp] theorem bytesToBits_cons (b : Byte) (t : ByteString) : bytesToBits (b :: t) = byteBits b ++ bytesToBits t := rfl

theorem bytesToBits_append (s t : ByteString) : bytesToBits (s ++ t) = bytesToBits s ++ bytesToBits t := by
  induction s with
  | nil => rfl
  | cons b s ih => simp [ih]

@[simp] theorem bytesToBits_length (s : ByteString) : (bytesToBits s).length = 8 * s.length := by
  induction s with
  | nil => rfl
  | cons b s ih => simp [ih]; omega

@[simp] theorem bitsToInt_nil : bitsToInt [] = 0 := rfl

theorem bitsToInt_append_single (x : BitString) (y : Bool) : bitsToInt (x ++ [y]) = 2 * bitsToInt x + y.toNat := by
  simp [bitsToInt]

theorem bitsToInt_lt (x : BitString) : bitsToInt x < 2 ^ x.length := by
  induction x using List.reverseRecOn with
  | nil => simp
  | append_singleton x y ih =>
    rw [bitsToInt_append_single, List.length_append, List.length_singleton, Nat.pow_succ]
    have := y.toNat_le
    omega

@[simp] theorem fieldBits_length (w v : Nat) : (fieldBits w v).length = w := by
  induction w with
  | zero => rfl
  | succ w ih => simp [fieldBits, ih]

theorem intToBits_eq_some {v w : Nat} (h : v < 2 ^ w) : intToBits v w = some (fieldBits w v) := if_pos h

theorem intToBits_eq_none {v w : Nat} (h : 2 ^ w ≤ v) : intToBits v w = none := if_neg (Nat.not_lt.2 h)

@[simp] theorem zeros_length (n : Nat) : (zeros n).length = n := by simp [zeros]

theorem padToByte_length_mod (x : BitString) : (padToByte x).length % 8 = 0 := by
  simp [padToByte, padLength]; omega

theorem padToByte_length_lt (x : BitString) : (padToByte x).length < x.length + 8 := by
  simp [padToByte, padLength]; omega

theorem padToByte_of_whole {x : BitString} (h : x.length % 8 = 0) : padToByte x = x := by
  simp [padToByte, padLength, h, zeros]

/-- The bits of the byte made of a group of 8 bits are the group. -/
theorem byteBits_groupByte (x0 x1 x2 x3 x4 x5 x6 x7 : Bool) :
    byteBits (groupByte [x0, x1, x2, x3, x4, x5, x6, x7]) = [x0, x1, x2, x3, x4, x5, x6, x7] := by
  revert x0 x1 x2 x3 x4 x5 x6 x7; decide +kernel

theorem flushBytes_of_short {x : BitString} (h : x.length < 8) : flushBytes x = ([], x) := by
  match x, h with
  | [], _ => rfl
  | [_], _ => rfl
  | [_, _], _ => rfl
  | [_, _, _], _ => rfl
  | [_, _, _, _], _ => rfl
  | [_, _, _, _, _], _ => rfl
  | [_, _, _, _, _, _], _ => rfl
  | [_, _, _, _, _, _, _], _ => rfl
  | _ :: _ :: _ :: _ :: _ :: _ :: _ :: _ :: _, h => simp at h; omega

/-- The flush loses no bit: what it emits and what it leaves are the buffer. -/
theorem flushBytes_keeps_bits (x : BitString) : bytesToBits (flushBytes x).1 ++ (flushBytes x).2 = x := by
  induction x using flushBytes.induct with
  | case1 x0 x1 x2 x3 x4 x5 x6 x7 rest ih => simp [flushBytes, byteBits_groupByte, ih]
  | case2 x h =>
    unfold flushBytes
    split
    · exact absurd rfl (h _ _ _ _ _ _ _ _ _)
    · rfl

/-- The flush leaves fewer than 8 bits. -/
theorem flushBytes_leaves_short (x : BitString) : (flushBytes x).2.length < 8 := by
  induction x using flushBytes.induct with
  | case1 x0 x1 x2 x3 x4 x5 x6 x7 rest ih => simpa [flushBytes] using ih
  | case2 x h =>
    have hx : x.length < 8 := by
      by_contra hn
      rcases x with _ | ⟨x0, _ | ⟨x1, _ | ⟨x2, _ | ⟨x3, _ | ⟨x4, _ | ⟨x5, _ | ⟨x6, _ | ⟨x7, rest⟩⟩⟩⟩⟩⟩⟩⟩
      all_goals first
        | exact h _ _ _ _ _ _ _ _ _ rfl
        | exact hn (by simp)
    rwa [flushBytes_of_short hx]

/-- How many bytes the flush emits, and how many bits it leaves. -/
theorem flushBytes_lengths (x : BitString) :
    (flushBytes x).1.length = x.length / 8 ∧ (flushBytes x).2.length = x.length % 8 := by
  have h1 := congrArg List.length (flushBytes_keeps_bits x)
  have h2 := flushBytes_leaves_short x
  simp at h1
  omega

end Sys2Proof.Machine
end

