-- ==== Sys2Proof/Laws/Dict.lean ====
section
/-! SUPPORT. The laws of DictRead and DictWrite (00_scope.md R11): read after write, every other key untouched, the keys and
values after a write, and that a write keeps the canonical form; then what the two reset dictionaries hold. -/

namespace Sys2Proof.Machine

section Laws

variable {κ ν : Type} [DecidableEq κ]

theorem dictRead_dictWrite_same (d : Dict κ ν) (k : κ) (v : ν) : dictRead (dictWrite d k v) k = some v := by
  induction d with
  | nil => simp [dictWrite, dictRead]
  | cons e d ih => rw [dictWrite]; split <;> simp_all [dictRead]

theorem dictRead_dictWrite_other (d : Dict κ ν) {k k' : κ} (v : ν) (h : k' ≠ k) :
    dictRead (dictWrite d k v) k' = dictRead d k' := by
  induction d with
  | nil => simp [dictWrite, dictRead, Ne.symm h]
  | cons e d ih => rw [dictWrite]; split <;> simp_all [dictRead, Ne.symm h]

theorem dictHas_iff_mem_dictKeys (d : Dict κ ν) (k : κ) : dictHas d k = true ↔ k ∈ dictKeys d := by
  induction d with
  | nil => simp [dictHas, dictRead, dictKeys]
  | cons e d ih =>
    by_cases h : e.1 = k
    · simp [dictHas, dictRead, dictKeys, h]
    · simp only [dictHas, dictRead, if_neg h, dictKeys, List.map_cons, List.mem_cons] at *
      rw [ih]; simp [Ne.symm h]

theorem dictRead_eq_none_iff (d : Dict κ ν) (k : κ) : dictRead d k = none ↔ k ∉ dictKeys d := by
  rw [← dictHas_iff_mem_dictKeys, dictHas]; cases dictRead d k <;> simp

theorem mem_of_dictRead {d : Dict κ ν} {k : κ} {v : ν} (h : dictRead d k = some v) : (k, v) ∈ d := by
  induction d with
  | nil => simp [dictRead] at h
  | cons e d ih =>
    rw [dictRead] at h
    split at h
    · next hk =>
      cases h
      exact hk ▸ .head _
    · exact .tail _ (ih h)

theorem dictRead_of_mem {d : Dict κ ν} (wf : (dictKeys d).Nodup) {k : κ} {v : ν} (h : (k, v) ∈ d) :
    dictRead d k = some v := by
  induction d with
  | nil => simp at h
  | cons e d ih =>
    simp only [dictKeys, List.map_cons, List.nodup_cons] at wf
    rcases List.mem_cons.1 h with h | h
    · simp [dictRead, ← h]
    · have hne : e.1 ≠ k := fun he => wf.1 (he ▸ List.mem_map_of_mem (f := Prod.fst) h)
      simpa [dictRead, hne] using ih wf.2 h

/-- A write of a new key appends its entry. -/
theorem dictWrite_of_new {d : Dict κ ν} {k : κ} (v : ν) (h : k ∉ dictKeys d) : dictWrite d k v = d ++ [(k, v)] := by
  induction d with
  | nil => rfl
  | cons e d ih =>
    simp only [dictKeys, List.map_cons, List.mem_cons, not_or] at h
    simp [dictWrite, Ne.symm h.1, ih h.2]

theorem dictKeys_dictWrite_of_new {d : Dict κ ν} {k : κ} (v : ν) (h : k ∉ dictKeys d) :
    dictKeys (dictWrite d k v) = dictKeys d ++ [k] := by simp [dictWrite_of_new v h, dictKeys]

theorem dictVals_dictWrite_of_new {d : Dict κ ν} {k : κ} (v : ν) (h : k ∉ dictKeys d) :
    dictVals (dictWrite d k v) = dictVals d ++ [v] := by simp [dictWrite_of_new v h, dictVals]

/-- A write of a bound key keeps the keys. -/
theorem dictKeys_dictWrite_of_has {d : Dict κ ν} {k : κ} (v : ν) (h : k ∈ dictKeys d) :
    dictKeys (dictWrite d k v) = dictKeys d := by
  induction d with
  | nil => simp [dictKeys] at h
  | cons e d ih =>
    rw [dictWrite]
    split
    · simp_all [dictKeys]
    · rename_i hne
      simp only [dictKeys, List.map_cons, List.mem_cons, Ne.symm hne, false_or] at h ih ⊢
      rw [ih h]

/-- Every write keeps the canonical form. -/
theorem dictWf_dictWrite {d : Dict κ ν} (k : κ) (v : ν) (wf : dictWf d = true) : dictWf (dictWrite d k v) = true := by
  simp only [dictWf, decide_eq_true_eq] at *
  by_cases h : k ∈ dictKeys d
  · rwa [dictKeys_dictWrite_of_has v h]
  · rw [dictKeys_dictWrite_of_new v h, List.nodup_append]
    refine ⟨wf, List.nodup_singleton k, ?_⟩
    rintro a ha b hb rfl
    rw [List.mem_singleton] at hb
    exact h (hb ▸ ha)

end Laws

/-! ### The reset dictionaries -/

theorem dictKeys_encDict0 : dictKeys encDict0 = (List.range 256).map fun i => [BitVec.ofNat 8 i] := by
  simp [dictKeys, encDict0, Function.comp_def]

theorem dictVals_encDict0 : dictVals encDict0 = (List.range 256).map (BitVec.ofNat 15) := by
  simp [dictVals, encDict0, Function.comp_def]

theorem dictKeys_decDict0 : dictKeys decDict0 = (List.range 256).map (BitVec.ofNat 15) := by
  simp [dictKeys, decDict0, Function.comp_def]

theorem dictVals_decDict0 : dictVals decDict0 = (List.range 256).map fun i => [BitVec.ofNat 8 i] := by
  simp [dictVals, decDict0, Function.comp_def]

theorem codeOfByte_toNat (b : Byte) : (codeOfByte b).toNat = b.toNat := by
  have hb := b.isLt
  simp [codeOfByte]
  omega

theorem codeOfByte_eq_ofNat (b : Byte) : codeOfByte b = BitVec.ofNat 15 b.toNat := by
  apply BitVec.eq_of_toNat_eq
  rw [codeOfByte_toNat, BitVec.toNat_ofNat, Nat.mod_eq_of_lt (by have := b.isLt; omega)]

theorem nodup_encKeys : (dictKeys encDict0).Nodup := by
  rw [dictKeys_encDict0, List.nodup_map_iff_inj_on (List.nodup_range)]
  intro x hx y hy h
  have hx := List.mem_range.1 hx
  have hy := List.mem_range.1 hy
  have h := congrArg BitVec.toNat (List.head_eq_of_cons_eq h)
  simp only [BitVec.toNat_ofNat] at h
  omega

theorem nodup_decKeys : (dictKeys decDict0).Nodup := by
  rw [dictKeys_decDict0, List.nodup_map_iff_inj_on (List.nodup_range)]
  intro x hx y hy h
  have hx := List.mem_range.1 hx
  have hy := List.mem_range.1 hy
  have h := congrArg BitVec.toNat h
  simp only [BitVec.toNat_ofNat] at h
  omega

theorem dictRead_encDict0 (b : Byte) : dictRead encDict0 [b] = some (codeOfByte b) := by
  refine dictRead_of_mem nodup_encKeys (List.mem_map.2 ⟨b.toNat, List.mem_range.2 b.isLt, ?_⟩)
  rw [codeOfByte_eq_ofNat]; simp

theorem dictRead_decDict0 (b : Byte) : dictRead decDict0 (codeOfByte b) = some [b] := by
  refine dictRead_of_mem nodup_decKeys (List.mem_map.2 ⟨b.toNat, List.mem_range.2 b.isLt, ?_⟩)
  rw [codeOfByte_eq_ofNat]; simp

end Sys2Proof.Machine
end

