-- ==== Sys2Proof/Laws/State.lean ====
section
/-! SUPPORT. One lemma for each field and each update of the state, true by unfolding, so that no later proof unfolds a
record update. -/

namespace Sys2Proof.Machine

/-! ### The response -/

@[simp] theorem respond_enc (s : State) (o : List Item) (b : Bool) : (respond s o b).enc = s.enc := rfl
@[simp] theorem respond_de (s : State) (o : List Item) (b : Bool) : (respond s o b).de = s.de := rfl
@[simp] theorem respond_pk (s : State) (o : List Item) (b : Bool) : (respond s o b).pk = s.pk := rfl
@[simp] theorem respond_up (s : State) (o : List Item) (b : Bool) : (respond s o b).up = s.up := rfl
@[simp] theorem respond_cmd (s : State) (o : List Item) (b : Bool) : (respond s o b).cmd = s.cmd := rfl
@[simp] theorem respond_port (s : State) (o : List Item) (b : Bool) : (respond s o b).port = s.port := rfl
@[simp] theorem respond_resp (s : State) (o : List Item) (b : Bool) :
    (respond s o b).resp = { out := o, blkEnd := b } := rfl

/-! ### A unit's control fields -/

@[simp] theorem raiseFault_fault (f : FaultCode) (c : UnitCtl) : (raiseFault f c).fault = f := rfl
@[simp] theorem raiseFault_done (f : FaultCode) (c : UnitCtl) : (raiseFault f c).done = c.done := rfl
@[simp] theorem clearUnit_fault (c : UnitCtl) : (clearUnit c).fault = .none := rfl
@[simp] theorem clearUnit_done (c : UnitCtl) : (clearUnit c).done = false := rfl
@[simp] theorem closeUnit_fault (c : UnitCtl) : (closeUnit c).fault = c.fault := rfl
@[simp] theorem closeUnit_done (c : UnitCtl) : (closeUnit c).done = true := rfl

/-! ### The reset procedures -/

@[simp] theorem encReset_dict (e : Enc) : (encReset e).dict = encDict0 := rfl
@[simp] theorem encReset_size (e : Enc) : (encReset e).size = 259#16 := rfl
@[simp] theorem encReset_pfx (e : Enc) : (encReset e).pfx = [] := rfl
@[simp] theorem encReset_max (e : Enc) : (encReset e).max = e.max := rfl
@[simp] theorem encReset_thresh (e : Enc) : (encReset e).thresh = 511#16 := rfl
@[simp] theorem encReset_width (e : Enc) : (encReset e).width = 9#4 := rfl
@[simp] theorem encReset_ctl (e : Enc) : (encReset e).ctl = e.ctl := rfl

@[simp] theorem encConfigure_dict (m : Word16) (e : Enc) : (encConfigure m e).dict = encDict0 := rfl
@[simp] theorem encConfigure_size (m : Word16) (e : Enc) : (encConfigure m e).size = 259#16 := rfl
@[simp] theorem encConfigure_pfx (m : Word16) (e : Enc) : (encConfigure m e).pfx = [] := rfl
@[simp] theorem encConfigure_max (m : Word16) (e : Enc) : (encConfigure m e).max = m := rfl
@[simp] theorem encConfigure_thresh (m : Word16) (e : Enc) : (encConfigure m e).thresh = 511#16 := rfl
@[simp] theorem encConfigure_width (m : Word16) (e : Enc) : (encConfigure m e).width = 9#4 := rfl
@[simp] theorem encConfigure_done (m : Word16) (e : Enc) : (encConfigure m e).ctl.done = false := by
  unfold encConfigure; dsimp only; split <;> rfl
@[simp] theorem encConfigure_fault (m : Word16) (e : Enc) :
    (encConfigure m e).ctl.fault = if legalMax m then .none else .configError := by
  unfold encConfigure; dsimp only; split <;> rfl

@[simp] theorem decReset_dict (d : De) : (decReset d).dict = decDict0 := rfl
@[simp] theorem decReset_size (d : De) : (decReset d).size = 259#16 := rfl
@[simp] theorem decReset_pfx (d : De) : (decReset d).pfx = none := rfl
@[simp] theorem decReset_ctl (d : De) : (decReset d).ctl = d.ctl := rfl

@[simp] theorem decInit_dict (d : De) : (decInit d).dict = decDict0 := rfl
@[simp] theorem decInit_size (d : De) : (decInit d).size = 259#16 := rfl
@[simp] theorem decInit_pfx (d : De) : (decInit d).pfx = none := rfl
@[simp] theorem decInit_ctl (d : De) : (decInit d).ctl = UnitCtl.reset := rfl

@[simp] theorem packWidthReset_width (p : Pk) : (packWidthReset p).width = 9#4 := rfl
@[simp] theorem packWidthReset_count (p : Pk) : (packWidthReset p).count = p.init := rfl
@[simp] theorem packWidthReset_init (p : Pk) : (packWidthReset p).init = p.init := rfl
@[simp] theorem packWidthReset_thresh (p : Pk) : (packWidthReset p).thresh = 511#16 := rfl
@[simp] theorem packWidthReset_buf (p : Pk) : (packWidthReset p).buf = p.buf := rfl
@[simp] theorem packWidthReset_ctl (p : Pk) : (packWidthReset p).ctl = p.ctl := rfl

@[simp] theorem packInit_width (n : Word16) (p : Pk) : (packInit n p).width = 9#4 := rfl
@[simp] theorem packInit_count (n : Word16) (p : Pk) : (packInit n p).count = n := rfl
@[simp] theorem packInit_init (n : Word16) (p : Pk) : (packInit n p).init = n := rfl
@[simp] theorem packInit_thresh (n : Word16) (p : Pk) : (packInit n p).thresh = 511#16 := rfl
@[simp] theorem packInit_buf (n : Word16) (p : Pk) : (packInit n p).buf = [] := rfl
@[simp] theorem packInit_ctl (n : Word16) (p : Pk) : (packInit n p).ctl = UnitCtl.reset := rfl

@[simp] theorem unpackInit_width (u : Up) : (unpackInit u).width = 9#4 := rfl
@[simp] theorem unpackInit_acc (u : Up) : (unpackInit u).acc = [] := rfl
@[simp] theorem unpackInit_off (u : Up) : (unpackInit u).off = 0#3 := rfl
@[simp] theorem unpackInit_skip (u : Up) : (unpackInit u).skip = false := rfl
@[simp] theorem unpackInit_ctl (u : Up) : (unpackInit u).ctl = UnitCtl.reset := rfl

/-! ### The Packer's and the Decoder's updates -/

@[simp] theorem packField_width (x : BitString) (p : Pk) : (packField x p).width = p.width := rfl
@[simp] theorem packField_count (x : BitString) (p : Pk) : (packField x p).count = p.count + 1#16 := rfl
@[simp] theorem packField_init (x : BitString) (p : Pk) : (packField x p).init = p.init := rfl
@[simp] theorem packField_thresh (x : BitString) (p : Pk) : (packField x p).thresh = p.thresh := rfl
@[simp] theorem packField_buf (x : BitString) (p : Pk) : (packField x p).buf = p.buf ++ x := rfl
@[simp] theorem packField_ctl (x : BitString) (p : Pk) : (packField x p).ctl = p.ctl := rfl

@[simp] theorem packFlush_width (p : Pk) : (packFlush p).1.width = p.width := rfl
@[simp] theorem packFlush_count (p : Pk) : (packFlush p).1.count = p.count := rfl
@[simp] theorem packFlush_init (p : Pk) : (packFlush p).1.init = p.init := rfl
@[simp] theorem packFlush_thresh (p : Pk) : (packFlush p).1.thresh = p.thresh := rfl
@[simp] theorem packFlush_buf (p : Pk) : (packFlush p).1.buf = (flushBytes p.buf).2 := rfl
@[simp] theorem packFlush_ctl (p : Pk) : (packFlush p).1.ctl = p.ctl := rfl
@[simp] theorem packFlush_out (p : Pk) : (packFlush p).2 = (flushBytes p.buf).1 := rfl

@[simp] theorem decInsert_dict (v : ByteString) (d : De) :
    (decInsert v d).dict = dictWrite d.dict (codeOfSize d.size) v := rfl
@[simp] theorem decInsert_size (v : ByteString) (d : De) : (decInsert v d).size = d.size + 1#16 := rfl
@[simp] theorem decInsert_pfx (v : ByteString) (d : De) : (decInsert v d).pfx = d.pfx := rfl
@[simp] theorem decInsert_ctl (v : ByteString) (d : De) : (decInsert v d).ctl = d.ctl := rfl

/-! ### The port -/

@[simp] theorem placeWord_port (w : PortWord) (s : State) : (placeWord w s).port = w :: s.port := rfl
@[simp] theorem placeWord_enc (w : PortWord) (s : State) : (placeWord w s).enc = s.enc := rfl
@[simp] theorem placeWord_de (w : PortWord) (s : State) : (placeWord w s).de = s.de := rfl
@[simp] theorem placeWord_pk (w : PortWord) (s : State) : (placeWord w s).pk = s.pk := rfl
@[simp] theorem placeWord_up (w : PortWord) (s : State) : (placeWord w s).up = s.up := rfl
@[simp] theorem placeWord_cmd (w : PortWord) (s : State) : (placeWord w s).cmd = s.cmd := rfl
@[simp] theorem placeWord_resp (w : PortWord) (s : State) : (placeWord w s).resp = s.resp := rfl

end Sys2Proof.Machine
end

