-- ==== Sys2Proof/Laws/Ops.lean ====
section
/-! SUPPORT. What each shared operation can do, said once: results and their bind, the operators with a precondition, the
guard, and dispatch. -/

namespace Sys2Proof.Machine

/-! ### Results -/

@[simp] theorem ok_bind {α β : Type} (a : α) (f : α → Result β) : ((.ok a : Result α) >>= f) = f a := rfl

@[simp] theorem error_bind {α β : Type} (x : Fault) (f : α → Result β) : ((.error x : Result α) >>= f) = .error x := rfl

/-- A bind that gives a value: its first part gave one, and its second gave the value from it. -/
theorem bind_eq_ok {α β : Type} {r : Result α} {f : α → Result β} {b : β} :
    (r >>= f) = .ok b ↔ ∃ a, r = .ok a ∧ f a = .ok b := by
  cases r with
  | ok a => simp
  | error x => simp

@[simp] theorem outcomeOf_ok (t : State) : outcomeOf (.ok t) = .next t := rfl
@[simp] theorem outcomeOf_error (f : Fault) : outcomeOf (.error f) = .fault f := rfl

theorem outcomeOf_eq_next {r : Result State} {t : State} : outcomeOf r = .next t ↔ r = .ok t := by
  cases r <;> simp

theorem outcomeOf_ne_refused (r : Result State) (x : Refusal) : outcomeOf r ≠ .refused x := by
  cases r <;> simp

/-! ### Operators with a precondition -/

theorem zext_of_lt {n v : Nat} (h : v < 2 ^ n) : zext n v = .ok (BitVec.ofNat n v) := if_pos h

theorem zext_eq_ok {n v : Nat} {x : BitVec n} : zext n v = .ok x ↔ v < 2 ^ n ∧ x = BitVec.ofNat n v := by
  unfold zext; split <;> simp_all [eq_comm]

theorem double_plus_one (t : Nat) : (t <<< 1) ||| 1 = 2 * t + 1 := by
  rw [Nat.shiftLeft_eq, Nat.pow_one, Nat.mul_comm]
  exact (Nat.two_pow_add_eq_or_of_lt (i := 1) (b := 1) (by decide) t).symm

theorem nextThresh_of_lt {t : Word16} (h : t.toNat < 32768) :
    nextThresh t = .ok (BitVec.ofNat 16 (2 * t.toNat + 1)) := by
  rw [nextThresh, double_plus_one, zext_of_lt (by omega)]

theorem nextThresh_eq_ok {t x : Word16} :
    nextThresh t = .ok x ↔ t.toNat < 32768 ∧ x = BitVec.ofNat 16 (2 * t.toNat + 1) := by
  rw [nextThresh, double_plus_one, zext_eq_ok]
  constructor <;> rintro ⟨h, rfl⟩ <;> exact ⟨by omega, rfl⟩

theorem pastCeiling_eq_false {w : Word16} : pastCeiling w = false ↔ w.toNat < 32768 := by
  rw [pastCeiling, decide_eq_false_iff_not, Config.hardCeiling]; omega

theorem pastCeiling_eq_true {w : Word16} : pastCeiling w = true ↔ 32768 ≤ w.toNat := by
  rw [pastCeiling, decide_eq_true_iff, Config.hardCeiling]; omega

theorem codeOfSize_toNat {w : Word16} (h : w.toNat < 32768) : (codeOfSize w).toNat = w.toNat := by
  rw [codeOfSize, BitVec.toNat_ofNat, Nat.mod_eq_of_lt h]

theorem succ_toNat {w : Word16} (h : w.toNat < 65535) : (w + 1#16).toNat = w.toNat + 1 := by
  rw [BitVec.toNat_add]; exact Nat.mod_eq_of_lt (by simpa using Nat.succ_lt_succ h)

/-! ### The guard -/

theorem guardUnit_of_faulted {α : Type} {c : UnitCtl} {a : α} {f : UnitCtl → α} {b : α} (h : c.fault ≠ .none) :
    guardUnit c a f b = a := if_pos h

theorem guardUnit_of_closed {α : Type} {c : UnitCtl} {a : α} {f : UnitCtl → α} {b : α} (h : c.fault = .none)
    (hd : c.done = true) : guardUnit c a f b = f { done := true, fault := .streamClosed } := by
  cases c; subst h hd; rfl

theorem guardUnit_of_ready {α : Type} {c : UnitCtl} {a : α} {f : UnitCtl → α} {b : α} (h : c.fault = .none)
    (hd : c.done = false) : guardUnit c a f b = b := by
  cases c; subst h hd; rfl

/-- The guard has three outcomes. -/
theorem guardUnit_cases {α : Type} (c : UnitCtl) (a : α) (f : UnitCtl → α) (b : α) :
    (c.fault ≠ .none ∧ guardUnit c a f b = a) ∨
    (c.fault = .none ∧ c.done = true ∧ guardUnit c a f b = f { done := true, fault := .streamClosed }) ∨
    (c.fault = .none ∧ c.done = false ∧ guardUnit c a f b = b) := by
  by_cases h : c.fault = .none
  · cases hd : c.done
    · exact .inr (.inr ⟨h, rfl, guardUnit_of_ready h hd⟩)
    · exact .inr (.inl ⟨h, rfl, guardUnit_of_closed h hd⟩)
  · exact .inl ⟨h, guardUnit_of_faulted h⟩

/-! ### Dispatch -/

theorem dispatchCommand_of_unblocked {s : State} (r : Result State) (h : s.cmd.fault = .none) :
    dispatchCommand s r = outcomeOf r := by simp [dispatchCommand, h]

theorem dispatchCommand_of_blocked {s : State} (r : Result State) (h : s.cmd.fault ≠ .none) :
    dispatchCommand s r = .next (respond s [] false) := if_pos h

/-- A dispatched command that answers a next state was blocked, or its rule gave that state. -/
theorem dispatchCommand_eq_next {s t : State} {r : Result State} :
    dispatchCommand s r = .next t ↔
      (s.cmd.fault ≠ .none ∧ t = respond s [] false) ∨ (s.cmd.fault = .none ∧ r = .ok t) := by
  by_cases h : s.cmd.fault = .none
  · simp [dispatchCommand_of_unblocked r h, outcomeOf_eq_next, h]
  · simp [dispatchCommand_of_blocked r h, h, eq_comm]

theorem dispatchCommand_ne_refused (s : State) (r : Result State) (x : Refusal) : dispatchCommand s r ≠ .refused x := by
  unfold dispatchCommand
  split
  · simp
  · exact outcomeOf_ne_refused r x

end Sys2Proof.Machine
end

