-- ==== Sys2Proof/Laws/Decoder.lean ====
section
/-! SUPPORT. What each arm of the Decoder gives, one equation for each branch (42_decoder.md). -/

namespace Sys2Proof.Machine

theorem decKnown_of_no_prefix {d : De} (out : ByteString) (h : d.pfx = none) :
    decKnown out d = .ok ({ d with pfx := some out }, out, false) := by simp [decKnown, h, decEmit]

theorem decKnown_of_prefix {d : De} {p xs : ByteString} {x : Byte} (h : d.pfx = some p) (hs : d.size.toNat < 32768) :
    decKnown (x :: xs) d = .ok ({ decInsert (p ++ [x]) d with pfx := some (x :: xs) }, x :: xs, false) := by
  simp [decKnown, h, pastCeiling_eq_false.2 hs, firstByte, decEmit]

theorem decKnown_of_ceiling {d : De} {p : ByteString} (out : ByteString) (h : d.pfx = some p)
    (hs : 32768 ≤ d.size.toNat) : decKnown out d = decRaise .dictCeiling d := by
  simp [decKnown, h, pastCeiling_eq_true.2 hs]

theorem decSpecial_of_room {d : De} {xs : ByteString} {x : Byte} (hs : d.size.toNat < 32768) :
    decSpecial (x :: xs) d =
      .ok ({ decInsert (x :: xs ++ [x]) d with pfx := some (x :: xs ++ [x]) }, x :: xs ++ [x], false) := by
  simp [decSpecial, pastCeiling_eq_false.2 hs, firstByte, decEmit]

theorem decData_of_known {d : De} {cp : Code} {out : ByteString} (h : dictRead d.dict cp = some out) :
    decData cp d = decKnown out d := by simp [decData, h]

theorem decData_of_special {d : De} {cp : Code} {p : ByteString} (h : dictRead d.dict cp = none) (hp : d.pfx = some p)
    (hs : cp.toNat = d.size.toNat) : decData cp d = decSpecial p d := by simp [decData, h, hp, hs]

theorem decData_of_unknown {d : De} {cp : Code} (h : dictRead d.dict cp = none)
    (hu : d.pfx = none ∨ cp.toNat ≠ d.size.toNat) : decData cp d = decRaise .unknownCode d := by
  unfold decData
  rw [h]
  cases hp : d.pfx with
  | none => rfl
  | some p => simp_all

/-- A data codepoint's arm is chosen by the dictionary, the prefix and the size. -/
theorem decStep_of_data {d : De} {cp : Code} (resolve : Bool) (he : cp ≠ Config.eoi) (hb : cp ≠ Config.bump)
    (hc : cp ≠ Config.clear) : decStep resolve cp d = decData cp d := by simp [decStep, he, hb, hc]

theorem respondDec_eq_ok {s t : State} {r : DecResult} :
    respondDec s r = .ok t ↔
      ∃ d out blkEnd, r = .ok (d, out, blkEnd) ∧ t = respond { s with de := d } (out.map .byte) blkEnd := by
  rw [respondDec, bind_eq_ok]
  constructor
  · rintro ⟨⟨d, out, blkEnd⟩, h, ht⟩
    cases ht
    exact ⟨d, out, blkEnd, h, rfl⟩
  · rintro ⟨d, out, blkEnd, h, rfl⟩
    exact ⟨(d, out, blkEnd), h, rfl⟩

end Sys2Proof.Machine
end

