-- ==== Sys2Proof/Laws/Encoder.lean ====
section
/-! SUPPORT. What each rule of the Encoder gives, one equation for each of its branches (41_encoder.md). -/

namespace Sys2Proof.Machine

theorem encPending_of_empty {e : Enc} (h : e.pfx = []) : encPending e = .ok [] := if_pos h

theorem encPending_of_key {e : Enc} {c : Code} (h : e.pfx ≠ []) (hc : dictRead e.dict e.pfx = some c) :
    encPending e = .ok [c] := by simp [encPending, h, hc]

/-- What encPending can give: nothing for an empty prefix, else the code its key is bound to. -/
theorem encPending_eq_ok {e : Enc} {out : List Code} :
    encPending e = .ok out ↔
      (e.pfx = [] ∧ out = []) ∨ (e.pfx ≠ [] ∧ ∃ c, dictRead e.dict e.pfx = some c ∧ out = [c]) := by
  unfold encPending
  split
  · simp_all [eq_comm]
  · next hp =>
    cases dictRead e.dict e.pfx with
    | none => simp [hp]
    | some c => simp [hp, eq_comm]

/-- Rules 5 and 6 at the cap: the flush, and no bump after it. -/
theorem encAfterWalk_of_flush {e : Enc} {l : List Code} (out : List Code) (h : e.max.toNat ≤ e.size.toNat)
    (hl : encPending e = .ok l) : encAfterWalk e out = .ok (encReset e, out ++ l ++ [256#15]) := by
  have hb : encBump (encReset e) = .ok (encReset e, []) := if_neg (by simp)
  simp [encAfterWalk, encFlush, h, hl, hb, Config.eoi]

/-- Rules 5 and 6 below the cap and the threshold: nothing. -/
theorem encAfterWalk_of_quiet {e : Enc} (out : List Code) (h : e.size.toNat < e.max.toNat)
    (ht : e.size.toNat ≤ e.thresh.toNat) : encAfterWalk e out = .ok (e, out) := by
  simp [encAfterWalk, encFlush, encBump, Nat.not_le.2 h, Nat.not_lt.2 ht]

/-- Rules 5 and 6 below the cap and past the threshold: the bump. -/
theorem encAfterWalk_of_bump {e : Enc} (out : List Code) (h : e.size.toNat < e.max.toNat)
    (ht : e.thresh.toNat < e.size.toNat) (h15 : e.thresh.toNat < 32768) (hw : e.width.toNat < 15) :
    encAfterWalk e out = .ok
      ({ e with thresh := BitVec.ofNat 16 (2 * e.thresh.toNat + 1), width := BitVec.ofNat 4 (e.width.toNat + 1) },
        out ++ [257#15]) := by
  have hw' : e.width.toNat + 1 < 2 ^ 4 := by omega
  simp [encAfterWalk, encFlush, encBump, Nat.not_le.2 h, ht, nextThresh_of_lt h15, zext_of_lt hw', Config.bump]

/-- Rules 5 and 6 say one of three things. -/
theorem encAfterWalk_eq_ok {e e' : Enc} {out out' : List Code} (h : encAfterWalk e out = .ok (e', out')) :
    (e.max.toNat ≤ e.size.toNat ∧ ∃ l, encPending e = .ok l ∧ e' = encReset e ∧ out' = out ++ l ++ [256#15]) ∨
    (e.size.toNat < e.max.toNat ∧ e.size.toNat ≤ e.thresh.toNat ∧ e' = e ∧ out' = out) ∨
    (e.size.toNat < e.max.toNat ∧ e.thresh.toNat < e.size.toNat ∧ e.thresh.toNat < 32768 ∧ e.width.toNat < 15 ∧
      e' = { e with thresh := BitVec.ofNat 16 (2 * e.thresh.toNat + 1), width := BitVec.ofNat 4 (e.width.toNat + 1) } ∧
      out' = out ++ [257#15]) := by
  rcases Nat.lt_or_ge e.size.toNat e.max.toNat with hm | hm
  · rcases Nat.lt_or_ge e.thresh.toNat e.size.toNat with ht | ht
    · simp only [encAfterWalk, encFlush, Nat.not_le.2 hm, if_false, ok_bind, encBump, ht, if_true, bind_eq_ok,
        nextThresh_eq_ok, zext_eq_ok] at h
      obtain ⟨_, ⟨_, ⟨h15, rfl⟩, _, ⟨hw, rfl⟩, he⟩, h⟩ := h
      cases he
      cases h
      exact .inr (.inr ⟨hm, ht, h15, by omega, rfl, by simp [Config.bump]⟩)
    · rw [encAfterWalk_of_quiet out hm ht] at h
      cases h
      exact .inr (.inl ⟨hm, ht, rfl, rfl⟩)
  · cases hl : encPending e with
    | error f => simp [encAfterWalk, encFlush, hm, hl] at h
    | ok l =>
      rw [encAfterWalk_of_flush out hm hl] at h
      cases h
      exact .inl ⟨hm, l, rfl, rfl, rfl⟩

theorem encWalk_of_key {b : Byte} {e : Enc} (h : dictHas e.dict (e.pfx ++ [b]) = true) :
    encWalk b e = encAfterWalk { e with pfx := e.pfx ++ [b] } [] := if_pos h

theorem encWalk_of_new {b : Byte} {e : Enc} {c : Code} (h : dictHas e.dict (e.pfx ++ [b]) = false) (hp : e.pfx ≠ [])
    (hc : dictRead e.dict e.pfx = some c) (hs : e.size.toNat < 32768) :
    encWalk b e = encAfterWalk
      { e with dict := dictWrite e.dict (e.pfx ++ [b]) (codeOfSize e.size), size := e.size + 1#16, pfx := [b] } [c] := by
  simp [encWalk, h, hp, encDefine, pastCeiling_eq_false.2 hs, encPending_of_key hp hc]

/-- With an empty prefix both branches leave the same state (41_encoder.md R145). -/
theorem encWalk_of_first {b : Byte} {e : Enc} (hp : e.pfx = []) :
    encWalk b e = encAfterWalk { e with pfx := [b] } [] := by simp [encWalk, hp]

theorem encWalk_of_ceiling {b : Byte} {e : Enc} (h : dictHas e.dict (e.pfx ++ [b]) = false) (hp : e.pfx ≠ [])
    (hs : 32768 ≤ e.size.toNat) :
    encWalk b e = .ok ({ e with ctl := raiseFault .dictCeiling e.ctl }, []) := by
  simp [encWalk, h, hp, encDefine, pastCeiling_eq_true.2 hs]

theorem encFinish_of_pending {e : Enc} {l : List Code} (h : encPending e = .ok l) :
    encFinish e = .ok ({ encReset e with ctl := closeUnit e.ctl }, l ++ [256#15]) := by
  simp [encFinish, h, Config.eoi]

/-- The Encoder's parts of the state after a command that gives a value. -/
theorem respondEnc_eq_ok {s t : State} {r : Result (Enc × List Code)} :
    respondEnc s r = .ok t ↔ ∃ e out, r = .ok (e, out) ∧ t = respond { s with enc := e } (out.map .code) false := by
  rw [respondEnc, bind_eq_ok]
  constructor
  · rintro ⟨⟨e, out⟩, h, ht⟩
    cases ht
    exact ⟨e, out, h, rfl⟩
  · rintro ⟨e, out, h, rfl⟩
    exact ⟨(e, out), h, rfl⟩

end Sys2Proof.Machine
end

