-- ==== Sys2Proof/Laws/Grown.lean ====
section
/-! SUPPORT. States for the tests: units whose dictionaries have grown by n entries in the way a run grows them (the strings
0, i for i below n, as an input of zero bytes before each i would define them), and that they meet the invariants. -/

namespace Sys2Proof.Machine

/-- The Encoder's dictionary after n entries. -/
def encGrownDict (n : Nat) : Dict ByteString Code :=
  encDict0 ++ (List.range n).map fun i => ([0#8, BitVec.ofNat 8 i], BitVec.ofNat 15 (259 + i))

/-- The Decoder's dictionary after n entries. -/
def decGrownDict (n : Nat) : Dict Code ByteString :=
  decDict0 ++ (List.range n).map fun i => (BitVec.ofNat 15 (259 + i), [0#8, BitVec.ofNat 8 i])

/-- An Encoder that has defined n strings. -/
def encGrown (n : Nat) (pfx : ByteString) (max : Word16) : Enc where
  dict := encGrownDict n
  size := BitVec.ofNat 16 (259 + n)
  pfx := pfx
  max := max
  thresh := 511#16
  width := 9#4
  ctl := UnitCtl.reset

/-- A Decoder that has defined n strings. -/
def decGrown (n : Nat) (pfx : Option ByteString) : De where
  dict := decGrownDict n
  size := BitVec.ofNat 16 (259 + n)
  pfx := pfx
  ctl := UnitCtl.reset

theorem encGrown_keys (n : Nat) : dictKeys (encGrownDict n) =
    ((List.range 256).map fun i => [BitVec.ofNat 8 i]) ++ (List.range n).map fun i => [0#8, BitVec.ofNat 8 i] := by
  simp [dictKeys, encGrownDict, encDict0, Function.comp_def]

theorem decGrown_vals (n : Nat) : dictVals (decGrownDict n) =
    ((List.range 256).map fun i => [BitVec.ofNat 8 i]) ++ (List.range n).map fun i => [0#8, BitVec.ofNat 8 i] := by
  simp [dictVals, decGrownDict, decDict0, Function.comp_def]

theorem codesInUse_grown (n : Nat) : codesInUse (259 + n) =
    (List.range 256).map (BitVec.ofNat 15) ++ (List.range n).map fun i => BitVec.ofNat 15 (259 + i) := by
  simp [codesInUse, List.range'_eq_map_range, Function.comp_def]

theorem ofNat8_inj {i j : Nat} (hi : i < 256) (hj : j < 256) (h : BitVec.ofNat 8 i = BitVec.ofNat 8 j) : i = j := by
  have h := congrArg BitVec.toNat h
  simp only [BitVec.toNat_ofNat] at h
  omega

theorem encGrown_nodup {n : Nat} (hn : n ≤ 252) : (dictKeys (encGrownDict n)).Nodup := by
  rw [encGrown_keys, List.nodup_append]
  refine ⟨?_, ?_, ?_⟩
  · exact dictKeys_encDict0 ▸ nodup_encKeys
  · rw [List.nodup_map_iff_inj_on List.nodup_range]
    intro x hx y hy h
    simp only [List.mem_range] at hx hy
    simp only [List.cons.injEq, and_true, true_and] at h
    exact ofNat8_inj (by omega) (by omega) h
  · rintro a ha b hb rfl
    obtain ⟨i, -, rfl⟩ := List.mem_map.1 ha
    obtain ⟨j, -, hj⟩ := List.mem_map.1 hb
    simp at hj

theorem codesInUse_nodup {n : Nat} (hn : n ≤ 252) : (codesInUse (259 + n)).Nodup := by
  rw [codesInUse, List.nodup_map_iff_inj_on]
  · intro x hx y hy h
    have h := congrArg BitVec.toNat h
    simp only [List.mem_append, List.mem_range, List.mem_range'_1] at hx hy
    simp only [BitVec.toNat_ofNat] at h
    omega
  · rw [List.nodup_append]
    refine ⟨List.nodup_range, List.nodup_range', ?_⟩
    intro a ha b hb
    simp only [List.mem_range, List.mem_range'_1] at ha hb
    omega

theorem decGrown_keys (n : Nat) : dictKeys (decGrownDict n) = codesInUse (259 + n) := by
  rw [codesInUse_grown]
  simp [dictKeys, decGrownDict, decDict0, Function.comp_def]

theorem mem_encDict0 (b : Byte) : ([b], codeOfByte b) ∈ encDict0 := mem_of_dictRead (dictRead_encDict0 b)

theorem mem_decDict0 (b : Byte) : (codeOfByte b, [b]) ∈ decDict0 := mem_of_dictRead (dictRead_decDict0 b)

theorem grown_size {n : Nat} (hn : n ≤ 252) : (BitVec.ofNat 16 (259 + n)).toNat = 259 + n := by
  rw [BitVec.toNat_ofNat]; omega

/-- A grown Encoder meets the invariants: the witness of every statement that assumes EncOk. -/
theorem encGrown_ok {n : Nat} {pfx : ByteString} {max : Word16} (hn : n ≤ 252) (hm : legalMax max = true)
    (hs : 259 + n ≤ Max.max 259 (max.toNat - 1)) (hp : pfx = [] ∨ pfx ∈ dictKeys (encGrownDict n)) :
    EncOk (encGrown n pfx max) := by
  have hsize : (encGrown n pfx max).size.toNat = 259 + n := grown_size hn
  constructor
  · exact decide_eq_true (encGrown_nodup hn)
  · intro k hk
    change k ∈ dictKeys (encGrownDict n) at hk
    rw [encGrown_keys, List.mem_append] at hk
    rcases hk with hk | hk <;> obtain ⟨i, -, rfl⟩ := List.mem_map.1 hk <;> simp
  · intro b
    exact dictRead_of_mem (encGrown_nodup hn) (List.mem_append_left _ (mem_encDict0 b))
  · intro k hk p hp hne
    change k ∈ dictKeys (encGrownDict n) at hk
    change p ∈ dictKeys (encGrownDict n)
    rw [encGrown_keys, List.mem_append] at hk
    rcases hk with hk' | hk' <;> obtain ⟨i, hi, rfl⟩ := List.mem_map.1 hk'
    · have : p = [BitVec.ofNat 8 i] := by simpa [List.inits, hne] using hp
      rw [this, encGrown_keys]
      exact List.mem_append_left _ hk'
    · have : p = [0#8] ∨ p = [0#8, BitVec.ofNat 8 i] := by simpa [List.inits, hne] using hp
      rw [encGrown_keys]
      rcases this with rfl | rfl
      · exact List.mem_append_left _ (List.mem_map.2 ⟨0, by simp, rfl⟩)
      · exact List.mem_append_right _ hk'
  · rw [hsize, codesInUse_grown]
    simp [encGrown, dictVals, encGrownDict, encDict0, Function.comp_def]
  · rintro kv hk h2
    rcases List.mem_append.1 hk with hk | hk <;> obtain ⟨i, hi, rfl⟩ := List.mem_map.1 hk
    · simp at h2
    · refine ⟨_, List.mem_append_left _ (mem_encDict0 0#8), rfl, ?_⟩
      have := List.mem_range.1 hi
      simp [codeOfByte]
      omega
  · rw [hsize]
    change _ = 259 + ((dictKeys (encGrownDict n)).filter _).length
    rw [encGrown_keys, List.filter_append, List.filter_eq_nil_iff.2, List.filter_eq_self.2]
    · simp
    · intro k hk
      obtain ⟨i, -, rfl⟩ := List.mem_map.1 hk
      rfl
    · intro k hk
      obtain ⟨i, -, rfl⟩ := List.mem_map.1 hk
      simp
  · rintro kv hk hc
    rcases List.mem_append.1 hk with hk | hk <;> obtain ⟨i, hi, rfl⟩ := List.mem_map.1 hk <;>
      have := List.mem_range.1 hi
    · simp only [BitVec.toNat_ofNat] at hc
      omega
    · simp
      omega
  · exact hp.imp id fun h => (dictHas_iff_mem_dictKeys _ _).2 h
  · exact ⟨by omega, hsize ▸ hs⟩
  · exact ⟨rfl, hsize ▸ (by change 259 + n ≤ 511; omega)⟩
  · exact (by decide : 9 ≤ (9#4).toNat)
  · constructor
    · intro h
      cases h
    · intro h
      exact absurd (hm.symm.trans h) (by decide)
  · exact .head _

/-- A grown Decoder meets the invariants: the witness of every statement that assumes DeOk. -/
theorem decGrown_ok {n : Nat} {pfx : Option ByteString} (hn : n ≤ 252)
    (hp : ∀ p, pfx = some p → p ∈ dictVals (decGrownDict n)) (h0 : pfx = none → n = 0) : DeOk (decGrown n pfx) := by
  have hsize : (decGrown n pfx).size.toNat = 259 + n := grown_size hn
  constructor
  · rw [hsize]; exact decGrown_keys n
  · intro b
    refine dictRead_of_mem ?_ (List.mem_append_left _ (mem_decDict0 b))
    exact decGrown_keys n ▸ codesInUse_nodup hn
  · intro v hv
    change v ∈ dictVals (decGrownDict n) at hv
    rw [decGrown_vals, List.mem_append] at hv
    rcases hv with hv | hv <;> obtain ⟨i, -, rfl⟩ := List.mem_map.1 hv <;> simp
  · rintro kv hk hc
    rcases List.mem_append.1 hk with hk | hk <;> obtain ⟨i, hi, rfl⟩ := List.mem_map.1 hk <;>
      have := List.mem_range.1 hi
    · simp only [BitVec.toNat_ofNat] at hc
      omega
    · refine ⟨_, List.mem_append_left _ (mem_decDict0 0#8), ?_, rfl⟩
      simp [codeOfByte]
      omega
  · rintro kv hk hc
    rcases List.mem_append.1 hk with hk | hk <;> obtain ⟨i, hi, rfl⟩ := List.mem_map.1 hk <;>
      have := List.mem_range.1 hi
    · simp only [BitVec.toNat_ofNat] at hc
      omega
    · simp
      omega
  · exact hp
  · intro h
    rw [hsize, h0 h]
  · exact ⟨by omega, by omega⟩
  · exact .head _

end Sys2Proof.Machine
end

