-- ==== Sys2Proof/Laws/Packer.lean ====
section
/-! SUPPORT. What each rule of the Packer gives, one equation for each branch (43_packer_unpacker.md, sections 1 to 3). -/

namespace Sys2Proof.Machine

theorem packBody_of_too_wide {p : Pk} {cp : Code} (h : 2 ^ p.width.toNat ≤ cp.toNat) :
    packBody cp p = packRaise .codeTooWide p := by simp [packBody, intToBits_eq_none h]

theorem packBody_of_overflow {p : Pk} {cp : Code} (h : cp.toNat < 2 ^ p.width.toNat) (hb : cp = Config.bump)
    (hw : p.width = Config.maxWidth) : packBody cp p = packRaise .widthOverflow p := by
  rw [packBody, intToBits_eq_some h]
  exact if_pos ⟨hb, hw⟩

theorem packBody_of_fits {p : Pk} {cp : Code} (h : cp.toNat < 2 ^ p.width.toNat)
    (hb : ¬ (cp = Config.bump ∧ p.width = Config.maxWidth)) :
    packBody cp p = packEffect cp (packField (fieldBits p.width.toNat cp.toNat) p) >>= fun q => .ok (packFlush q) := by
  rw [packBody, intToBits_eq_some h]
  exact if_neg hb

theorem packEffect_eoi (p : Pk) : packEffect 256#15 p = .ok (packWidthReset { p with buf := padToByte p.buf }) := rfl

theorem packEffect_clear (p : Pk) : packEffect 258#15 p = .ok (packWidthReset p) := rfl

theorem packEffect_bump {p : Pk} (h : p.thresh.toNat < 32768) :
    packEffect 257#15 p = .ok { p with width := p.width + 1#4, thresh := BitVec.ofNat 16 (2 * p.thresh.toNat + 1) } := by
  show packWiden p = _
  simp [packWiden, nextThresh_of_lt h]

theorem packEffect_data {p : Pk} {cp : Code} (he : cp ≠ Config.eoi) (hb : cp ≠ Config.bump) (hc : cp ≠ Config.clear) :
    packEffect cp p = .ok p := by simp [packEffect, he, hb, hc]

theorem packFinish_of_empty {p : Pk} (h : p.buf = []) : packFinish p = .ok ({ p with ctl := closeUnit p.ctl }, []) :=
  if_pos h

theorem packFinish_of_pending {p : Pk} (h : p.buf ≠ []) (hl : p.buf.length ≤ 8) :
    packFinish p = .ok
      ({ p with buf := [], ctl := closeUnit p.ctl }, [groupByte (p.buf ++ zeros (8 - p.buf.length))]) := by
  simp [packFinish, h, Nat.not_lt.2 hl]

theorem respondPk_eq_ok {s t : State} {r : Result (Pk × ByteString)} :
    respondPk s r = .ok t ↔ ∃ p out, r = .ok (p, out) ∧ t = respond { s with pk := p } (out.map .byte) false := by
  rw [respondPk, bind_eq_ok]
  constructor
  · rintro ⟨⟨p, out⟩, h, ht⟩
    cases ht
    exact ⟨p, out, h, rfl⟩
  · rintro ⟨p, out, h, rfl⟩
    exact ⟨(p, out), h, rfl⟩

end Sys2Proof.Machine
end

