-- ==== Sys2Proof/Laws/PerInstr.lean ====
section
/-! SUPPORT. The per-instruction family EncodingMatchesRow: the word of every well-formed instruction matches its row of
spec/opcode_table.json (format, match and mask), constructor by constructor. -/

namespace Sys2Proof.Laws.EncodingMatchesRow

/-- A row of spec/opcode_table.json: its format's width in bits, its match and its mask. -/
structure Row where
  bits : Nat
  pattern : Nat
  mask : Nat
  deriving DecidableEq, Repr

/-- The rows, as spec/opcode_table.json lists them. -/
def rowOf : Instr → Row
  | .encByte _ => ⟨20, 0x00000, 0xFFF00⟩
  | .encEnd => ⟨20, 0x10000, 0xFFFFF⟩
  | .packCode _ => ⟨20, 0x20000, 0xF8000⟩
  | .packEnd => ⟨20, 0x30000, 0xFFFFF⟩
  | .unpkByte _ => ⟨20, 0x40000, 0xFFF00⟩
  | .unpkEnd => ⟨20, 0x50000, 0xFFFFF⟩
  | .decCode _ => ⟨20, 0x60000, 0xF8000⟩
  | .decEnd => ⟨20, 0x70000, 0xFFFFF⟩
  | .decResolve _ => ⟨20, 0x80000, 0xF8000⟩
  | .cmpByte _ => ⟨20, 0x90000, 0xFFF00⟩
  | .cmpEnd => ⟨20, 0xA0000, 0xFFFFF⟩
  | .dcmpByte _ => ⟨20, 0xB0000, 0xFFF00⟩
  | .dcmpEnd => ⟨20, 0xC0000, 0xFFFFF⟩
  | .init _ => ⟨20, 0xD0000, 0xF0000⟩
  | .initPack _ => ⟨20, 0xE0000, 0xF0000⟩
  | .reserved _ => ⟨20, 0xF0000, 0xF0000⟩
  | .cpEoi => ⟨15, 0x0100, 0x7FFF⟩
  | .cpBump => ⟨15, 0x0101, 0x7FFF⟩
  | .cpClear => ⟨15, 0x0102, 0x7FFF⟩
  | .cpLiteral _ => ⟨15, 0x0000, 0x7F00⟩
  | .cpDynamic _ => ⟨15, 0x0000, 0x0000⟩

/-- A port word matches a row: its format is the row's, and under the mask it is the row's match. -/
def matchesRow (w : PortWord) (r : Row) : Prop :=
  match w with
  | .cmd x => r.bits = 20 ∧ x &&& BitVec.ofNat 20 r.mask = BitVec.ofNat 20 r.pattern
  | .code x => r.bits = 15 ∧ x &&& BitVec.ofNat 15 r.mask = BitVec.ofNat 15 r.pattern

def Statement (i : Instr) : Prop := i.wf = true → matchesRow (encode i) (rowOf i)

open Sys2Proof.Machine

theorem byteForm (op : BitVec 4) (b : Byte) :
    commandWord op (dataOfByte b) &&& 0xFFF00#20 = commandWord op 0#16 := by
  unfold commandWord dataOfByte
  refine BitVec.eq_of_getLsbD_eq fun i hi => ?_
  interval_cases i <;> simp

theorem codeForm (op : BitVec 4) (cp : Code) :
    commandWord op (dataOfCode cp) &&& 0xF8000#20 = commandWord op 0#16 := by
  unfold commandWord dataOfCode
  refine BitVec.eq_of_getLsbD_eq fun i hi => ?_
  interval_cases i <;> simp

theorem wordForm (op : BitVec 4) (data : Word16) : commandWord op data &&& 0xF0000#20 = commandWord op 0#16 := by
  unfold commandWord
  refine BitVec.eq_of_getLsbD_eq fun i hi => ?_
  interval_cases i <;> simp

theorem encByte (b : Byte) : Statement (.encByte b) := fun _ =>
  ⟨rfl, (byteForm 0x0#4 b).trans (by decide : commandWord 0x0#4 0#16 = 0x00000#20)⟩
theorem encEnd : Statement .encEnd := fun _ => ⟨rfl, rfl⟩
theorem packCode (cp : Code) : Statement (.packCode cp) := fun _ =>
  ⟨rfl, (codeForm 0x2#4 cp).trans (by decide : commandWord 0x2#4 0#16 = 0x20000#20)⟩
theorem packEnd : Statement .packEnd := fun _ => ⟨rfl, rfl⟩
theorem unpkByte (b : Byte) : Statement (.unpkByte b) := fun _ =>
  ⟨rfl, (byteForm 0x4#4 b).trans (by decide : commandWord 0x4#4 0#16 = 0x40000#20)⟩
theorem unpkEnd : Statement .unpkEnd := fun _ => ⟨rfl, rfl⟩
theorem decCode (cp : Code) : Statement (.decCode cp) := fun _ =>
  ⟨rfl, (codeForm 0x6#4 cp).trans (by decide : commandWord 0x6#4 0#16 = 0x60000#20)⟩
theorem decEnd : Statement .decEnd := fun _ => ⟨rfl, rfl⟩
theorem decResolve (cp : Code) : Statement (.decResolve cp) := fun _ =>
  ⟨rfl, (codeForm 0x8#4 cp).trans (by decide : commandWord 0x8#4 0#16 = 0x80000#20)⟩
theorem cmpByte (b : Byte) : Statement (.cmpByte b) := fun _ =>
  ⟨rfl, (byteForm 0x9#4 b).trans (by decide : commandWord 0x9#4 0#16 = 0x90000#20)⟩
theorem cmpEnd : Statement .cmpEnd := fun _ => ⟨rfl, rfl⟩
theorem dcmpByte (b : Byte) : Statement (.dcmpByte b) := fun _ =>
  ⟨rfl, (byteForm 0xB#4 b).trans (by decide : commandWord 0xB#4 0#16 = 0xB0000#20)⟩
theorem dcmpEnd : Statement .dcmpEnd := fun _ => ⟨rfl, rfl⟩
theorem init (m : Word16) : Statement (.init m) := fun _ =>
  ⟨rfl, (wordForm 0xD#4 m).trans (by decide : commandWord 0xD#4 0#16 = 0xD0000#20)⟩
theorem initPack (n : Word16) : Statement (.initPack n) := fun _ =>
  ⟨rfl, (wordForm 0xE#4 n).trans (by decide : commandWord 0xE#4 0#16 = 0xE0000#20)⟩
theorem reserved (data : Word16) : Statement (.reserved data) := fun _ =>
  ⟨rfl, (wordForm 0xF#4 data).trans (by decide : commandWord 0xF#4 0#16 = 0xF0000#20)⟩
theorem cpEoi : Statement .cpEoi := fun _ => ⟨rfl, rfl⟩
theorem cpBump : Statement .cpBump := fun _ => ⟨rfl, rfl⟩
theorem cpClear : Statement .cpClear := fun _ => ⟨rfl, rfl⟩

theorem cpLiteral (b : Byte) : Statement (.cpLiteral b) := by
  refine fun _ => ⟨rfl, ?_⟩
  show b.setWidth 15 &&& 0x7F00#15 = 0#15
  refine BitVec.eq_of_getLsbD_eq fun i hi => ?_
  interval_cases i <;> simp

theorem cpDynamic (cp : Code) : Statement (.cpDynamic cp) := fun _ => ⟨rfl, by simp [rowOf]⟩

end Sys2Proof.Laws.EncodingMatchesRow
end

