-- ==== Sys2Proof/Laws/Stream.lean ====
section
/-! SUPPORT. Where the packed stream is defined, and its fields one at a time (30_encoding.md R87, R88). -/

namespace Sys2Proof.Machine

theorem fitsStream_cons {w : Nat} {cp : Code} {rest : List Code} :
    fitsStream w (cp :: rest) = true ↔
      cp.toNat < 2 ^ w ∧ ¬ (cp = Config.bump ∧ w = 15) ∧ fitsStream (nextWidth w cp) rest = true := by
  simp [fitsStream, and_assoc, -not_and, Decidable.not_and_iff_or_not]

/-- A codepoint that fits writes its field and, after END_OF_INFO, the padding. -/
theorem streamBits_cons {w : Nat} {cp : Code} (hlt : cp.toNat < 2 ^ w) (hb : ¬ (cp = Config.bump ∧ w = 15))
    (rest : List Code) (x : BitString) :
    streamBits w (cp :: rest) x =
      streamBits (nextWidth w cp) rest
        (if cp = Config.eoi then padToByte (x ++ fieldBits w cp.toNat) else x ++ fieldBits w cp.toNat) := by
  rw [streamBits, if_neg hb, intToBits_eq_some hlt, Option.bind_some]

theorem streamBits_isSome (codes : List Code) : ∀ (w : Nat) (x : BitString),
    (streamBits w codes x).isSome = fitsStream w codes := by
  induction codes with
  | nil => intros; rfl
  | cons cp rest ih =>
    intro w x
    rw [Bool.eq_iff_iff, fitsStream_cons]
    by_cases hb : cp = Config.bump ∧ w = 15
    · simp [streamBits, hb]
    by_cases hlt : cp.toNat < 2 ^ w
    · simp [streamBits_cons hlt hb, ih, hlt, hb]
    · simp [streamBits, hb, intToBits_eq_none (Nat.le_of_not_lt hlt), hlt]

theorem packedStream_isSome (codes : List Code) : (packedStream codes).isSome = fitsStream 9 codes := by
  rw [packedStream, Option.isSome_map, streamBits_isSome]

end Sys2Proof.Machine
end

