-- ==== Sys2Proof/Laws/Transforms.lean ====
section
/-! SUPPORT. When the transforms compress and decompress are defined, and what they then give (44_facade.md R274, R275). -/

namespace Sys2Proof.Machine

theorem runCommands_eq_some {is : List Instr} {s t : State} {y : ByteString} :
    runCommands is s = some (t, y) ↔ ∃ rs, issueAll (is.map encode) s = some (t, rs) ∧ responseBytes rs = y := by
  rw [runCommands]
  split <;> simp_all

theorem compress_eq_some {m : Word16} {x y : ByteString} {s t : State} :
    compress m x s = some (t, y) ↔ legalMax m = true ∧ runCommands (compressCommands m x) s = some (t, y) := by
  rw [compress]
  split <;> simp_all

theorem decompress_eq_some {x y : ByteString} {s t : State} :
    decompress y s = some (t, x) ↔ runCommands (decompressCommands y) s = some (t, x) ∧ faultFree t = true := by
  rw [decompress]
  split
  · rename_i u z h
    split
    · rename_i hu
      rw [h]
      constructor
      · rintro ⟨⟩
        exact ⟨rfl, hu⟩
      · exact And.left
    · rename_i hu
      rw [h]
      constructor
      · rintro ⟨⟩
      · rintro ⟨⟨⟩, ht⟩
        exact absurd ht hu
  · rename_i h
    rw [h]
    exact ⟨nofun, fun ht => nomatch ht.1⟩

/-- Every width of the façade stands for a legal maximum, and no other number is one (00_scope.md R6). -/
theorem maxOfWidth_eq_some {w : Nat} {m : Word16} :
    maxOfWidth w = some m ↔ 9 ≤ w ∧ w ≤ 15 ∧ m = BitVec.ofNat 16 (2 ^ w) := by
  rw [maxOfWidth]
  split <;> simp_all [eq_comm]

theorem maxOfWidth_legal {w : Nat} {m : Word16} (h : maxOfWidth w = some m) : m.toNat = 2 ^ w ∧ legalMax m = true := by
  obtain ⟨h9, h15, rfl⟩ := maxOfWidth_eq_some.mp h
  have hw : w = 9 ∨ w = 10 ∨ w = 11 ∨ w = 12 ∨ w = 13 ∨ w = 14 ∨ w = 15 := by omega
  rcases hw with rfl | rfl | rfl | rfl | rfl | rfl | rfl <;> decide

theorem compressWidth_eq {w : Nat} {m : Word16} (h : maxOfWidth w = some m) (x : ByteString) (s : State) :
    compressWidth w x s = compress m x s := by
  rw [compressWidth, h, Option.bind_some]

end Sys2Proof.Machine
end

