-- ==== Sys2Proof/Laws/Unpacker.lean ====
section
/-! SUPPORT. What one bit does to the Unpacker, one equation for each branch of the loop of UNPK_BYTE
(43_packer_unpacker.md R232). -/

namespace Sys2Proof.Machine

@[simp] theorem unpkBits_nil (i : Nat) (u : Up) : unpkBits i [] u = (u, []) := rfl

/-- After an END_OF_INFO the rest of the byte is discarded (R235). -/
theorem unpkBits_cons_of_skip {i : Nat} {x : Bool} {rest : BitString} {u : Up} (h : u.skip = true) :
    unpkBits i (x :: rest) u = unpkBits (i + 1) rest { u with off := BitVec.ofNat 3 i } := by
  simp [unpkBits, h]

/-- A bit that completes no field is kept. -/
theorem unpkBits_cons_of_more {i : Nat} {x : Bool} {rest : BitString} {u : Up} (h : u.skip = false)
    (hl : u.acc.length + 1 ≠ u.width.toNat) :
    unpkBits i (x :: rest) u = unpkBits (i + 1) rest { u with off := BitVec.ofNat 3 i, acc := u.acc ++ [x] } := by
  simp [unpkBits, h, hl]

/-- A bit that completes a field whose codepoint is accepted (R234 to R237). -/
theorem unpkBits_cons_of_field {i : Nat} {x : Bool} {rest : BitString} {u : Up} (h : u.skip = false)
    (hl : u.acc.length + 1 = u.width.toNat)
    (hb : ¬ (fieldCode (u.acc ++ [x]) = Config.bump ∧ u.width = Config.maxWidth)) :
    unpkBits i (x :: rest) u =
      ((unpkBits (i + 1) rest
          (unpkEffect (fieldCode (u.acc ++ [x])) { u with off := BitVec.ofNat 3 i, acc := [] })).1,
        fieldCode (u.acc ++ [x]) ::
          (unpkBits (i + 1) rest
            (unpkEffect (fieldCode (u.acc ++ [x])) { u with off := BitVec.ofNat 3 i, acc := [] })).2) := by
  simp only [unpkBits, h, List.length_append, List.length_singleton, hl, hb, if_false, if_true, Bool.false_eq_true]

/-- A bit that completes a BUMP at width 15 (R237): the bits stay, the loop ends. -/
theorem unpkBits_cons_of_overflow {i : Nat} {x : Bool} {rest : BitString} {u : Up} (h : u.skip = false)
    (hl : u.acc.length + 1 = u.width.toNat) (hb : fieldCode (u.acc ++ [x]) = Config.bump) (hw : u.width = Config.maxWidth) :
    unpkBits i (x :: rest) u =
      ({ u with
          off := BitVec.ofNat 3 i, acc := u.acc ++ [x], ctl := raiseFault .widthOverflow u.ctl }, []) := by
  have hl' : u.acc.length + 1 = Config.maxWidth.toNat := hw ▸ hl
  simp only [unpkBits, h, List.length_append, List.length_singleton, hb, hw, hl', and_self, if_false, if_true,
    Bool.false_eq_true]

theorem unpkEffect_bump (u : Up) : unpkEffect 257#15 u = { u with width := u.width + 1#4 } := rfl
theorem unpkEffect_eoi (u : Up) : unpkEffect 256#15 u = { u with skip := true, width := 9#4 } := rfl
theorem unpkEffect_clear (u : Up) : unpkEffect 258#15 u = { u with width := 9#4 } := rfl

theorem unpkEffect_data {u : Up} {cp : Code} (he : cp ≠ Config.eoi) (hb : cp ≠ Config.bump) (hc : cp ≠ Config.clear) :
    unpkEffect cp u = u := by simp [unpkEffect, he, hb, hc]

/-- A field has at most 15 bits, so its codepoint is its value. -/
theorem fieldCode_toNat {x : BitString} (h : x.length ≤ 15) : (fieldCode x).toNat = bitsToInt x := by
  rw [fieldCode, BitVec.toNat_ofNat, Nat.mod_eq_of_lt]
  exact Nat.lt_of_lt_of_le (bitsToInt_lt x) (Nat.pow_le_pow_right (by decide) h)

end Sys2Proof.Machine
end

