-- ==== Sys2Proof/Laws/Words.lean ====
section
/-! SUPPORT. Command words as numbers: a word is `op * 65536 + data`, and its fields read back (30_encoding.md R90). -/

namespace Sys2Proof.Machine

theorem opField_toNat (w : CmdWord) : (opField w).toNat = w.toNat / 65536 := by
  have := w.isLt
  simp [opField, Nat.shiftRight_eq_div_pow]; omega

theorem dataField_toNat (w : CmdWord) : (dataField w).toNat = w.toNat % 65536 := by
  simp [dataField]

theorem commandWord_toNat (op : BitVec 4) (data : Word16) :
    (commandWord op data).toNat = op.toNat * 65536 + data.toNat := by
  have h1 := op.isLt
  have h2 := data.isLt
  have h3 := Nat.shiftLeft_add_eq_or_of_lt (i := 16) (b := data.toNat) (by simpa using h2) op.toNat
  simp only [commandWord, BitVec.toNat_or, BitVec.toNat_shiftLeft, BitVec.toNat_setWidth]
  rw [Nat.mod_eq_of_lt (a := op.toNat) (by omega), Nat.mod_eq_of_lt (a := data.toNat) (by omega),
    Nat.mod_eq_of_lt (by rw [Nat.shiftLeft_eq]; omega), ← h3, Nat.shiftLeft_eq]

theorem dataOfByte_toNat (b : Byte) : (dataOfByte b).toNat = b.toNat := by
  have := b.isLt
  simp [dataOfByte]; omega

theorem dataOfCode_toNat (cp : Code) : (dataOfCode cp).toNat = cp.toNat := by
  have := cp.isLt
  simp [dataOfCode]; omega

/-- The well-formedness check's bound is FIRST_DYN (00_scope.md R5). -/
theorem cpDynamic_wf_iff (cp : Code) : (Instr.cpDynamic cp).wf = true ↔ Config.firstDyn.toNat ≤ cp.toNat := by
  simp [Instr.wf, Config.firstDyn]

end Sys2Proof.Machine
end

