-- ==== Sys2Proof/Machine/Assembler.lean ====
section
/-! DEFINITION. The assembler syntax (30_encoding.md R94): `MNEMONIC` or `MNEMONIC operand`, the operand decimal or `0x`
hexadecimal, one command a line, `;` starts a comment. A text is a list of characters. Corners that R94 leaves open are
assumption log 11. -/

namespace Sys2Proof.Machine

/-- How a command's operand is read (30_encoding.md R91). -/
inductive OperandForm where
  | byte
  | code
  | none
  | word
  deriving DecidableEq, Repr

/-- The opcode map of 30_encoding.md R91 by mnemonic. -/
def mnemonicTable : List (List Char × BitVec 4 × OperandForm) :=
  [("ENC_BYTE".toList, 0x0#4, .byte), ("ENC_END".toList, 0x1#4, .none), ("PACK_CODE".toList, 0x2#4, .code),
   ("PACK_END".toList, 0x3#4, .none), ("UNPK_BYTE".toList, 0x4#4, .byte), ("UNPK_END".toList, 0x5#4, .none),
   ("DEC_CODE".toList, 0x6#4, .code), ("DEC_END".toList, 0x7#4, .none), ("DEC_RESOLVE".toList, 0x8#4, .code),
   ("CMP_BYTE".toList, 0x9#4, .byte), ("CMP_END".toList, 0xA#4, .none), ("DCMP_BYTE".toList, 0xB#4, .byte),
   ("DCMP_END".toList, 0xC#4, .none), ("INIT".toList, 0xD#4, .word), ("INIT_PACK".toList, 0xE#4, .word)]

/-- The opcode and operand form of a mnemonic. -/
def lookupMnemonic (name : List Char) : Option (BitVec 4 × OperandForm) :=
  match mnemonicTable.find? (fun row => decide (row.1 = name)) with
  | some (_, op, form) => some (op, form)
  | none => Option.none

/-- The value of a digit in a base, if it is one. -/
def digitValue (base : Nat) (c : Char) : Option Nat :=
  let n := c.toNat
  let v :=
    if 48 ≤ n ∧ n ≤ 57 then n - 48
    else if 65 ≤ n ∧ n ≤ 70 then n - 55
    else if 97 ≤ n ∧ n ≤ 102 then n - 87
    else base
  if v < base then some v else Option.none

/-- The number that digits spell, most significant first, after `acc`. -/
def digitsValue (base : Nat) : Nat → List Char → Option Nat
  | acc, [] => some acc
  | acc, c :: rest =>
    match digitValue base c with
    | some v => digitsValue base (base * acc + v) rest
    | Option.none => Option.none

/-- A decimal or a `0x` hexadecimal number of at least one digit. -/
def parseNumber : List Char → Option Nat
  | [] => Option.none
  | ['0', 'x'] => Option.none
  | '0' :: 'x' :: rest => digitsValue 16 0 rest
  | cs => digitsValue 10 0 cs

/-- The largest operand of a form, plus one (30_encoding.md R92). -/
def operandBound : OperandForm → Nat
  | .byte => 2 ^ 8
  | .code => 2 ^ 15
  | .none => 0
  | .word => 2 ^ 16

/-- The pieces of a text between separators, empty ones included. -/
def splitChars (sep : Char → Bool) : List Char → List (List Char)
  | [] => [[]]
  | c :: rest =>
    match splitChars sep rest with
    | [] => [[c]]
    | piece :: pieces => if sep c then [] :: piece :: pieces else (c :: piece) :: pieces

/-- The words of a line, its comment cut off. -/
def lineWords (line : List Char) : List (List Char) :=
  (splitChars (fun c => c == ' ' || c == '\t' || c == '\r') (line.takeWhile (fun c => c != ';'))).filter (fun t => t ≠ [])

/-- The command word of a line's words (30_encoding.md R94): the operand's value goes into `data`. -/
def assembleWords : List (List Char) → Option CmdWord
  | [name] =>
    match lookupMnemonic name with
    | some (op, .none) => some (commandWord op 0#16)
    | _ => Option.none
  | [name, operand] =>
    match lookupMnemonic name, parseNumber operand with
    | some (op, form), some v => if v < operandBound form then some (commandWord op (BitVec.ofNat 16 v)) else Option.none
    | _, _ => Option.none
  | _ => Option.none

/-- The command words of a program's lines in order, blank lines left out; none if a line is no command. -/
def assembleLines : List (List Char) → Option (List CmdWord)
  | [] => some []
  | line :: rest =>
    match lineWords line, assembleLines rest with
    | [], ws => ws
    | words, some ws =>
      match assembleWords words with
      | some w => some (w :: ws)
      | Option.none => Option.none
    | _, Option.none => Option.none

/-- The command words of a program text (30_encoding.md R94): "a list of commands, one per line, executed in order". -/
def assemble (text : List Char) : Option (List CmdWord) := assembleLines (splitChars (fun c => c == '\n') text)

end Sys2Proof.Machine
end

