-- ==== Sys2Proof/Tests/Slice0.lean ====
section
/-! SUPPORT. The model's own tests. Expected values come from spec/: 95_test_vectors.md (S1 to S5, V1 to V7, P1 to P6) and the
encodings of 30_encoding.md R80, R91, R94. Then one witness for each obligation with hypotheses: a concrete state and
operands that meet them all, clause by clause. -/

set_option Elab.async false

namespace Sys2Proof.Machine

/-! ### Helpers -/

/-- The state an outcome goes on in. -/
def after : Host.Outcome State Fault Refusal → Option State
  | .next t => some t
  | .fault _ => none
  | .refused _ => none

/-- The codepoints of an answer. -/
def codesOf (r : Host.Outcome State Fault Refusal) : Option (List Nat) :=
  (after r).map fun t => (itemCodes t.resp.out).map BitVec.toNat

/-- The bytes of an answer. -/
def bytesOf (r : Host.Outcome State Fault Refusal) : Option (List Nat) :=
  (after r).map fun t => (itemBytes t.resp.out).map BitVec.toNat

/-- STATUS after an answer. -/
def statusOf (r : Host.Outcome State Fault Refusal) : Option Nat := (after r).map fun t => t.status.toNat

/-- A test state: power-on with another Encoder. -/
def withEnc (e : Enc) : State := { State.reset with enc := e }

/-- A test state: power-on with another Decoder. -/
def withDe (d : De) : State := { State.reset with de := d }

/-- A test state: power-on with a Packer at a width, with pending bits. -/
def withPk (width : BitVec 4) (thresh : Word16) (buf : BitString) : State :=
  { State.reset with pk := { State.reset.pk with width := width, thresh := thresh, buf := buf } }

/-- A test state: power-on with an Unpacker at a width, with bits of a field. -/
def withUp (width : BitVec 4) (acc : BitString) : State :=
  { State.reset with up := { State.reset.up with width := width, acc := acc } }

/-- A test state: power-on with one fault code in the four units. -/
def allFaulted (f : FaultCode) : State where
  enc := { State.reset.enc with ctl := { done := false, fault := f } }
  de := { State.reset.de with ctl := { done := false, fault := f } }
  pk := { State.reset.pk with ctl := { done := false, fault := f } }
  up := { State.reset.up with ctl := { done := false, fault := f } }
  cmd := { fault := .none }
  resp := Response.empty
  port := []

/-- A test state: the four units closed. -/
def allClosed : State where
  enc := { State.reset.enc with ctl := { done := true, fault := .none } }
  de := { State.reset.de with ctl := { done := true, fault := .none } }
  pk := { State.reset.pk with ctl := { done := true, fault := .none } }
  up := { State.reset.up with ctl := { done := true, fault := .none } }
  cmd := { fault := .none }
  resp := Response.empty
  port := []

/-- A test state: the port blocked. -/
def blocked : State := { State.reset with cmd := { fault := .illegalCommand } }

/-! ### Decoding: a word written out from the encoding of every row -/

theorem test_decode_enc_byte : decodeTableWord 24 0b00000000000001100001 = some (.encByte 97#8) := by decide
theorem test_decode_enc_end : decodeTableWord 24 0b00010000000000000000 = some .encEnd := by decide
theorem test_decode_pack_code : decodeTableWord 24 0b00100000000100000001 = some (.packCode 257#15) := by decide
theorem test_decode_pack_end : decodeTableWord 24 0b00110000000000000000 = some .packEnd := by decide
theorem test_decode_unpk_byte : decodeTableWord 24 0b01000000000011000000 = some (.unpkByte 0xC0#8) := by decide
theorem test_decode_unpk_end : decodeTableWord 24 0b01010000000000000000 = some .unpkEnd := by decide
theorem test_decode_dec_code : decodeTableWord 24 0b01100000000100000011 = some (.decCode 259#15) := by decide
theorem test_decode_dec_end : decodeTableWord 24 0b01110000000000000000 = some .decEnd := by decide
theorem test_decode_dec_resolve : decodeTableWord 24 0b10000000000100000000 = some (.decResolve 256#15) := by decide
theorem test_decode_cmp_byte : decodeTableWord 24 0b10010000000001100111 = some (.cmpByte 0x67#8) := by decide
theorem test_decode_cmp_end : decodeTableWord 24 0b10100000000000000000 = some .cmpEnd := by decide
theorem test_decode_dcmp_byte : decodeTableWord 24 0b10110000000000110011 = some (.dcmpByte 0x33#8) := by decide
theorem test_decode_dcmp_end : decodeTableWord 24 0b11000000000000000000 = some .dcmpEnd := by decide
theorem test_decode_init : decodeTableWord 24 0b11011000000000000000 = some (.init 32768#16) := by decide
theorem test_decode_init_pack : decodeTableWord 24 0b11100000000100000010 = some (.initPack 258#16) := by decide
theorem test_decode_reserved : decodeTableWord 24 0b11111111111111111111 = some (.reserved 0xFFFF#16) := by decide
theorem test_decode_cp_eoi : decodeTableWord 16 0b000000100000000 = some .cpEoi := by decide
theorem test_decode_cp_bump : decodeTableWord 16 0b000000100000001 = some .cpBump := by decide
theorem test_decode_cp_clear : decodeTableWord 16 0b000000100000010 = some .cpClear := by decide
theorem test_decode_cp_literal : decodeTableWord 16 0b000000011111111 = some (.cpLiteral 255#8) := by decide
theorem test_decode_cp_dynamic : decodeTableWord 16 0b000000100000011 = some (.cpDynamic 259#15) := by decide
theorem test_decode_cp_dynamic_last : decodeTableWord 16 0b111111111111111 = some (.cpDynamic 32767#15) := by decide

/-- Words that R92 does not call well-formed (V7), by the name of the rejection. -/
theorem test_decode_rejects :
    decode (.cmd 0x00100#20) = .error .byteOperandTooWide ∧ decode (.cmd 0x28000#20) = .error .codeOperandTooWide ∧
      decode (.cmd 0x10001#20) = .error .endOperandNotZero := by decide

/-- A table word with a bit outside its format is no instruction. -/
theorem test_decode_outside_format :
    decodeTableWord 24 0x100061 = none ∧ decodeTableWord 16 0x8100 = none := by decide

/-- Assembled text gives the words of R94 and V7; a comment and a blank line give none. -/
theorem test_assemble :
    assemble "ENC_BYTE 0x61 ; a\n\nDEC_CODE 259\nINIT 32768\nENC_END\n".toList =
      some [0x00061#20, 0x60103#20, 0xD8000#20, 0x10000#20] := by decide

/-- An operand out of its form's range, a missing operand and an unknown mnemonic are no commands. -/
theorem test_assemble_rejects :
    assemble "ENC_BYTE 256".toList = none ∧ assemble "ENC_BYTE".toList = none ∧ assemble "ENC_END 0".toList = none ∧
      assemble "NOP".toList = none := by decide

/-! ### WellFormed: one check, and the ill-formed terms it refuses -/

theorem test_wf_cp_dynamic_bounds :
    (Instr.cpDynamic 259#15).wf = true ∧ (Instr.cpDynamic 32767#15).wf = true ∧ (Instr.cpDynamic 258#15).wf = false ∧
      (Instr.cpDynamic 257#15).wf = false ∧ (Instr.cpDynamic 256#15).wf = false ∧ (Instr.cpDynamic 0#15).wf = false := by
  decide

theorem test_well_formed_words :
    [0xE8000#20, 0xC0000#20, 0x400C0#20, 0x67FFF#20].map wellFormedWord = [true, true, true, true] ∧
      [0xF0000#20, 0x00100#20, 0x28000#20, 0x10001#20].map wellFormedWord = [false, false, false, false] := by decide

/-! ### Bit utilities (V1) -/

theorem test_bytes_to_bits : bytesToBits [0xA5#8] = [true, false, true, false, false, true, false, true] := by decide

theorem test_bits_to_int : bitsToInt [false, false, true] = 1 ∧ bitsToInt (List.replicate 15 true) = 32767 := by decide

theorem test_int_to_bits :
    intToBits 97 9 = some [false, false, true, true, false, false, false, false, true] ∧ intToBits 512 9 = none := by decide

theorem test_bits_to_bytes :
    bitsToBytes (fieldBits 9 1 ++ fieldBits 9 257) = [0x00#8, 0xC0#8, 0x40#8] ∧ bitsToBytes [true] = [0x80#8] := by decide

/-! ### One step of each instruction -/

/-- S1, line 2: "a" after the prefix "g" emits 103 and defines 259. -/
theorem test_enc_byte_defines :
    ((after (exec (.encByte 0x61#8) (withEnc (encGrown 0 [0x67#8] 32768#16)))).map fun t =>
      (t.resp.out, t.enc.size, t.enc.pfx, dictRead t.enc.dict [0x67#8, 0x61#8])) =
      some ([.code 103#15], 260#16, [0x61#8], some 259#15) := by decide +kernel

/-- V2: with m = 260 the second byte of "abc" emits 97, 98, 256 and leaves the size at 259. -/
theorem test_enc_byte_flushes :
    ((after (exec (.encByte 0x62#8) (withEnc (encGrown 0 [0x61#8] 260#16)))).map fun t =>
      (t.resp.out, t.enc.size, t.enc.pfx)) =
      some ([.code 97#15, .code 98#15, .code 256#15], 259#16, []) := by decide +kernel

/-- V2: "a" and ENC_END emit 97, 256; ENC.done shows in STATUS. -/
theorem test_enc_end :
    codesOf (exec .encEnd (withEnc (encGrown 0 [0x61#8] 32768#16))) = some [97, 256] ∧
      statusOf (exec .encEnd State.reset) = some 0x100000 := by decide +kernel

/-- V4: PACK_CODE 1 emits 00 and leaves one bit, 1. -/
theorem test_pack_code :
    bytesOf (exec (.packCode 1#15) State.reset) = some [0x00] ∧
      ((after (exec (.packCode 1#15) State.reset)).map fun t => t.pk.buf) = some [true] := by decide +kernel

/-- V4: 600 does not fit width 9 (CODE_TOO_WIDE); 256 after one pending bit 1 is c0 00. -/
theorem test_pack_code_edges :
    statusOf (exec (.packCode 600#15) State.reset) = some 0x000040 ∧
      bytesOf (exec (.packCode 256#15) (withPk 9#4 511#16 [true])) = some [0xc0, 0x00] := by decide +kernel

/-- P5: the last byte is 0101100 padded with one 0. -/
theorem test_pack_end :
    bytesOf (exec .packEnd (withPk 9#4 511#16 [false, true, false, true, true, false, false])) = some [0x58] ∧
      bytesOf (exec .packEnd State.reset) = some [] := by decide +kernel

/-- V5: 80 emits nothing, then 00 completes 256 and its last 7 bits are skipped. -/
theorem test_unpk_byte :
    codesOf (exec (.unpkByte 0x80#8) State.reset) = some [] ∧
      ((after (exec (.unpkByte 0x00#8) (withUp 9#4 (bytesToBits [0x80#8])))).map fun t => (t.resp.out, t.up.acc)) =
        some ([.code 256#15], []) := by decide +kernel

/-- V5: the BUMP at width 15 records WIDTH_OVERFLOW and UP.acc keeps its 15 bits. -/
theorem test_unpk_byte_overflow :
    ((after (exec (.unpkByte 0x10#8) (withUp 15#4 (fieldBits 11 16)))).map fun t =>
      (t.resp.out, bitsToInt t.up.acc, t.status)) = some ([], 257, 0x000600#24) := by decide +kernel

/-- V5: UNPK_END drops the bits left over. -/
theorem test_unpk_end :
    ((after (exec .unpkEnd (withUp 9#4 [true, true]))).map fun t => (t.up.acc, t.status)) = some ([], 0x400000#24) := by
  decide +kernel

/-- V3: after 97, DEC_CODE 259 is the special case and gives 61 61. -/
theorem test_dec_code_special :
    bytesOf (exec (.decCode 259#15) (withDe (decGrown 0 (some [0x61#8])))) = some [0x61, 0x61] := by decide +kernel

/-- V3: DEC_CODE 259 with no prefix is UNKNOWN_CODE. -/
theorem test_dec_code_unknown : statusOf (exec (.decCode 259#15) State.reset) = some 0x005000 := by decide +kernel

/-- V3: DEC_END sets DE.done. -/
theorem test_dec_end : statusOf (exec .decEnd State.reset) = some 0x800000 := by decide +kernel

/-- V3: DEC_RESOLVE 256 is PROTOCOL_MISUSE; DEC_RESOLVE 97 gives 61. -/
theorem test_dec_resolve :
    statusOf (exec (.decResolve 256#15) State.reset) = some 0x002000 ∧
      bytesOf (exec (.decResolve 97#15) State.reset) = some [0x61] := by decide +kernel

/-- P1, line 2: CMP_BYTE 0x61 after the prefix "g" gives 33. -/
theorem test_cmp_byte :
    bytesOf (exec (.cmpByte 0x61#8) (withEnc (encGrown 0 [0x67#8] 32768#16))) = some [0x33] := by decide +kernel

/-- S3: CMP_END on nothing gives 80 00. -/
theorem test_cmp_end : bytesOf (exec .cmpEnd State.reset) = some [0x80, 0x00] := by decide +kernel

/-- P2, line 2: DCMP_BYTE 0x98 after 0x33 gives 67. -/
theorem test_dcmp_byte :
    bytesOf (exec (.dcmpByte 0x98#8) (withUp 9#4 (bytesToBits [0x33#8]))) = some [0x67] := by decide +kernel

/-- S3: DCMP_BYTE 0x00 after 0x80 ends a block and gives nothing. -/
theorem test_dcmp_byte_block_end :
    ((after (exec (.dcmpByte 0x00#8) (withUp 9#4 (bytesToBits [0x80#8])))).map fun t => t.resp) =
      some { out := [], blkEnd := true } := by decide +kernel

/-- P2, line 18: DCMP_END closes UP and DE. -/
theorem test_dcmp_end : statusOf (exec .dcmpEnd State.reset) = some 0xC00000 := by decide +kernel

/-- V2: INIT 258, 32769 and 0 are CONFIG_ERROR; INIT 259 is legal. -/
theorem test_init :
    [258#16, 32769#16, 0#16, 259#16].map (fun m => statusOf (exec (.init m) State.reset)) =
      [some 1, some 1, some 1, some 0] := by decide +kernel

/-- P4, line 8: INIT_PACK is blocked by CMD.fault; else it sets the count and clears the Packer's fault. -/
theorem test_init_pack :
    after (exec (.initPack 258#16) blocked) = some blocked ∧
      ((after (exec (.initPack 258#16) (allFaulted .codeTooWide))).map fun t => (t.pk.count, t.pk.ctl.fault)) =
        some (258#16, .none) := by decide +kernel

/-- V7: 0xF0000 gives STATUS 0x080000. -/
theorem test_reserved : statusOf (step (State.reset.withFetchWord 24 0xF0000)) = some 0x080000 := by decide +kernel

/-- V7: an END command with data is an illegal word too. -/
theorem test_illegal_word : statusOf (step { State.reset with port := [.cmd 0x10001#20] }) = some 0x080000 := by
  decide +kernel

/-- V3: END_OF_INFO answers `blk_end`. -/
theorem test_cp_eoi :
    ((after (exec .cpEoi (withDe (decGrown 1 (some [0x61#8]))))).map fun t => (t.resp, t.de.size, t.de.pfx)) =
      some ({ out := [], blkEnd := true }, 259#16, none) := by decide +kernel

/-- V3: BUMP keeps the prefix. -/
theorem test_cp_bump :
    ((after (exec .cpBump (withDe (decGrown 0 (some [0x61#8]))))).map fun t => (t.resp, t.de.pfx)) =
      some ({ out := [], blkEnd := false }, some [0x61#8]) := by decide +kernel

/-- V3: CLEAR drops the prefix and ends no block. -/
theorem test_cp_clear :
    ((after (exec .cpClear (withDe (decGrown 1 (some [0x61#8]))))).map fun t => (t.resp, t.de.size, t.de.pfx)) =
      some ({ out := [], blkEnd := false }, 259#16, none) := by decide +kernel

/-- V3: 98 after the prefix "a" gives 62 and defines 259 = "ab". -/
theorem test_cp_literal :
    ((after (exec (.cpLiteral 0x62#8) (withDe (decGrown 0 (some [0x61#8]))))).map fun t =>
      (t.resp.out, dictRead t.de.dict 259#15)) = some ([.byte 0x62#8], some [0x61#8, 0x62#8]) := by decide +kernel

/-- V3: 261 above the size 260 is UNKNOWN_CODE. -/
theorem test_cp_dynamic :
    statusOf (exec (.cpDynamic 261#15) (withDe (decGrown 1 (some [0x61#8])))) = some 0x005000 := by decide +kernel

/-! ### The transforms -/

/-- 30_encoding.md R89: the empty input is END_OF_INFO in 9 bits, padded: 80 00. -/
theorem test_compress_empty : (compress 32768#16 [] State.reset).map (·.2) = some [0x80#8, 0x00#8] := by decide +kernel

/-- 44_facade.md R275: 12C is 300, no code of an empty Decoder, so UNKNOWN_CODE is recorded and decompress is not defined,
while the command sequence runs. -/
theorem test_decompress_malformed :
    (decompress [0x96#8, 0x00#8] State.reset).isNone ∧
      (runCommands (decompressCommands [0x96#8, 0x00#8]) State.reset).map (·.1.de.ctl.fault) = some .unknownCode := by
  decide +kernel

/-- 44_facade.md R274: 9..15 give 512..32768 (00_scope.md R6); outside, and for an illegal m, the model's none (log 14). -/
theorem test_transform_domain :
    maxOfWidth 9 = some 512#16 ∧ maxOfWidth 15 = some 32768#16 ∧ maxOfWidth 8 = none ∧ maxOfWidth 16 = none ∧
      (compress 258#16 [] State.reset).isNone ∧ (compressWidth 16 [] State.reset).isNone := by decide +kernel

/-- 44_facade.md R277: 1 and 257 in 9 bits are 00 C0 40. -/
theorem test_packedStream : packedStream [1#15, 257#15] = some [0x00#8, 0xC0#8, 0x40#8] := by decide +kernel

/-- 40_bit_utilities.md R122: 600 has no field of 9 bits. The seventh BUMP is the model's none (log 15). -/
theorem test_packedStream_domain :
    packedStream [600#15] = none ∧ packedStream (List.replicate 7 257#15) = none := by decide +kernel

/-! ### Witnesses: for each obligation with hypotheses, a state and operands that meet them -/

theorem next_of_after {r : Host.Outcome State Fault Refusal} {p : State → Bool} (h : (after r).any p = true) :
    ∃ t, r = .next t ∧ p t = true := by
  cases r with
  | next t => exact ⟨t, rfl, h⟩
  | fault f => cases h
  | refused f => cases h

theorem pk_ok (p : Pk) (h : 9 ≤ p.width.toNat ∧ p.thresh.toNat = 2 ^ p.width.toNat - 1 ∧ p.buf.length ≤ 7 ∧
    p.ctl.fault ∈ [FaultCode.none, .codeTooWide, .widthOverflow, .streamClosed]) : PkOk p := ⟨h.1, h.2.1, h.2.2.1, h.2.2.2⟩

theorem up_ok (u : Up) (h : 9 ≤ u.width.toNat ∧ u.acc.length < u.width.toNat ∧ (u.off = 0#3 ∧ u.skip = false) ∧
    u.ctl.fault ∈ [FaultCode.none, .widthOverflow, .streamClosed]) : UpOk u :=
  ⟨h.1, fun _ => h.2.1, Nat.le_of_lt h.2.1, h.2.2.1, h.2.2.2⟩

/-- An Encoder with prefix "a" and nothing defined meets EncOk, at the default maximum. -/
theorem enc_a_ok : EncOk (encGrown 0 [0x61#8] 32768#16) :=
  encGrown_ok (by decide) (by decide) (by decide) (.inr (by decide +kernel))

/-- An Encoder with 252 strings, size 511 and prefix 00 meets EncOk. -/
theorem enc_511_ok : EncOk (encGrown 252 [0x00#8] 32768#16) :=
  encGrown_ok (by decide) (by decide) (by decide) (.inr (by decide +kernel))

/-- A Decoder with one string, size 260 and prefix "a" meets DeOk. -/
theorem de_260_ok : DeOk (decGrown 1 (some [0x61#8])) :=
  decGrown_ok (by decide) (fun p h => by cases h; decide +kernel) (fun h => by cases h)

/-- A Decoder with nothing defined and no prefix meets DeOk. -/
theorem de_259_ok : DeOk (decGrown 0 none) :=
  decGrown_ok (by decide) (fun p h => by cases h) (fun _ => rfl)

theorem witness_DecodeOfEncodeIsTheInstruction :
    (Instr.cpDynamic 259#15).wf = true ∧ (Instr.decCode 32767#15).wf = true ∧ (Instr.encByte 255#8).wf = true := by decide

theorem witness_EncodeOfDecodeIsTheWord :
    decode (.cmd 0x67FFF#20) = .ok (.decCode 32767#15) ∧ decode (.code 0x0103#15) = .ok (.cpDynamic 259#15) := by decide

theorem witness_StepRunsTheDecodedInstruction :
    (State.reset.withFetchWord 24 0x00061).port = .cmd 0x00061#20 :: [] ∧
      decode (.cmd 0x00061#20) = .ok (.encByte 0x61#8) := by decide

theorem witness_IdleStepChangesNothing : State.reset.port = [] := rfl

theorem witness_DispatchFollowsItsProcedure :
    ({ blocked with port := [.cmd 0xD8000#20] }.port = .cmd 0xD8000#20 :: [] ∧ (0xD8000#20).toNat / 65536 = 13) ∧
    ({ blocked with port := [.cmd 0xE0102#20] }.port = .cmd 0xE0102#20 :: [] ∧ (0xE0102#20).toNat / 65536 ≠ 13 ∧
      blocked.cmd.fault ≠ .none) ∧
    ((State.reset.withFetchWord 24 0xF0000).port = .cmd 0xF0000#20 :: [] ∧
      (State.reset.withFetchWord 24 0xF0000).cmd.fault = .none ∧ wellFormedWord 0xF0000#20 = false) ∧
    ((State.reset.withFetchWord 24 0x20101).port = .cmd 0x20101#20 :: [] ∧
      (State.reset.withFetchWord 24 0x20101).cmd.fault = .none ∧ wellFormedWord 0x20101#20 = true) := by decide

theorem witness_IllegalWordSetsOnlyCmdFault :
    ((State.reset.withFetchWord 24 0x10001).port = .cmd 0x10001#20 :: [] ∧ wellFormedWord 0x10001#20 = false ∧
      (State.reset.withFetchWord 24 0x10001).cmd.fault = .none) ∧
    ((blocked.withFetchWord 24 0x28000).port = .cmd 0x28000#20 :: [] ∧ wellFormedWord 0x28000#20 = false ∧
      (blocked.withFetchWord 24 0x28000).cmd.fault ≠ .none) ∧ wellFormedWord 0x67FFF#20 = true := by decide

theorem witness_ReservedOpcodeRecordsIllegalCommand : State.reset.cmd.fault = .none := rfl

theorem witness_BlockedPortIgnoresAllButInit : blocked.cmd.fault ≠ .none ∧ ∀ m, Instr.initPack 258#16 ≠ .init m := by
  refine ⟨by decide, ?_⟩
  intro m h
  cases h

theorem witness_FaultedUnitIgnoresItsCommands :
    (allFaulted .streamClosed).unblocked ∧ (allFaulted .streamClosed).enc.ctl.fault ≠ .none ∧
      (allFaulted .streamClosed).pk.ctl.fault ≠ .none ∧ (allFaulted .streamClosed).up.ctl.fault ≠ .none ∧
      (allFaulted .streamClosed).de.ctl.fault ≠ .none := by decide

theorem witness_ClosedUnitRecordsStreamClosed :
    allClosed.unblocked ∧
      (allClosed.enc.ctl.fault = .none ∧ allClosed.enc.ctl.done = true) ∧
      (allClosed.pk.ctl.fault = .none ∧ allClosed.pk.ctl.done = true) ∧
      (allClosed.up.ctl.fault = .none ∧ allClosed.up.ctl.done = true) ∧
      (allClosed.de.ctl.fault = .none ∧ allClosed.de.ctl.done = true) ∧
      Instr.encEnd ∈ [Instr.encEnd] ∧ (∃ b, Instr.encByte 0#8 = .encByte b) ∧
      Instr.packEnd ∈ [Instr.packEnd] ∧ (∃ cp, Instr.packCode 256#15 = .packCode cp) ∧
      Instr.unpkEnd ∈ [Instr.unpkEnd] ∧ (∃ b, Instr.unpkByte 255#8 = .unpkByte b) ∧
      Instr.cpClear ∈ [Instr.decEnd, .cpEoi, .cpBump, .cpClear] ∧
      (∃ cp, Instr.decCode 32767#15 = .decCode cp ∨ Instr.decCode 32767#15 = .decResolve cp ∨
        Instr.decCode 32767#15 = .cpDynamic cp) ∧
      (∃ b, Instr.cpLiteral 0#8 = .cpLiteral b) := by
  refine ⟨rfl, ⟨rfl, rfl⟩, ⟨rfl, rfl⟩, ⟨rfl, rfl⟩, ⟨rfl, rfl⟩, .head _, ⟨_, rfl⟩, .head _, ⟨_, rfl⟩, .head _, ⟨_, rfl⟩,
    by decide, ⟨_, .inl rfl⟩, ⟨_, rfl⟩⟩

theorem witness_FaultsAreSticky :
    (∃ t, exec (.packCode 1#15) (allFaulted .streamClosed) = .next t ∧ decide (t.pk.ctl.fault ≠ .none) = true) ∧
      (∀ m, Instr.packCode 1#15 ≠ .init m) ∧ (∀ n, Instr.packCode 1#15 ≠ .initPack n) ∧
      (allFaulted .streamClosed).enc.ctl.fault ≠ .none ∧ (allFaulted .streamClosed).de.ctl.fault ≠ .none ∧
      (allFaulted .streamClosed).up.ctl.fault ≠ .none ∧ (allFaulted .streamClosed).pk.ctl.fault ≠ .none ∧
      (∃ t, exec (.packCode 1#15) blocked = .next t ∧ decide (t.cmd.fault ≠ .none) = true) ∧ blocked.cmd.fault ≠ .none := by
  refine ⟨next_of_after (by decide +kernel), ?_, ?_, by decide, by decide, by decide, by decide,
    next_of_after (by decide +kernel), by decide⟩
  · intro m h
    cases h
  · intro m h
    cases h

theorem witness_UnitsWriteOnlyTheirOwnFields :
    (∃ t, exec (.packCode 1#15) State.reset = .next t ∧ decide (t.pk.buf = [true]) = true) ∧
      touchesEnc (.packCode 1#15) = false ∧ touchesUp (.packCode 1#15) = false ∧ touchesDe (.packCode 1#15) = false ∧
      (∃ t, exec (.decCode 97#15) State.reset = .next t ∧ decide (t.de.pfx = some [0x61#8]) = true) ∧
      touchesPk (.decCode 97#15) = false ∧ (∀ m, Instr.decCode 97#15 ≠ .init m) ∧
      (∀ n, Instr.decCode 97#15 ≠ .initPack n) ∧ (∀ d, Instr.decCode 97#15 ≠ .reserved d) := by
  refine ⟨next_of_after (by decide +kernel), rfl, rfl, rfl, next_of_after (by decide +kernel), rfl, ?_, ?_, ?_⟩
  · intro m h
    cases h
  · intro m h
    cases h
  · intro m h
    cases h

theorem witness_BlockEndMeansEndOfInfo :
    (∃ t, exec .cpEoi State.reset = .next t ∧ t.resp.blkEnd = true) ∧
      (∃ t, exec (.decCode 256#15) State.reset = .next t ∧ t.resp.blkEnd = true) ∧
      (∃ t, exec (.dcmpByte 0x00#8) (withUp 9#4 (bytesToBits [0x80#8])) = .next t ∧ t.resp.blkEnd = true) :=
  ⟨next_of_after (p := fun t => t.resp.blkEnd) (by decide +kernel),
    next_of_after (p := fun t => t.resp.blkEnd) (by decide +kernel),
    next_of_after (p := fun t => t.resp.blkEnd) (by decide +kernel)⟩

/-- Clause 1 at the last size below the cap (260 below 261), and clause 2. -/
theorem witness_EncByteExtendsThePrefix :
    ((withEnc (encGrown 1 [0x00#8] 261#16)).unblocked ∧ (withEnc (encGrown 1 [0x00#8] 261#16)).enc.ctl.ready ∧
      dictHas (encGrown 1 [0x00#8] 261#16).dict ([0x00#8] ++ [0x00#8]) = true ∧
      (encGrown 1 [0x00#8] 261#16).size.toNat < (encGrown 1 [0x00#8] 261#16).max.toNat ∧
      (encGrown 1 [0x00#8] 261#16).size.toNat ≤ (encGrown 1 [0x00#8] 261#16).thresh.toNat) ∧
    (EncOk (encGrown 0 [] 259#16) ∧ (encGrown 0 [] 259#16).pfx = []) :=
  ⟨by decide +kernel, encGrown_ok (by decide) (by decide) (by decide) (.inl rfl), rfl⟩

/-- At size 510, whose insertion reaches the threshold and one below the cap. -/
theorem witness_EncByteEmitsAndDefines :
    (withEnc (encGrown 251 [0x00#8] 512#16)).unblocked ∧ (withEnc (encGrown 251 [0x00#8] 512#16)).enc.ctl.ready ∧
      dictHas (encGrown 251 [0x00#8] 512#16).dict ([0x00#8] ++ [0xFF#8]) = false ∧
      (encGrown 251 [0x00#8] 512#16).pfx ≠ [] ∧ dictRead (encGrown 251 [0x00#8] 512#16).dict [0x00#8] = some 0#15 ∧
      (encGrown 251 [0x00#8] 512#16).size.toNat < 32768 ∧
      (encGrown 251 [0x00#8] 512#16).size.toNat + 1 < (encGrown 251 [0x00#8] 512#16).max.toNat ∧
      (encGrown 251 [0x00#8] 512#16).size.toNat + 1 ≤ (encGrown 251 [0x00#8] 512#16).thresh.toNat := by decide +kernel

/-- Clause 1 at ENC.max = size + 1, clause 2 at ENC.max = 259. -/
theorem witness_EncByteFlushesAtTheCap :
    ((withEnc (encGrown 0 [0x61#8] 260#16)).unblocked ∧ (withEnc (encGrown 0 [0x61#8] 260#16)).enc.ctl.ready ∧
      dictHas (encGrown 0 [0x61#8] 260#16).dict ([0x61#8] ++ [0x62#8]) = false ∧
      dictRead (encGrown 0 [0x61#8] 260#16).dict [0x61#8] = some 97#15 ∧
      (encGrown 0 [0x61#8] 260#16).max.toNat ≤ (encGrown 0 [0x61#8] 260#16).size.toNat + 1) ∧
    EncOk (withEnc (encGrown 0 [0x61#8] 260#16)).enc ∧
    ((withEnc (encGrown 0 [] 259#16)).unblocked ∧ (withEnc (encGrown 0 [] 259#16)).enc.ctl.ready ∧
      dictHas (encGrown 0 [] 259#16).dict ([] ++ [0x62#8]) = true ∧
      (encGrown 0 [] 259#16).max.toNat ≤ (encGrown 0 [] 259#16).size.toNat) ∧
    EncOk (withEnc (encGrown 0 [] 259#16)).enc :=
  ⟨by decide +kernel, encGrown_ok (by decide) (by decide) (by decide) (.inr (by decide +kernel)), by decide +kernel,
    encGrown_ok (by decide) (by decide) (by decide) (.inl rfl)⟩

/-- At size 511, the first BUMP (V2). -/
theorem witness_EncByteBumpsPastTheThreshold :
    ((withEnc (encGrown 252 [0x00#8] 32768#16)).unblocked ∧ (withEnc (encGrown 252 [0x00#8] 32768#16)).enc.ctl.ready ∧
      dictHas (encGrown 252 [0x00#8] 32768#16).dict ([0x00#8] ++ [0xFF#8]) = false ∧
      dictRead (encGrown 252 [0x00#8] 32768#16).dict [0x00#8] = some 0#15 ∧
      (encGrown 252 [0x00#8] 32768#16).size.toNat + 1 < (encGrown 252 [0x00#8] 32768#16).max.toNat ∧
      (encGrown 252 [0x00#8] 32768#16).thresh.toNat < (encGrown 252 [0x00#8] 32768#16).size.toNat + 1) ∧
    EncOk (withEnc (encGrown 252 [0x00#8] 32768#16)).enc := ⟨by decide +kernel, enc_511_ok⟩

theorem witness_EncByteOutputShapes :
    (withEnc (encGrown 0 [0x61#8] 32768#16)).unblocked ∧ (withEnc (encGrown 0 [0x61#8] 32768#16)).enc.ctl.ready ∧
      EncOk (withEnc (encGrown 0 [0x61#8] 32768#16)).enc := ⟨by decide, by decide, enc_a_ok⟩

theorem witness_EncEndFlushesAndCloses :
    State.reset.unblocked ∧ State.reset.enc.ctl.ready ∧ State.reset.enc.pfx = [] ∧
      (withEnc (encGrown 0 [0x61#8] 32768#16)).unblocked ∧ (withEnc (encGrown 0 [0x61#8] 32768#16)).enc.ctl.ready ∧
      (encGrown 0 [0x61#8] 32768#16).pfx ≠ [] ∧ dictRead (encGrown 0 [0x61#8] 32768#16).dict [0x61#8] = some 97#15 ∧
      ((allFaulted .dictCeiling).unblocked ∧ (allFaulted .dictCeiling).enc.ctl.fault ≠ .none) ∧
      (allClosed.unblocked ∧ allClosed.enc.ctl.fault = .none ∧ allClosed.enc.ctl.done = true) := by decide +kernel

theorem witness_EmittedCodesFitTheWidth :
    EncOk (withEnc (encGrown 0 [0x61#8] 32768#16)).enc ∧ (withEnc (encGrown 0 [0x61#8] 32768#16)).unblocked ∧
      (∃ t, exec (.encByte 0x62#8) (withEnc (encGrown 0 [0x61#8] 32768#16)) = .next t ∧
        decide (Item.code 97#15 ∈ t.resp.out) = true) ∧
      (∃ t, exec .encEnd (withEnc (encGrown 0 [0x61#8] 32768#16)) = .next t ∧
        decide (Item.code 256#15 ∈ t.resp.out) = true) :=
  ⟨enc_a_ok, by decide, next_of_after (by decide +kernel), next_of_after (by decide +kernel)⟩

/-- An ENC_BYTE that extends, one that emits, and one that flushes. -/
theorem witness_EncoderGrowthLaw :
    EncOk (withEnc (encGrown 1 [0x00#8] 261#16)).enc ∧ (withEnc (encGrown 1 [0x00#8] 261#16)).unblocked ∧
      (withEnc (encGrown 1 [0x00#8] 261#16)).enc.ctl.ready ∧
      (∃ t, exec (.encByte 0x00#8) (withEnc (encGrown 1 [0x00#8] 261#16)) = .next t ∧
        decide (Item.code 256#15 ∉ t.resp.out ∧ t.resp.out = []) = true) ∧
      (∃ t, exec (.encByte 0x01#8) (withEnc (encGrown 1 [0x00#8] 261#16)) = .next t ∧
        decide (Item.code 256#15 ∈ t.resp.out) = true) ∧
      EncOk (withEnc (encGrown 0 [0x61#8] 32768#16)).enc ∧ (withEnc (encGrown 0 [0x61#8] 32768#16)).unblocked ∧
      (withEnc (encGrown 0 [0x61#8] 32768#16)).enc.ctl.ready ∧
      (∃ t, exec (.encByte 0x62#8) (withEnc (encGrown 0 [0x61#8] 32768#16)) = .next t ∧
        decide (Item.code 256#15 ∉ t.resp.out ∧ t.resp.out ≠ []) = true) :=
  ⟨encGrown_ok (by decide) (by decide) (by decide) (.inr (by decide +kernel)), by decide, by decide,
    next_of_after (by decide +kernel), next_of_after (by decide +kernel), enc_a_ok, by decide, by decide,
    next_of_after (by decide +kernel)⟩

theorem witness_BumpLeavesTheDecoder :
    State.reset.unblocked ∧ State.reset.de.ctl.ready ∧
      Instr.cpBump ∈ [Instr.cpBump, .decCode 257#15, .decResolve 257#15] := by decide

theorem witness_EndOfInfoResetsTheDecoder :
    State.reset.unblocked ∧ State.reset.de.ctl.ready ∧ Instr.cpEoi ∈ [Instr.cpEoi, .decCode 256#15] := by decide

theorem witness_ClearResetsTheDecoder :
    State.reset.unblocked ∧ State.reset.de.ctl.ready ∧
      Instr.decResolve 258#15 ∈ [Instr.cpClear, .decCode 258#15, .decResolve 258#15] := by decide

/-- A literal (255) with no prefix, and a dynamic code (259, the least) with a prefix at the last size with room. -/
theorem witness_KnownCodeEmitsItsEntry :
    (State.reset.unblocked ∧ State.reset.de.ctl.ready ∧ isDataCode 255#15 ∧
      dictRead State.reset.de.dict 255#15 = some [0xFF#8] ∧ State.reset.de.pfx = none) ∧
    executesCode (.cpLiteral 255#8) 255#15 ∧
    ((withDe { decGrown 1 (some [0x61#8]) with size := 32767#16 }).unblocked ∧
      (withDe { decGrown 1 (some [0x61#8]) with size := 32767#16 }).de.ctl.ready ∧ isDataCode 259#15 ∧
      dictRead (decGrown 1 (some [0x61#8])).dict 259#15 = some [0x00#8, 0x00#8] ∧
      { decGrown 1 (some [0x61#8]) with size := 32767#16 }.size.toNat < 32768) ∧
    executesCode (.decResolve 259#15) 259#15 ∧ executesCode (.cpDynamic 259#15) 259#15 :=
  ⟨by decide +kernel, .inr (.inr (.inl ⟨255#8, by decide, rfl⟩)), by decide +kernel, .inr (.inl rfl),
    .inr (.inr (.inr ⟨by decide, rfl⟩))⟩

/-- The special case at 259, the least dynamic code. -/
theorem witness_SpecialCaseDefinesTheCode :
    ((withDe (decGrown 0 (some [0x61#8]))).unblocked ∧ (withDe (decGrown 0 (some [0x61#8]))).de.ctl.ready ∧
      259 ≤ (259#15).toNat ∧ dictRead (decGrown 0 (some [0x61#8])).dict 259#15 = none ∧
      (259#15).toNat = (decGrown 0 (some [0x61#8])).size.toNat ∧ (decGrown 0 (some [0x61#8])).pfx = some [0x61#8]) ∧
    executesCode (.decCode 259#15) 259#15 := ⟨by decide +kernel, .inl rfl⟩

/-- 259 at size 259 with no prefix, and 261 above the size 260. -/
theorem witness_UnknownCodeFaults :
    ((withDe (decGrown 0 none)).unblocked ∧ (withDe (decGrown 0 none)).de.ctl.ready ∧ isDataCode 259#15 ∧
      (259#15).toNat = (decGrown 0 none).size.toNat ∧ (decGrown 0 none).pfx = none) ∧
    DeOk (withDe (decGrown 0 none)).de ∧ executesCode (.cpDynamic 259#15) 259#15 ∧
    ((withDe (decGrown 1 (some [0x61#8]))).unblocked ∧ (withDe (decGrown 1 (some [0x61#8]))).de.ctl.ready ∧
      isDataCode 261#15 ∧ (decGrown 1 (some [0x61#8])).size.toNat < (261#15).toNat) ∧
    DeOk (withDe (decGrown 1 (some [0x61#8]))).de ∧ executesCode (.decCode 261#15) 261#15 :=
  ⟨by decide, de_259_ok, .inr (.inr (.inr ⟨by decide, rfl⟩)), by decide, de_260_ok, .inl rfl⟩

/-- At size 32768, the ceiling. -/
theorem witness_DecoderCeilingFaults :
    ((withDe { decGrown 0 (some [0x61#8]) with size := 32768#16 }).unblocked ∧
      (withDe { decGrown 0 (some [0x61#8]) with size := 32768#16 }).de.ctl.ready ∧ isDataCode 97#15 ∧
      dictRead (decGrown 0 (some [0x61#8])).dict 97#15 = some [0x61#8] ∧
      (decGrown 0 (some [0x61#8])).pfx = some [0x61#8] ∧
      32768 < { decGrown 0 (some [0x61#8]) with size := 32768#16 }.size.toNat + 1) ∧
    executesCode (.decCode 97#15) 97#15 := ⟨by decide +kernel, .inl rfl⟩

theorem witness_ResolveIsDecodeButForEndOfInfo :
    257#15 ≠ (256#15 : Code) ∧ State.reset.unblocked ∧ State.reset.de.ctl.ready ∧
      ¬ (allClosed.unblocked ∧ allClosed.de.ctl.ready) ∧ ¬ (blocked.unblocked ∧ blocked.de.ctl.ready) := by decide

theorem witness_DecEndClosesTheDecoder :
    (State.reset.unblocked ∧ State.reset.de.ctl.ready) ∧
      ((allFaulted .unknownCode).unblocked ∧ (allFaulted .unknownCode).de.ctl.fault ≠ .none) ∧
      (allClosed.unblocked ∧ allClosed.de.ctl.fault = .none ∧ allClosed.de.ctl.done = true) := by decide

/-- A literal; 259 below the size 260; 260, the special case. -/
theorem witness_ValidCodepointsComplete :
    (withDe (decGrown 1 (some [0x61#8]))).unblocked ∧ (withDe (decGrown 1 (some [0x61#8]))).de.ctl.ready ∧
      DeOk (withDe (decGrown 1 (some [0x61#8]))).de ∧ (decGrown 1 (some [0x61#8])).size.toNat < 32768 ∧
      259 ≤ (259#15).toNat ∧ (259#15).toNat < (decGrown 1 (some [0x61#8])).size.toNat ∧
      (260#15).toNat = (decGrown 1 (some [0x61#8])).size.toNat ∧ (decGrown 1 (some [0x61#8])).pfx ≠ none :=
  ⟨by decide, by decide, de_260_ok, by decide, by decide, by decide, by decide, by decide⟩

/-- The greatest code at width 9, BUMP at width 14, and END_OF_INFO and 32767 at width 15. -/
theorem witness_PackCodeWritesTheField :
    PkOk (withPk 9#4 511#16 [true]).pk ∧ PkOk (withPk 14#4 16383#16 []).pk ∧ PkOk (withPk 15#4 32767#16 []).pk ∧
      ((withPk 9#4 511#16 [true]).unblocked ∧ (withPk 9#4 511#16 [true]).pk.ctl.ready ∧
        (511#15).toNat < 2 ^ (withPk 9#4 511#16 [true]).pk.width.toNat ∧
        ¬ (511#15 = (257#15 : Code) ∧ (withPk 9#4 511#16 [true]).pk.width = 15#4)) ∧
      ((withPk 14#4 16383#16 []).unblocked ∧ (withPk 14#4 16383#16 []).pk.ctl.ready ∧
        (257#15).toNat < 2 ^ (withPk 14#4 16383#16 []).pk.width.toNat ∧
        ¬ (257#15 = (257#15 : Code) ∧ (withPk 14#4 16383#16 []).pk.width = 15#4)) ∧
      ((withPk 15#4 32767#16 []).unblocked ∧ (withPk 15#4 32767#16 []).pk.ctl.ready ∧
        (256#15).toNat < 2 ^ (withPk 15#4 32767#16 []).pk.width.toNat ∧
        (32767#15).toNat < 2 ^ (withPk 15#4 32767#16 []).pk.width.toNat ∧
        ¬ (32767#15 = (257#15 : Code) ∧ (withPk 15#4 32767#16 []).pk.width = 15#4)) :=
  ⟨pk_ok _ (by decide), pk_ok _ (by decide), pk_ok _ (by decide), by decide, by decide, by decide⟩

theorem witness_TooWideCodeIsNotPacked :
    State.reset.unblocked ∧ State.reset.pk.ctl.ready ∧ 2 ^ State.reset.pk.width.toNat ≤ (512#15).toNat := by decide

theorem witness_PackedBumpWidens :
    (withPk 14#4 16383#16 [true]).unblocked ∧ (withPk 14#4 16383#16 [true]).pk.ctl.ready ∧
      PkOk (withPk 14#4 16383#16 [true]).pk ∧ (withPk 14#4 16383#16 [true]).pk.width.toNat < 15 ∧
      (withPk 15#4 32767#16 []).unblocked ∧ (withPk 15#4 32767#16 []).pk.ctl.ready ∧ PkOk (withPk 15#4 32767#16 []).pk ∧
      (withPk 15#4 32767#16 []).pk.width = 15#4 :=
  ⟨by decide, by decide, pk_ok _ (by decide), by decide, by decide, by decide, pk_ok _ (by decide), by decide⟩

theorem witness_ControlCodesResetThePackedWidth :
    (withPk 15#4 32767#16 [true]).unblocked ∧ (withPk 15#4 32767#16 [true]).pk.ctl.ready ∧
      PkOk (withPk 15#4 32767#16 [true]).pk ∧ (256#15 = (256#15 : Code) ∨ 256#15 = (258#15 : Code)) ∧
      (258#15 = (256#15 : Code) ∨ 258#15 = (258#15 : Code)) :=
  ⟨by decide, by decide, pk_ok _ (by decide), by decide, by decide⟩

theorem witness_PackEndEmitsThePartialByte :
    State.reset.unblocked ∧ State.reset.pk.ctl.ready ∧ State.reset.pk.buf.length ≤ 7 ∧ State.reset.pk.buf = [] ∧
      (withPk 9#4 511#16 (List.replicate 7 true)).unblocked ∧ (withPk 9#4 511#16 (List.replicate 7 true)).pk.ctl.ready ∧
      (withPk 9#4 511#16 (List.replicate 7 true)).pk.buf.length ≤ 7 ∧
      (withPk 9#4 511#16 (List.replicate 7 true)).pk.buf ≠ [] ∧
      ((allFaulted .codeTooWide).unblocked ∧ (allFaulted .codeTooWide).pk.ctl.fault ≠ .none) ∧
      (allClosed.unblocked ∧ allClosed.pk.ctl.fault = .none ∧ allClosed.pk.ctl.done = true) := by decide

/-- PACK_INIT_COUNT 259 and the fixture's 258 (S2). -/
theorem witness_PackerCountNeverShows :
    sameButCount State.reset { State.reset with pk := { State.reset.pk with count := 258#16, init := 258#16 } } := rfl

/-- A list that fits; a codepoint too wide for 9 bits; a seventh BUMP, at width 15. -/
theorem witness_PackerWritesThePackedStream :
    fitsStream 9 [1#15, 257#15, 600#15, 256#15, 511#15] = true ∧ fitsStream 9 [1#15, 512#15] = false ∧
      fitsStream 9 (List.replicate 6 257#15) = true ∧ fitsStream 9 (List.replicate 7 257#15) = false := by decide

/-- 0 bits before, at width 9. -/
theorem witness_UnpkByteAccumulates :
    (withUp 9#4 []).unblocked ∧ (withUp 9#4 []).up.ctl.ready ∧ UpOk (withUp 9#4 []).up ∧
      (withUp 9#4 []).up.acc.length + 8 < (withUp 9#4 []).up.width.toNat :=
  ⟨by decide, by decide, up_ok _ (by decide), by decide⟩

/-- One bit before at width 9 (the byte ends the field exactly), and the BUMP at width 15. -/
theorem witness_UnpkByteCompletesAField :
    ((withUp 9#4 [true]).unblocked ∧ (withUp 9#4 [true]).up.ctl.ready ∧
      (withUp 9#4 [true]).up.width.toNat ≤ (withUp 9#4 [true]).up.acc.length + 8) ∧
    UpOk (withUp 9#4 [true]).up ∧
    ((withUp 15#4 (fieldBits 11 16)).unblocked ∧ (withUp 15#4 (fieldBits 11 16)).up.ctl.ready ∧
      (withUp 15#4 (fieldBits 11 16)).up.width.toNat ≤ (withUp 15#4 (fieldBits 11 16)).up.acc.length + 8 ∧
      (BitVec.ofNat 15 (bitsToInt (((withUp 15#4 (fieldBits 11 16)).up.acc ++ bytesToBits [0x10#8]).take 15)) : Code) =
        257#15 ∧
      (withUp 15#4 (fieldBits 11 16)).up.width = 15#4) ∧
    UpOk (withUp 15#4 (fieldBits 11 16)).up := ⟨by decide, up_ok _ (by decide), by decide, up_ok _ (by decide)⟩

theorem witness_UnpkEndDropsTheBits :
    (State.reset.unblocked ∧ State.reset.up.ctl.ready) ∧
      ((allFaulted .widthOverflow).unblocked ∧ (allFaulted .widthOverflow).up.ctl.fault ≠ .none) ∧
      (allClosed.unblocked ∧ allClosed.up.ctl.fault = .none ∧ allClosed.up.ctl.done = true) := by decide

/-- A run of the Packer without fault: two codes, the second END_OF_INFO. -/
theorem witness_UnpackerInvertsPacker :
    (execAll (.init 32768#16 :: [97#15, 256#15].map .packCode ++ [.packEnd]) State.reset).any
      (fun x => decide (x.1.pk.ctl.fault = .none)) = true := by decide +kernel

theorem witness_CmpByteIsEncodeThenPack :
    (withEnc (encGrown 0 [0x61#8] 32768#16)).unblocked ∧ EncOk (withEnc (encGrown 0 [0x61#8] 32768#16)).enc ∧
      PkOk (withEnc (encGrown 0 [0x61#8] 32768#16)).pk := ⟨by decide, enc_a_ok, pk_ok _ (by decide)⟩

theorem witness_CmpEndIsEncodeEndThenPackEnd :
    (withEnc (encGrown 252 [0x00#8] 32768#16)).unblocked ∧ EncOk (withEnc (encGrown 252 [0x00#8] 32768#16)).enc ∧
      PkOk (withEnc (encGrown 252 [0x00#8] 32768#16)).pk := ⟨by decide, enc_511_ok, pk_ok _ (by decide)⟩

theorem witness_DcmpByteIsUnpackThenDecode :
    (withDe (decGrown 1 (some [0x61#8]))).unblocked ∧ UpOk (withDe (decGrown 1 (some [0x61#8]))).up ∧
      DeOk (withDe (decGrown 1 (some [0x61#8]))).de := ⟨by decide, up_ok _ (by decide), de_260_ok⟩

theorem witness_DcmpEndIsUnpackEndThenDecodeEnd : State.reset.unblocked := by decide

theorem witness_InitPackResetsThePacker :
    (allFaulted .codeTooWide).unblocked ∧ blocked.cmd.fault ≠ .none := by decide

theorem witness_BitUtilityIdentities : 32767 < 2 ^ 15 ∧ 0 < 2 ^ 0 := by decide

/-- A state in mid-run that meets the invariant: an Encoder of size 511, a Decoder of size 260, bits pending in both packed
units. -/
def midRun : State where
  enc := encGrown 252 [0x00#8] 32768#16
  de := decGrown 1 (some [0x61#8])
  pk := (withPk 9#4 511#16 [true]).pk
  up := (withUp 9#4 [true]).up
  cmd := { fault := .none }
  resp := Response.empty
  port := [.cmd 0x900FF#20]

theorem midRun_ok : State.Ok midRun where
  enc := enc_511_ok
  de := de_260_ok
  pk := pk_ok _ (by decide)
  up := up_ok _ (by decide)
  cmd := by decide

/-- CMP_BYTE 0xFF on it: 000000000 and 100000001 after the pending 1 are 80 20 and three bits. -/
theorem witness_StepKeepsTheInvariant :
    State.Ok midRun ∧ ∃ t, step midRun = .next t ∧ decide (t.resp.out = [.byte 0x80#8, .byte 0x20#8]) = true :=
  ⟨midRun_ok, next_of_after (by decide +kernel)⟩

theorem witness_EveryStepCompletes : State.Ok midRun := midRun_ok

/-- Both ends of the legal range of MAX_CODE_SIZE. -/
theorem witness_DecoderInvertsEncoder : legalMax 259#16 = true ∧ legalMax 32768#16 = true := by decide

theorem witness_DecompressInvertsCompress :
    legalMax 259#16 = true ∧ legalMax 32768#16 = true ∧ State.reset.port = [] := by decide

end Sys2Proof.Machine
end

section
/-! The step and dispatch: the rule of each instruction apart from dispatch, and what a command, a guarded rule and a
façade command can answer. -/

namespace Sys2Proof.Machine

/-- The rule that dispatch runs for an instruction (60_exceptions.md R295); `exec_eq_dispatchCommand` and `exec_init_eq` say
how `exec` uses it. -/
def ruleOf (i : Instr) (s : State) : Result State :=
  match i with
  | .encByte b => respondEnc s (encByte b s.enc)
  | .encEnd => respondEnc s (encEnd s.enc)
  | .packCode cp => respondPk s (packCode cp s.pk)
  | .packEnd => respondPk s (packEnd s.pk)
  | .unpkByte b => respondUp s (unpkByte b s.up)
  | .unpkEnd => respondUp s (unpkEnd s.up)
  | .decCode cp => respondDec s (decCode cp s.de)
  | .decEnd => respondDec s (decEnd s.de)
  | .decResolve cp => respondDec s (decResolve cp s.de)
  | .cmpByte b => cmpByte b s
  | .cmpEnd => cmpEnd s
  | .dcmpByte b => dcmpByte b s
  | .dcmpEnd => dcmpEnd s
  | .init m => .ok (respond
      { s with
        enc := encConfigure m s.enc
        de := decInit s.de
        pk := packInit Config.initSize s.pk
        up := unpackInit s.up
        cmd := { fault := .none } } [] false)
  | .initPack n => .ok (respond { s with pk := packInit n s.pk } [] false)
  | .reserved _ => .ok (respond { s with cmd := { fault := .illegalCommand } } [] false)
  | .cpEoi => respondDec s (decGuard s.de (decEoi s.de))
  | .cpBump => respondDec s (decGuard s.de (decBump s.de))
  | .cpClear => respondDec s (decGuard s.de (decClear s.de))
  | .cpLiteral b => respondDec s (decGuard s.de (decData (codeOfByte b) s.de))
  | .cpDynamic cp => respondDec s (decGuard s.de (decData cp s.de))

theorem exec_init_eq (m : Word16) (s : State) : exec (.init m) s = outcomeOf (ruleOf (.init m) s) := rfl

theorem exec_eq_dispatchCommand {i : Instr} (s : State) (h : ∀ m, i ≠ .init m) :
    exec i s = dispatchCommand s (ruleOf i s) := by
  cases i with
  | init m => exact absurd rfl (h m)
  | _ => rfl

/-- An instruction that completes was ignored, or its rule gave the next state. -/
theorem exec_eq_next {i : Instr} {s t : State} (h : exec i s = .next t) :
    t = respond s [] false ∨ ruleOf i s = .ok t := by
  by_cases hi : ∃ m, i = .init m
  · obtain ⟨m, rfl⟩ := hi
    exact .inr (outcomeOf_eq_next.1 h)
  · rw [exec_eq_dispatchCommand s fun m hm => hi ⟨m, hm⟩, dispatchCommand_eq_next] at h
    exact h.imp And.right And.right

theorem step_of_nil {s : State} (h : s.port = []) : step s = .next s := by simp [step, fetch, h, idle]

theorem step_of_decoded {s : State} {w : PortWord} {rest : List PortWord} {i : Instr} (hp : s.port = w :: rest)
    (hd : decode w = .ok i) : step s = exec i { s with port := rest } := by simp [step, fetch, hp, hd]

theorem step_of_undecoded {s : State} {w : PortWord} {rest : List PortWord} {x : DecodeError} (hp : s.port = w :: rest)
    (hd : decode w = .error x) : step s = illegalCommand { s with port := rest } := by simp [step, fetch, hp, hd]

/-- A step changes nothing, or runs an instruction from the state without its word; a word that does not decode runs as the
reserved row (30_encoding.md R93). -/
theorem step_cases (s : State) : step s = .next s ∨ ∃ i rest, step s = exec i { s with port := rest } := by
  cases hp : s.port with
  | nil => exact .inl (step_of_nil hp)
  | cons w rest =>
    cases hd : decode w with
    | ok i => exact .inr ⟨i, rest, step_of_decoded hp hd⟩
    | error x => exact .inr ⟨.reserved 0, rest, step_of_undecoded hp hd⟩

/-- A guarded rule that gives a value kept the unit, closed it with a fault, or gave what its body gave. -/
theorem guardUnit_eq_ok {α : Type} {c : UnitCtl} {a r : α} {f : UnitCtl → α} {body : Result α}
    (h : guardUnit c (.ok a) (fun c' => .ok (f c')) body = .ok r) :
    r = a ∨ (c.fault = .none ∧ r = f { done := true, fault := .streamClosed }) ∨
      (c.fault = .none ∧ c.done = false ∧ body = .ok r) := by
  obtain ⟨-, hg⟩ | ⟨hf, -, hg⟩ | ⟨hf, hd, hg⟩ := guardUnit_cases c (.ok a) (fun c' => .ok (f c')) body
  · exact .inl (Except.ok.inj (h.symm.trans hg))
  · exact .inr (.inl ⟨hf, Except.ok.inj (h.symm.trans hg)⟩)
  · exact .inr (.inr ⟨hf, hd, hg.symm.trans h⟩)

/-! ### The façade commands -/

theorem cmpByte_eq_ok {b : Byte} {s t : State} (h : cmpByte b s = .ok t) :
    ∃ e codes p out, encByte b s.enc = .ok (e, codes) ∧ packAll codes s.pk = .ok (p, out) ∧
      t = respond { s with enc := e, pk := p } (out.map .byte) false := by
  simp only [cmpByte, bind_eq_ok, Except.ok.injEq] at h
  obtain ⟨⟨e, codes⟩, he, ⟨p, out⟩, hp, rfl⟩ := h
  exact ⟨e, codes, p, out, he, hp, rfl⟩

theorem cmpEnd_eq_ok {s t : State} (h : cmpEnd s = .ok t) :
    ∃ e codes p out q last, encEnd s.enc = .ok (e, codes) ∧ packAll codes s.pk = .ok (p, out) ∧
      packEnd p = .ok (q, last) ∧ t = respond { s with enc := e, pk := q } ((out ++ last).map .byte) false := by
  simp only [cmpEnd, bind_eq_ok, Except.ok.injEq] at h
  obtain ⟨⟨e, codes⟩, he, ⟨p, out⟩, hp, ⟨q, last⟩, hq, rfl⟩ := h
  exact ⟨e, codes, p, out, q, last, he, hp, hq, rfl⟩

theorem dcmpByte_eq_ok {b : Byte} {s t : State} (h : dcmpByte b s = .ok t) :
    ∃ d out blkEnd, decAll (unpkByte b s.up).2 s.de = .ok (d, out, blkEnd) ∧
      t = respond { s with up := (unpkByte b s.up).1, de := d } (out.map .byte) blkEnd := by
  simp only [dcmpByte, bind_eq_ok, Except.ok.injEq] at h
  obtain ⟨⟨d, out, blkEnd⟩, hd, rfl⟩ := h
  exact ⟨d, out, blkEnd, hd, rfl⟩

theorem dcmpEnd_eq_ok {s t : State} (h : dcmpEnd s = .ok t) :
    ∃ d out blkEnd, decEnd s.de = .ok (d, out, blkEnd) ∧
      t = respond { s with up := (unpkEnd s.up).1, de := d } (out.map .byte) blkEnd := by
  simp only [dcmpEnd, bind_eq_ok, Except.ok.injEq] at h
  obtain ⟨⟨d, out, blkEnd⟩, hd, rfl⟩ := h
  exact ⟨d, out, blkEnd, hd, rfl⟩

theorem respondUp_eq_ok {s t : State} {r : Up × List Code} :
    respondUp s r = .ok t ↔ t = respond { s with up := r.1 } (r.2.map .code) false := by
  rw [respondUp, Except.ok.injEq, eq_comm]

/-- One turn of the Packer's loop (44_facade.md R270): it ends at a fault, or goes on with the rest. -/
theorem packAll_cons_eq_ok {cp : Code} {rest : List Code} {p r : Pk} {out : ByteString}
    (h : packAll (cp :: rest) p = .ok (r, out)) :
    ∃ q o, packCode cp p = .ok (q, o) ∧ (r = q ∨ ∃ more, packAll rest q = .ok (r, more)) := by
  simp only [packAll, bind_eq_ok] at h
  obtain ⟨⟨q, o⟩, hq, h⟩ := h
  refine ⟨q, o, hq, ?_⟩
  split at h
  · cases h
    exact .inl rfl
  · obtain ⟨⟨r', more⟩, hr, h⟩ := bind_eq_ok.1 h
    cases h
    exact .inr ⟨more, hr⟩

/-- One turn of the Decoder's loop (44_facade.md R272): it ends at a fault, or goes on with the rest; `blk_end` is the OR. -/
theorem decAll_cons_eq_ok {cp : Code} {rest : List Code} {d r : De} {out : ByteString} {blkEnd : Bool}
    (h : decAll (cp :: rest) d = .ok (r, out, blkEnd)) :
    ∃ q o e, decCode cp d = .ok (q, o, e) ∧
      ((r = q ∧ blkEnd = e) ∨ ∃ more moreEnd, decAll rest q = .ok (r, more, moreEnd) ∧ blkEnd = (e || moreEnd)) := by
  simp only [decAll, bind_eq_ok] at h
  obtain ⟨⟨q, o, e⟩, hq, h⟩ := h
  refine ⟨q, o, e, hq, ?_⟩
  split at h
  · cases h
    exact .inl ⟨rfl, rfl⟩
  · obtain ⟨⟨r', more, moreEnd⟩, hr, h⟩ := bind_eq_ok.1 h
    cases h
    exact .inr ⟨more, moreEnd, hr, rfl⟩

/-- Settles O6. -/
theorem stepRunsTheDecodedInstruction : Obligations.StepRunsTheDecodedInstruction :=
  fun _ _ _ _ hp hd => step_of_decoded hp hd

/-- Settles O11: every instruction but INIT goes through the dispatch check. -/
theorem blockedPortIgnoresAllButInit : Obligations.BlockedPortIgnoresAllButInit := by
  intro i s hs hi
  rw [exec_eq_dispatchCommand s hi, dispatchCommand_of_blocked _ hs]
  rfl

/-! ### STATUS -/

theorem statusField_getLsbD_inside {n i j : Nat} (x : BitVec n) (hi : i ≤ j) (hj : j < 24) :
    (statusField x i).getLsbD j = x.getLsbD (j - i) := by
  have hlt : j - i < 24 := by omega
  simp [statusField, hj, hlt, Nat.not_lt.2 hi, -BitVec.getLsbD_eq_getElem]

theorem statusField_getLsbD_outside {n i j : Nat} (x : BitVec n) (h : j < i ∨ i + n ≤ j) :
    (statusField x i).getLsbD j = false := by
  obtain h | h := h
  · simp [statusField, h]
  · have hx : x.getLsbD (j - i) = false := x.getLsbD_of_ge _ (by omega)
    simp [statusField, hx]

/-- Settles O54, bit by bit: at each bit of STATUS all fields but one are 0. -/
theorem statusLayout : Obligations.StatusLayout := by
  refine ⟨fun s => ⟨?_, ?_, ?_, ?_, ?_, ?_, ?_, ?_, ?_⟩, rfl⟩
  any_goals
    refine BitVec.eq_of_getLsbD_eq fun i hi => ?_
    rw [BitVec.getLsbD_extractLsb', decide_eq_true hi, Bool.true_and]
  all_goals
    simp (disch := omega) only [State.status, BitVec.getLsbD_or, statusField_getLsbD_outside, Bool.or_false,
      Bool.false_or]
    simp (disch := omega) only [statusField_getLsbD_inside, Nat.sub_self, Nat.add_sub_cancel_left,
      BitVec.getLsbD_ofBool, decide_true, Bool.true_and]

end Sys2Proof.Machine
end

section
/-! What each unit's rules can give, and what follows for the frame of every instruction and for `blk_end`. -/

namespace Sys2Proof.Machine

/-! ### The Encoder -/

/-- The four branches of steps 1 to 4 (41_encoder.md R142). -/
theorem encWalk_eq_ok {b : Byte} {e : Enc} {r : Enc × List Code} (h : encWalk b e = .ok r) :
    (dictHas e.dict (e.pfx ++ [b]) = true ∧ encAfterWalk { e with pfx := e.pfx ++ [b] } [] = .ok r) ∨
    (dictHas e.dict (e.pfx ++ [b]) = false ∧ e.pfx = [] ∧ encAfterWalk { e with pfx := [b] } [] = .ok r) ∨
    (dictHas e.dict (e.pfx ++ [b]) = false ∧ e.pfx ≠ [] ∧ 32768 ≤ e.size.toNat ∧
      r = ({ e with ctl := raiseFault .dictCeiling e.ctl }, [])) ∨
    (dictHas e.dict (e.pfx ++ [b]) = false ∧ e.pfx ≠ [] ∧ e.size.toNat < 32768 ∧
      ∃ c, dictRead e.dict e.pfx = some c ∧
        encAfterWalk { e with
          dict := dictWrite e.dict (e.pfx ++ [b]) (codeOfSize e.size), size := e.size + 1#16, pfx := [b] } [c] = .ok r) := by
  cases hk : dictHas e.dict (e.pfx ++ [b]) with
  | true => exact .inl ⟨rfl, encWalk_of_key hk ▸ h⟩
  | false =>
    refine .inr ?_
    by_cases hp : e.pfx = []
    · exact .inl ⟨rfl, hp, encWalk_of_first hp ▸ h⟩
    refine .inr ?_
    rcases Nat.lt_or_ge e.size.toNat 32768 with hs | hs
    · refine .inr ⟨rfl, hp, hs, ?_⟩
      cases hc : dictRead e.dict e.pfx with
      | none => simp [encWalk, hk, hp, encDefine, pastCeiling_eq_false.2 hs, encPending, hc] at h
      | some c => exact ⟨c, rfl, encWalk_of_new hk hp hc hs ▸ h⟩
    · exact .inl ⟨rfl, hp, hs, (Except.ok.inj (encWalk_of_ceiling hk hp hs ▸ h)).symm⟩

theorem encFinish_eq_ok {e e' : Enc} {out : List Code} (h : encFinish e = .ok (e', out)) :
    ∃ l, encPending e = .ok l ∧ e' = { encReset e with ctl := closeUnit e.ctl } ∧ out = l ++ [256#15] := by
  obtain ⟨l, hl, h⟩ := bind_eq_ok.1 h
  cases h
  exact ⟨l, hl, rfl, rfl⟩

theorem encAfterWalk_max {e e' : Enc} {out out' : List Code} (h : encAfterWalk e out = .ok (e', out')) :
    e'.max = e.max := by
  obtain ⟨-, _, -, rfl, -⟩ | ⟨-, -, rfl, -⟩ | ⟨-, -, -, -, rfl, -⟩ := encAfterWalk_eq_ok h <;> rfl

theorem encByte_max {b : Byte} {e e' : Enc} {out : List Code} (h : encByte b e = .ok (e', out)) : e'.max = e.max := by
  obtain h | ⟨-, h⟩ | ⟨-, -, h⟩ := guardUnit_eq_ok h
  · cases h; rfl
  · cases h; rfl
  · obtain ⟨-, h⟩ | ⟨-, -, h⟩ | ⟨-, -, -, h⟩ | ⟨-, -, -, _, -, h⟩ := encWalk_eq_ok h
    · exact (encAfterWalk_max h :)
    · exact (encAfterWalk_max h :)
    · cases h; rfl
    · exact (encAfterWalk_max h :)

theorem encEnd_max {e e' : Enc} {out : List Code} (h : encEnd e = .ok (e', out)) : e'.max = e.max := by
  obtain h | ⟨-, h⟩ | ⟨-, -, h⟩ := guardUnit_eq_ok h
  · cases h; rfl
  · cases h; rfl
  · obtain ⟨_, -, rfl, -⟩ := encFinish_eq_ok h
    rfl

/-! ### The Packer -/

theorem packGuard_eq_ok {p : Pk} {body : Result (Pk × ByteString)} {r : Pk × ByteString}
    (h : packGuard p body = .ok r) :
    r = (p, []) ∨ (p.ctl.fault = .none ∧ r = ({ p with ctl := { done := true, fault := .streamClosed } }, [])) ∨
      (p.ctl.fault = .none ∧ p.ctl.done = false ∧ body = .ok r) := guardUnit_eq_ok h

/-- The effect of a codepoint on the Packer, by its class (43_packer_unpacker.md R225 to R227). -/
theorem packEffect_eq_ok {cp : Code} {p q : Pk} (h : packEffect cp p = .ok q) :
    (cp = Config.eoi ∧ q = packWidthReset { p with buf := padToByte p.buf }) ∨
    (cp = Config.bump ∧ p.thresh.toNat < 32768 ∧
      q = { p with width := p.width + 1#4, thresh := BitVec.ofNat 16 (2 * p.thresh.toNat + 1) }) ∨
    (cp = Config.clear ∧ q = packWidthReset p) ∨
    (cp ≠ Config.eoi ∧ cp ≠ Config.bump ∧ cp ≠ Config.clear ∧ q = p) := by
  unfold packEffect at h
  split_ifs at h with he hb hc
  · cases h
    exact .inl ⟨he, rfl⟩
  · obtain ⟨x, hx, h⟩ := bind_eq_ok.1 h
    obtain ⟨ht, rfl⟩ := nextThresh_eq_ok.1 hx
    cases h
    exact .inr (.inl ⟨hb, ht, rfl⟩)
  · cases h
    exact .inr (.inr (.inl ⟨hc, rfl⟩))
  · cases h
    exact .inr (.inr (.inr ⟨he, hb, hc, rfl⟩))

/-- PACK_CODE raises, or writes its field, has its effect and flushes (43_packer_unpacker.md R221). -/
theorem packBody_eq_ok {cp : Code} {p : Pk} {r : Pk × ByteString} (h : packBody cp p = .ok r) :
    (2 ^ p.width.toNat ≤ cp.toNat ∧ r = ({ p with ctl := raiseFault .codeTooWide p.ctl }, [])) ∨
    (cp = Config.bump ∧ p.width = Config.maxWidth ∧ r = ({ p with ctl := raiseFault .widthOverflow p.ctl }, [])) ∨
    (cp.toNat < 2 ^ p.width.toNat ∧ ¬ (cp = Config.bump ∧ p.width = Config.maxWidth) ∧
      ∃ q, packEffect cp (packField (fieldBits p.width.toNat cp.toNat) p) = .ok q ∧ r = packFlush q) := by
  rcases Nat.lt_or_ge cp.toNat (2 ^ p.width.toNat) with hlt | hge
  · by_cases hb : cp = Config.bump ∧ p.width = Config.maxWidth
    · rw [packBody_of_overflow hlt hb.1 hb.2] at h
      exact .inr (.inl ⟨hb.1, hb.2, (Except.ok.inj h).symm⟩)
    · rw [packBody_of_fits hlt hb] at h
      obtain ⟨q, hq, h⟩ := bind_eq_ok.1 h
      exact .inr (.inr ⟨hlt, hb, q, hq, (Except.ok.inj h).symm⟩)
  · rw [packBody_of_too_wide hge] at h
    exact .inl ⟨hge, (Except.ok.inj h).symm⟩

/-- PACK_END empties the buffer and closes the Packer (43_packer_unpacker.md R229). -/
theorem packFinish_eq_ok {p q : Pk} {out : ByteString} (h : packFinish p = .ok (q, out)) :
    q = { p with buf := [], ctl := closeUnit p.ctl } := by
  unfold packFinish at h
  split_ifs at h with hb
  · cases h
    rw [← hb]
  · cases h
    rfl

theorem packCode_init {cp : Code} {p q : Pk} {out : ByteString} (h : packCode cp p = .ok (q, out)) :
    q.init = p.init := by
  obtain h | ⟨-, h⟩ | ⟨-, -, h⟩ := packGuard_eq_ok h
  · cases h; rfl
  · cases h; rfl
  · obtain ⟨-, h⟩ | ⟨-, -, h⟩ | ⟨-, -, q', hq, h⟩ := packBody_eq_ok h
    · cases h; rfl
    · cases h; rfl
    · cases h
      obtain ⟨-, rfl⟩ | ⟨-, -, rfl⟩ | ⟨-, rfl⟩ | ⟨-, -, -, rfl⟩ := packEffect_eq_ok hq <;> rfl

theorem packEnd_init {p q : Pk} {out : ByteString} (h : packEnd p = .ok (q, out)) : q.init = p.init := by
  obtain h | ⟨-, h⟩ | ⟨-, -, h⟩ := packGuard_eq_ok h
  · cases h; rfl
  · cases h; rfl
  · rw [packFinish_eq_ok h]

theorem packAll_init {codes : List Code} {p q : Pk} {out : ByteString} (h : packAll codes p = .ok (q, out)) :
    q.init = p.init := by
  induction codes generalizing p out with
  | nil => cases h; rfl
  | cons cp rest ih =>
    obtain ⟨q', _, hc, rfl | ⟨_, hr⟩⟩ := packAll_cons_eq_ok h
    · exact packCode_init hc
    · exact (ih hr).trans (packCode_init hc)

/-! ### The Decoder -/

theorem decGuard_eq_ok {d : De} {body : DecResult} {r : De × ByteString × Bool} (h : decGuard d body = .ok r) :
    r = (d, [], false) ∨
      (d.ctl.fault = .none ∧ r = ({ d with ctl := { done := true, fault := .streamClosed } }, [], false)) ∨
      (d.ctl.fault = .none ∧ d.ctl.done = false ∧ body = .ok r) := guardUnit_eq_ok h

theorem firstByte_eq_ok {s : ByteString} {x : Byte} : firstByte s = .ok x ↔ s.head? = some x := by
  cases s <;> simp [firstByte]

theorem decKnown_eq_ok {d d' : De} {p v out : ByteString} {blkEnd : Bool} (hp : d.pfx = some p)
    (h : decKnown v d = .ok (d', out, blkEnd)) :
    blkEnd = false ∧
    ((d' = { d with ctl := raiseFault .dictCeiling d.ctl } ∧ out = []) ∨
      (d.size.toNat < 32768 ∧ ∃ x, v.head? = some x ∧ d' = { decInsert (p ++ [x]) d with pfx := some v } ∧ out = v)) := by
  rcases Nat.lt_or_ge d.size.toNat 32768 with hs | hs
  · simp only [decKnown, hp, pastCeiling_eq_false.2 hs, Bool.false_eq_true, if_false] at h
    obtain ⟨x, hx, h⟩ := bind_eq_ok.1 h
    cases h
    exact ⟨rfl, .inr ⟨hs, x, firstByte_eq_ok.1 hx, rfl, rfl⟩⟩
  · rw [decKnown_of_ceiling v hp hs] at h
    cases h
    exact ⟨rfl, .inl ⟨rfl, rfl⟩⟩

theorem decSpecial_eq_ok {d d' : De} {p out : ByteString} {blkEnd : Bool}
    (h : decSpecial p d = .ok (d', out, blkEnd)) :
    blkEnd = false ∧
    ((d' = { d with ctl := raiseFault .dictCeiling d.ctl } ∧ out = []) ∨
      (d.size.toNat < 32768 ∧ ∃ x, p.head? = some x ∧
        d' = { decInsert (p ++ [x]) d with pfx := some (p ++ [x]) } ∧ out = p ++ [x])) := by
  unfold decSpecial at h
  split_ifs at h with hs
  · cases h
    exact ⟨rfl, .inl ⟨rfl, rfl⟩⟩
  · obtain ⟨x, hx, h⟩ := bind_eq_ok.1 h
    cases h
    exact ⟨rfl, .inr ⟨pastCeiling_eq_false.1 (Bool.eq_false_of_not_eq_true hs), x, firstByte_eq_ok.1 hx, rfl, rfl⟩⟩

/-- What the arms of a data codepoint can give (42_decoder.md R185 to R188): a fault; the first string after a reset; or a
definition at DE.size, of DE.pfx and the first byte of the output, or of DE.pfx and its own first byte. -/
theorem decData_eq_ok {cp : Code} {d d' : De} {out : ByteString} {blkEnd : Bool}
    (h : decData cp d = .ok (d', out, blkEnd)) :
    blkEnd = false ∧
    ((∃ f, (f = .dictCeiling ∨ f = .unknownCode) ∧ d' = { d with ctl := raiseFault f d.ctl } ∧ out = []) ∨
      (d.pfx = none ∧ dictRead d.dict cp = some out ∧ d' = { d with pfx := some out }) ∨
      (∃ p x, d.pfx = some p ∧ d.size.toNat < 32768 ∧
        ((dictRead d.dict cp = some out ∧ out.head? = some x) ∨
          (dictRead d.dict cp = none ∧ cp.toNat = d.size.toNat ∧ p.head? = some x ∧ out = p ++ [x])) ∧
        d' = { decInsert (p ++ [x]) d with pfx := some out })) := by
  obtain hk | ⟨v, hk⟩ := Option.eq_none_or_eq_some (dictRead d.dict cp) <;>
    obtain hp | ⟨p, hp⟩ := Option.eq_none_or_eq_some d.pfx
  · rw [decData_of_unknown hk (.inl hp)] at h
    cases h
    exact ⟨rfl, .inl ⟨_, .inr rfl, rfl, rfl⟩⟩
  · by_cases hc : cp.toNat = d.size.toNat
    · rw [decData_of_special hk hp hc] at h
      obtain ⟨rfl, ⟨hd, ho⟩ | ⟨hs, x, hx, hd, ho⟩⟩ := decSpecial_eq_ok h
      · exact ⟨rfl, .inl ⟨_, .inl rfl, hd, ho⟩⟩
      · exact ⟨rfl, .inr (.inr ⟨p, x, hp, hs, .inr ⟨hk, hc, hx, ho⟩, ho ▸ hd⟩)⟩
    · rw [decData_of_unknown hk (.inr hc)] at h
      cases h
      exact ⟨rfl, .inl ⟨_, .inr rfl, rfl, rfl⟩⟩
  · rw [decData_of_known hk, decKnown_of_no_prefix v hp] at h
    cases h
    exact ⟨rfl, .inr (.inl ⟨hp, hk, rfl⟩)⟩
  · rw [decData_of_known hk] at h
    obtain ⟨rfl, ⟨hd, ho⟩ | ⟨hs, x, hx, hd, rfl⟩⟩ := decKnown_eq_ok hp h
    · exact ⟨rfl, .inl ⟨_, .inl rfl, hd, ho⟩⟩
    · exact ⟨rfl, .inr (.inr ⟨p, x, hp, hs, .inl ⟨hk, hx⟩, hd⟩)⟩

/-- What DecStep can give (42_decoder.md R181, R189): only an END_OF_INFO at stream level ends a block. -/
theorem decStep_eq_ok {resolve : Bool} {cp : Code} {d d' : De} {out : ByteString} {blkEnd : Bool}
    (h : decStep resolve cp d = .ok (d', out, blkEnd)) :
    (blkEnd = true ∧ resolve = false ∧ cp = Config.eoi ∧ d' = decReset d) ∨
    (blkEnd = false ∧
      (d' = d ∨ d' = decReset d ∨ d' = { d with ctl := raiseFault .protocolMisuse d.ctl } ∨
        decData cp d = .ok (d', out, false))) := by
  unfold decStep at h
  split_ifs at h with hb he hr hc
  · cases h
    exact .inr ⟨rfl, .inl rfl⟩
  · cases h
    exact .inr ⟨rfl, .inr (.inr (.inl rfl))⟩
  · cases h
    exact .inl ⟨rfl, by simpa using hr, he, rfl⟩
  · cases h
    exact .inr ⟨rfl, .inr (.inl rfl)⟩
  · obtain ⟨rfl, -⟩ := decData_eq_ok h
    exact .inr ⟨rfl, .inr (.inr (.inr h))⟩

/-- A guarded Decoder rule that ends a block ran its body. -/
theorem decGuard_of_blkEnd {d d' : De} {out : ByteString} {body : DecResult} (h : decGuard d body = .ok (d', out, true)) :
    body = .ok (d', out, true) := by
  obtain h | ⟨-, h⟩ | ⟨-, -, h⟩ := decGuard_eq_ok h
  · cases h
  · cases h
  · exact h

theorem decCode_of_blkEnd {cp : Code} {d d' : De} {out : ByteString} (h : decCode cp d = .ok (d', out, true)) :
    cp = Config.eoi ∧ d' = decReset d := by
  obtain ⟨-, -, hcp, hd⟩ | ⟨h, -⟩ := decStep_eq_ok (decGuard_of_blkEnd h)
  · exact ⟨hcp, hd⟩
  · cases h

theorem decResolve_blkEnd {cp : Code} {d d' : De} {out : ByteString} {blkEnd : Bool}
    (h : decResolve cp d = .ok (d', out, blkEnd)) : blkEnd = false := by
  cases blkEnd with
  | false => rfl
  | true => obtain ⟨-, hr, -⟩ | ⟨h, -⟩ := decStep_eq_ok (decGuard_of_blkEnd h) <;> assumption

/-! ### The Unpacker and the end of a block in DCMP_BYTE -/

theorem unpkGuard_cases (u : Up) (body : Up × List Code) :
    unpkGuard u body = (u, []) ∨
      (u.ctl.fault = .none ∧
        unpkGuard u body = ({ u with ctl := { done := true, fault := .streamClosed } }, [])) ∨
      (u.ctl.fault = .none ∧ u.ctl.done = false ∧ unpkGuard u body = body) := by
  obtain ⟨-, h⟩ | ⟨hf, -, h⟩ | h := guardUnit_cases u.ctl (u, ([] : List Code)) (fun c => ({ u with ctl := c }, [])) body
  · exact .inl h
  · exact .inr (.inl ⟨hf, h⟩)
  · exact .inr (.inr h)

/-- Only the last codepoint of a list may be END_OF_INFO. -/
abbrev eoiOnlyLast (codes : List Code) : Prop := codes.Pairwise fun cp _ => cp ≠ Config.eoi

theorem unpkBits_of_skip (i : Nat) (x : BitString) {u : Up} (h : u.skip = true) : (unpkBits i x u).2 = [] := by
  induction x generalizing i u with
  | nil => rfl
  | cons b rest ih =>
    rw [unpkBits_cons_of_skip h]
    exact ih (i + 1) h

theorem unpkEffect_eoi_skip (u : Up) : (unpkEffect Config.eoi u).skip = true := rfl

/-- After END_OF_INFO the rest of the byte is discarded (43_packer_unpacker.md R235), so no codepoint follows it. -/
theorem unpkBits_eoiOnlyLast (i : Nat) (x : BitString) (u : Up) : eoiOnlyLast (unpkBits i x u).2 := by
  induction x generalizing i u with
  | nil => exact .nil
  | cons b rest ih =>
    cases hs : u.skip with
    | true => simp [unpkBits_of_skip i _ hs]
    | false =>
      by_cases hl : u.acc.length + 1 = u.width.toNat
      · by_cases hb : fieldCode (u.acc ++ [b]) = Config.bump ∧ u.width = Config.maxWidth
        · simp [unpkBits_cons_of_overflow hs hl hb.1 hb.2]
        · rw [unpkBits_cons_of_field hs hl hb]
          refine List.pairwise_cons.2 ⟨fun cp hcp he => ?_, ih _ _⟩
          rw [he, unpkBits_of_skip _ _ (unpkEffect_eoi_skip _)] at hcp
          cases hcp
      · rw [unpkBits_cons_of_more hs hl]
        exact ih _ _

theorem unpkByte_eoiOnlyLast (b : Byte) (u : Up) : eoiOnlyLast (unpkByte b u).2 := by
  unfold unpkByte
  obtain h | ⟨-, h⟩ | ⟨-, -, h⟩ := unpkGuard_cases u (unpkBody b u) <;> rw [h]
  · exact .nil
  · exact .nil
  · exact unpkBits_eoiOnlyLast _ _ _

/-- The loop of DCMP_BYTE answers `blk_end` 1 only at an END_OF_INFO, which was its last codepoint. -/
theorem decAll_of_blkEnd {codes : List Code} {d d' : De} {out : ByteString} (hl : eoiOnlyLast codes)
    (h : decAll codes d = .ok (d', out, true)) : Config.eoi ∈ codes ∧ ∃ q, d' = decReset q := by
  induction codes generalizing d out with
  | nil => cases h
  | cons cp rest ih =>
    obtain ⟨hcp, hrest⟩ := List.pairwise_cons.1 hl
    obtain ⟨q, o, e, hc, ⟨rfl, rfl⟩ | ⟨more, moreEnd, hr, he⟩⟩ := decAll_cons_eq_ok h
    · obtain ⟨rfl, rfl⟩ := decCode_of_blkEnd hc
      exact ⟨.head _, d, rfl⟩
    · cases moreEnd with
      | true =>
        obtain ⟨hmem, hd⟩ := ih hrest hr
        exact ⟨.tail _ hmem, hd⟩
      | false =>
        obtain rfl : e = true := by simpa using he.symm
        obtain ⟨rfl, rfl⟩ := decCode_of_blkEnd hc
        cases rest with
        | nil =>
          cases hr
          exact ⟨.head _, d, rfl⟩
        | cons cp' _ => exact absurd rfl (hcp cp' (.head _))

/-! ### The frame of every instruction, and the end of a block -/

/-- Settles O15, from what each rule's answer says of the whole state. -/
theorem unitsWriteOnlyTheirOwnFields : Obligations.UnitsWriteOnlyTheirOwnFields := by
  intro i s t h
  obtain rfl | h := exec_eq_next h
  · simp
  cases i with
  | encByte _ =>
    obtain ⟨e, out, he, rfl⟩ := respondEnc_eq_ok.1 h
    exact ⟨nofun, fun _ => rfl, fun _ => rfl, fun _ => rfl, fun _ => encByte_max he, fun _ _ => rfl,
      fun _ _ => rfl, rfl⟩
  | encEnd =>
    obtain ⟨e, out, he, rfl⟩ := respondEnc_eq_ok.1 h
    exact ⟨nofun, fun _ => rfl, fun _ => rfl, fun _ => rfl, fun _ => encEnd_max he, fun _ _ => rfl,
      fun _ _ => rfl, rfl⟩
  | packCode _ =>
    obtain ⟨p, out, hp, rfl⟩ := respondPk_eq_ok.1 h
    exact ⟨fun _ => rfl, nofun, fun _ => rfl, fun _ => rfl, fun _ => rfl, fun _ _ => packCode_init hp,
      fun _ _ => rfl, rfl⟩
  | packEnd =>
    obtain ⟨p, out, hp, rfl⟩ := respondPk_eq_ok.1 h
    exact ⟨fun _ => rfl, nofun, fun _ => rfl, fun _ => rfl, fun _ => rfl, fun _ _ => packEnd_init hp,
      fun _ _ => rfl, rfl⟩
  | cmpByte _ =>
    obtain ⟨e, codes, p, out, he, hp, rfl⟩ := cmpByte_eq_ok h
    exact ⟨nofun, nofun, fun _ => rfl, fun _ => rfl, fun _ => encByte_max he,
      fun _ _ => packAll_init hp, fun _ _ => rfl, rfl⟩
  | cmpEnd =>
    obtain ⟨e, codes, p, out, q, last, he, hp, hq, rfl⟩ := cmpEnd_eq_ok h
    exact ⟨nofun, nofun, fun _ => rfl, fun _ => rfl, fun _ => encEnd_max he,
      fun _ _ => (packEnd_init hq).trans (packAll_init hp), fun _ _ => rfl, rfl⟩
  | unpkByte _ | unpkEnd =>
    obtain rfl := respondUp_eq_ok.1 h
    exact ⟨fun _ => rfl, fun _ => rfl, nofun, fun _ => rfl, fun _ => rfl, fun _ _ => rfl, fun _ _ => rfl, rfl⟩
  | decCode _ | decResolve _ | decEnd | cpEoi | cpBump | cpClear | cpLiteral _ | cpDynamic _ =>
    obtain ⟨d, out, blkEnd, -, rfl⟩ := respondDec_eq_ok.1 h
    exact ⟨fun _ => rfl, fun _ => rfl, fun _ => rfl, nofun, fun _ => rfl, fun _ _ => rfl, fun _ _ => rfl, rfl⟩
  | dcmpByte _ =>
    obtain ⟨d, out, blkEnd, -, rfl⟩ := dcmpByte_eq_ok h
    exact ⟨fun _ => rfl, fun _ => rfl, nofun, nofun, fun _ => rfl, fun _ _ => rfl, fun _ _ => rfl, rfl⟩
  | dcmpEnd =>
    obtain ⟨d, out, blkEnd, -, rfl⟩ := dcmpEnd_eq_ok h
    exact ⟨fun _ => rfl, fun _ => rfl, nofun, nofun, fun _ => rfl, fun _ _ => rfl, fun _ _ => rfl, rfl⟩
  | init m =>
    cases h
    exact ⟨nofun, nofun, nofun, nofun, fun hm => absurd rfl (hm m), fun hm _ => absurd rfl (hm m),
      fun hm _ => absurd rfl (hm m), rfl⟩
  | initPack n =>
    cases h
    exact ⟨fun _ => rfl, nofun, fun _ => rfl, fun _ => rfl, fun _ => rfl, fun _ hn => absurd rfl (hn n),
      fun _ _ => rfl, rfl⟩
  | reserved data =>
    cases h
    exact ⟨fun _ => rfl, fun _ => rfl, fun _ => rfl, fun _ => rfl, fun _ => rfl, fun _ _ => rfl,
      fun _ hd => absurd rfl (hd data), rfl⟩

/-- Only a Decoder rule answers with `blk_end` 1: the other units' answers, and an ignored command's, have it 0. -/
theorem blkEnd_of_respondDec {s t : State} {r : DecResult} (h : respondDec s r = .ok t) (he : t.resp.blkEnd = true) :
    ∃ d out, r = .ok (d, out, true) ∧ t.de = d := by
  obtain ⟨d, out, blkEnd, hr, rfl⟩ := respondDec_eq_ok.1 h
  obtain rfl : blkEnd = true := he
  exact ⟨d, out, hr, rfl⟩

/-- Settles O16: the instruction is the one that ran END_OF_INFO, and nothing in it came after. -/
theorem blockEndMeansEndOfInfo : Obligations.BlockEndMeansEndOfInfo := by
  intro i s t h he
  suffices hi : (i = .decCode Config.eoi ∨ i = .cpEoi ∨ ∃ b, i = .dcmpByte b ∧ Config.eoi ∈ (unpkByte b s.up).2) ∧
      ∃ d, t.de = decReset d by
    obtain ⟨hi, d, hd⟩ := hi
    rw [hd]
    exact ⟨hi, rfl, rfl, rfl⟩
  obtain rfl | h := exec_eq_next h
  · cases he
  cases i with
  | decCode cp =>
    obtain ⟨d, out, hr, hd⟩ := blkEnd_of_respondDec h he
    obtain ⟨rfl, rfl⟩ := decCode_of_blkEnd hr
    exact ⟨.inl rfl, s.de, hd⟩
  | cpEoi =>
    obtain ⟨d, out, hr, hd⟩ := blkEnd_of_respondDec h he
    cases decGuard_of_blkEnd hr
    exact ⟨.inr (.inl rfl), s.de, hd⟩
  | dcmpByte b =>
    obtain ⟨d, out, blkEnd, hr, rfl⟩ := dcmpByte_eq_ok h
    obtain rfl : blkEnd = true := he
    obtain ⟨hmem, hd⟩ := decAll_of_blkEnd (unpkByte_eoiOnlyLast b s.up) hr
    exact ⟨.inr (.inr ⟨b, rfl, hmem⟩), hd⟩
  | decResolve cp =>
    obtain ⟨d, out, hr, hd⟩ := blkEnd_of_respondDec h he
    cases decResolve_blkEnd hr
  | decEnd | cpBump | cpClear =>
    obtain ⟨d, out, hr, hd⟩ := blkEnd_of_respondDec h he
    cases decGuard_of_blkEnd hr
  | cpLiteral _ | cpDynamic _ =>
    obtain ⟨d, out, hr, hd⟩ := blkEnd_of_respondDec h he
    cases (decData_eq_ok (decGuard_of_blkEnd hr)).1
  | dcmpEnd =>
    obtain ⟨d, out, blkEnd, hr, rfl⟩ := dcmpEnd_eq_ok h
    obtain rfl : blkEnd = true := he
    cases decGuard_of_blkEnd hr
  | encByte _ | encEnd =>
    obtain ⟨e, out, -, rfl⟩ := respondEnc_eq_ok.1 h
    cases he
  | packCode _ | packEnd =>
    obtain ⟨p, out, -, rfl⟩ := respondPk_eq_ok.1 h
    cases he
  | unpkByte _ | unpkEnd =>
    obtain rfl := respondUp_eq_ok.1 h
    cases he
  | cmpByte b =>
    obtain ⟨e, codes, p, out, -, -, rfl⟩ := cmpByte_eq_ok h
    cases he
  | cmpEnd =>
    obtain ⟨e, codes, p, out, q, last, -, -, -, rfl⟩ := cmpEnd_eq_ok h
    cases he
  | init _ | initPack _ | reserved _ =>
    cases h
    cases he

end Sys2Proof.Machine
end

section
/-! The invariants of 10_state.md R51 and R52 under every operation: the codes in use, then unit by unit the reset, each
command's rule and the façade's loops, and last the step. -/

namespace Sys2Proof.Machine

/-! ### Codes in use -/

theorem codesInUse_nodup_of_le {n : Nat} (hn : n ≤ 32768) : (codesInUse n).Nodup := by
  have hnum : (List.range 256 ++ List.range' 259 (n - 259)).Nodup := by
    refine List.nodup_append.2 ⟨List.nodup_range, List.nodup_range', fun a ha b hb => ?_⟩
    simp only [List.mem_range, List.mem_range'_1] at ha hb
    omega
  refine hnum.map_on fun x hx y hy h => ?_
  have h := congrArg BitVec.toNat h
  simp only [List.mem_append, List.mem_range, List.mem_range'_1] at hx hy
  simp only [BitVec.toNat_ofNat] at h
  omega

/-- A code in use is a literal's or stands for an entry below the size (10_state.md R51(b)). -/
theorem toNat_of_mem_codesInUse {n : Nat} {c : Code} (hn : n ≤ 32768) (h : c ∈ codesInUse n) :
    c.toNat < 256 ∨ (259 ≤ c.toNat ∧ c.toNat < n) := by
  obtain ⟨i, hi, rfl⟩ := List.mem_map.1 h
  simp only [List.mem_append, List.mem_range, List.mem_range'_1] at hi
  rw [BitVec.toNat_ofNat]
  omega

theorem toNat_lt_of_mem_codesInUse {n : Nat} {c : Code} (h9 : 259 ≤ n) (hn : n ≤ 32768) (h : c ∈ codesInUse n) :
    c.toNat < n := by
  have := toNat_of_mem_codesInUse hn h
  omega

theorem codesInUse_succ {n : Nat} (h : 259 ≤ n) : codesInUse (n + 1) = codesInUse n ++ [BitVec.ofNat 15 n] := by
  have hn : n + 1 - 259 = n - 259 + 1 := by omega
  have h9 : 259 + (n - 259) = n := by omega
  rw [codesInUse, hn, List.range'_1_concat, h9, ← List.append_assoc, List.map_append]
  rfl

theorem codeOfByte_of_lt {c : Code} (h : c.toNat < 256) : codeOfByte (BitVec.ofNat 8 c.toNat) = c := by
  apply BitVec.eq_of_toNat_eq
  rw [codeOfByte_toNat, BitVec.toNat_ofNat, Nat.mod_eq_of_lt h]

/-! ### Widths and thresholds -/

theorem initWidth_low : 9 ≤ Config.initWidth.toNat := by decide

theorem width_succ {w : BitVec 4} (h : w.toNat < 15) : (w + 1#4).toNat = w.toNat + 1 := by
  rw [BitVec.toNat_add]
  exact Nat.mod_eq_of_lt (by simpa using Nat.succ_lt_succ h)

/-- Doubling the threshold goes with one more bit of width (10_state.md R26, R38). -/
theorem double_thresh {t w : Nat} (h : t = 2 ^ w - 1) : 2 * t + 1 = 2 ^ (w + 1) - 1 := by
  have := Nat.two_pow_pos w
  rw [Nat.pow_succ]
  omega

/-! ### The Encoder -/

/-- The part of EncOk about the dictionary and its size. -/
structure EncDictOk (d : Dict ByteString Code) (n : Nat) : Prop where
  keys_once : dictWf d = true
  keys_nonempty : ∀ k ∈ dictKeys d, k ≠ []
  literals : ∀ b : Byte, dictRead d [b] = some (codeOfByte b)
  closed : ∀ k ∈ dictKeys d, ∀ p ∈ k.inits, p ≠ [] → p ∈ dictKeys d
  codes : dictVals d = codesInUse n
  extends_earlier : ∀ kv ∈ d, 2 ≤ kv.1.length → ∃ pv ∈ d, pv.1 = kv.1.dropLast ∧ pv.2.toNat < kv.2.toNat
  size_counts : n = 259 + ((dictKeys d).filter fun k => decide (2 ≤ k.length)).length
  key_length : ∀ kv ∈ d, 259 ≤ kv.2.toNat → kv.1.length + 257 ≤ kv.2.toNat

/-- The part of EncOk about the fault field. -/
abbrev EncCtlOk (max : Word16) (c : UnitCtl) : Prop :=
  (c.fault = .configError ↔ legalMax max = false) ∧ c.fault ∈ [FaultCode.none, .configError, .dictCeiling, .streamClosed]

theorem EncOk.dictOk {e : Enc} (h : EncOk e) : EncDictOk e.dict e.size.toNat := { h with }

theorem EncOk.ctlOk {e : Enc} (h : EncOk e) : EncCtlOk e.max e.ctl := ⟨h.config, h.fault_codes⟩

theorem EncOk.withCtl {e : Enc} {c : UnitCtl} (h : EncOk e) (hc : EncCtlOk e.max c) : EncOk { e with ctl := c } :=
  { h with config := hc.1, fault_codes := hc.2 }

/-- An Encoder with no fault has a legal maximum, so any other fault may follow. -/
theorem EncOk.ctlOk_of_raise {e : Enc} {c : UnitCtl} (h : EncOk e) (hf : e.ctl.fault = .none)
    (hc : c.fault ∈ [FaultCode.none, .dictCeiling, .streamClosed]) : EncCtlOk e.max c := by
  have hl : legalMax e.max ≠ false := fun hl => nomatch hf.symm.trans (h.config.2 hl)
  have hne : c.fault ≠ .configError := by
    intro he
    simp [he] at hc
  refine ⟨iff_of_false hne hl, ?_⟩
  simp only [List.mem_cons] at hc ⊢
  tauto

theorem encDict0_ok : EncDictOk encDict0 259 := by
  have h : EncOk (encGrown 0 [] 32768#16) := encGrown_ok (by omega) (by decide) (by decide) (.inl rfl)
  have hd : encGrownDict 0 = encDict0 := by simp [encGrownDict]
  exact hd ▸ h.dictOk

/-- The reset leaves the dictionary of power-on, and so every invariant. -/
theorem encReset_ok {e : Enc} {c : UnitCtl} (hc : EncCtlOk e.max c) : EncOk { encReset e with ctl := c } :=
  { encDict0_ok with
    pfx_key := .inl rfl
    size_bounds := ⟨Nat.le_refl 259, Nat.le_max_left _ _⟩
    thresh_width := ⟨rfl, (by decide : 259 ≤ 511)⟩
    width_low := initWidth_low
    config := hc.1
    fault_codes := hc.2 }

section Insert

variable {d : Dict ByteString Code} {n : Nat}

theorem EncDictOk.code_of_mem (h : EncDictOk d n) (hn : n ≤ 32768) {k : ByteString} {c : Code} (hm : (k, c) ∈ d) :
    c.toNat < 256 ∨ (259 ≤ c.toNat ∧ c.toNat < n) :=
  toNat_of_mem_codesInUse hn (h.codes ▸ List.mem_map_of_mem (f := Prod.snd) hm)

/-- A code below 256 is bound to its literal, because each code is bound once. -/
theorem EncDictOk.literal_of_code_lt (h : EncDictOk d n) (hn : n ≤ 32768) {k : ByteString} {c : Code} (hm : (k, c) ∈ d)
    (hc : c.toNat < 256) : k = [BitVec.ofNat 8 c.toNat] := by
  have hlit := mem_of_dictRead (h.literals (BitVec.ofNat 8 c.toNat))
  rw [codeOfByte_of_lt hc] at hlit
  have hnodup : (dictVals d).Nodup := h.codes ▸ codesInUse_nodup_of_le hn
  exact congrArg Prod.fst (List.inj_on_of_nodup_map hnodup hm hlit rfl)

/-- 20_memory.md R64: a key is at most size - 258 bytes long. -/
theorem EncDictOk.length_of_mem (h : EncDictOk d n) (h9 : 259 ≤ n) (hn : n ≤ 32768) {k : ByteString} {c : Code}
    (hm : (k, c) ∈ d) : k.length + 258 ≤ n := by
  obtain hc | ⟨hc, hlt⟩ := h.code_of_mem hn hm
  · rw [h.literal_of_code_lt hn hm hc]
    exact h9
  · have : k.length + 257 ≤ c.toNat := h.key_length _ hm hc
    omega

/-- A definition keeps the dictionary's invariants: the new key extends a key, and its code is the next one. -/
theorem EncDictOk.insert (h : EncDictOk d n) (h9 : 259 ≤ n) (hn : n < 32768) {p : ByteString} {b : Byte} {c : Code}
    (hp : p ≠ []) (hc : dictRead d p = some c) (hnew : dictHas d (p ++ [b]) = false) :
    EncDictOk (dictWrite d (p ++ [b]) (BitVec.ofNat 15 n)) (n + 1) := by
  have hnew : p ++ [b] ∉ dictKeys d := fun hk => by simp [(dictHas_iff_mem_dictKeys _ _).2 hk] at hnew
  have hpc : (p, c) ∈ d := mem_of_dictRead hc
  have hpk : p ∈ dictKeys d := List.mem_map_of_mem (f := Prod.fst) hpc
  have hlen : p.length + 258 ≤ n := h.length_of_mem h9 hn.le hpc
  have hcn : c.toNat < n := by
    have := h.code_of_mem hn.le hpc
    omega
  have hpos : 0 < p.length := List.length_pos_iff.2 hp
  have hcode : (BitVec.ofNat 15 n).toNat = n := by rw [BitVec.toNat_ofNat, Nat.mod_eq_of_lt hn]
  constructor
  case keys_once => exact dictWf_dictWrite _ _ h.keys_once
  case keys_nonempty =>
    intro k hk
    rw [dictKeys_dictWrite_of_new _ hnew, List.mem_append, List.mem_singleton] at hk
    obtain hk | rfl := hk
    · exact h.keys_nonempty k hk
    · simp
  case literals =>
    intro b'
    rw [dictRead_dictWrite_other _ _ fun he => ?_, h.literals]
    have := congrArg List.length he
    simp only [List.length_append, List.length_singleton] at this
    omega
  case closed =>
    intro k hk q hq hne
    rw [dictKeys_dictWrite_of_new _ hnew, List.mem_append, List.mem_singleton] at hk ⊢
    obtain hk | rfl := hk
    · exact .inl (h.closed k hk q hq hne)
    · obtain rfl | hq := List.prefix_concat_iff.1 ((List.mem_inits _ _).1 hq)
      · exact .inr rfl
      · exact .inl (h.closed p hpk q ((List.mem_inits _ _).2 hq) hne)
  case codes => rw [dictVals_dictWrite_of_new _ hnew, h.codes, codesInUse_succ h9]
  case extends_earlier =>
    intro kv hkv h2
    rw [dictWrite_of_new _ hnew, List.mem_append, List.mem_singleton] at hkv
    rw [dictWrite_of_new _ hnew]
    obtain hkv | rfl := hkv
    · obtain ⟨pv, hpv, hext⟩ := h.extends_earlier kv hkv h2
      exact ⟨pv, List.mem_append_left _ hpv, hext⟩
    · exact ⟨(p, c), List.mem_append_left _ hpc, List.dropLast_concat.symm, hcode.symm ▸ hcn⟩
  case size_counts =>
    have hlong : ([p ++ [b]].filter fun k => decide (2 ≤ k.length)) = [p ++ [b]] :=
      List.filter_eq_self.2 (by simp; omega)
    rw [dictKeys_dictWrite_of_new _ hnew, List.filter_append, List.length_append, hlong, ← Nat.add_assoc,
      ← h.size_counts]
    rfl
  case key_length =>
    intro kv hkv hge
    rw [dictWrite_of_new _ hnew, List.mem_append, List.mem_singleton] at hkv
    obtain hkv | rfl := hkv
    · exact h.key_length kv hkv hge
    · simp only [hcode, List.length_append, List.length_singleton]
      omega

end Insert

/-- What steps 1 to 4 of ENC_BYTE leave for rules 5 and 6 (41_encoder.md R142): EncOk, but for a size that one insertion may
have taken past its bounds. -/
structure EncWalked (e : Enc) : Prop where
  dict : EncDictOk e.dict e.size.toNat
  pfx_key : dictHas e.dict e.pfx = true
  size_low : 259 ≤ e.size.toNat
  thresh : e.thresh.toNat = 2 ^ e.width.toNat - 1
  size_high : e.size.toNat ≤ e.thresh.toNat + 1
  width_low : 9 ≤ e.width.toNat
  ctl : EncCtlOk e.max e.ctl

theorem EncOk.walked {e : Enc} {p : ByteString} (h : EncOk e) (hp : dictHas e.dict p = true) :
    EncWalked { e with pfx := p } where
  dict := h.dictOk
  pfx_key := hp
  size_low := h.size_bounds.1
  thresh := h.thresh_width.1
  size_high := Nat.le_succ_of_le h.thresh_width.2
  width_low := h.width_low
  ctl := h.ctlOk

theorem EncDictOk.has_literal {d : Dict ByteString Code} {n : Nat} (h : EncDictOk d n) (b : Byte) :
    dictHas d [b] = true := by simp [dictHas, h.literals]

theorem EncOk.walked_insert {e : Enc} {b : Byte} {c : Code} (h : EncOk e) (hp : e.pfx ≠ [])
    (hs : e.size.toNat < 32768) (hc : dictRead e.dict e.pfx = some c)
    (hnew : dictHas e.dict (e.pfx ++ [b]) = false) :
    EncWalked { e with
      dict := dictWrite e.dict (e.pfx ++ [b]) (codeOfSize e.size), size := e.size + 1#16, pfx := [b] } := by
  have hsize : (e.size + 1#16).toNat = e.size.toNat + 1 := succ_toNat (by omega)
  have hd := h.dictOk.insert h.size_bounds.1 hs hp hc hnew
  exact {
    dict := hsize ▸ hd
    pfx_key := hd.has_literal b
    size_low := hsize ▸ Nat.le_succ_of_le h.size_bounds.1
    thresh := h.thresh_width.1
    size_high := hsize ▸ Nat.succ_le_succ h.thresh_width.2
    width_low := h.width_low
    ctl := h.ctlOk }

/-- Rules 5 and 6 bring the size back within the cap and the threshold. -/
theorem encAfterWalk_keeps_ok {e e' : Enc} {out out' : List Code} (h : EncWalked e)
    (hr : encAfterWalk e out = .ok (e', out')) : EncOk e' := by
  have below (hm : e.size.toNat < e.max.toNat) : 259 ≤ e.size.toNat ∧ e.size.toNat ≤ max 259 (e.max.toNat - 1) :=
    ⟨h.size_low, by omega⟩
  obtain ⟨-, _, -, rfl, -⟩ | ⟨hm, ht, rfl, -⟩ | ⟨hm, -, h15, hw, rfl, -⟩ := encAfterWalk_eq_ok hr
  · exact encReset_ok h.ctl
  · exact { h.dict with
      pfx_key := .inr h.pfx_key
      size_bounds := below hm
      thresh_width := ⟨h.thresh, ht⟩
      width_low := h.width_low
      config := h.ctl.1
      fault_codes := h.ctl.2 }
  · have hthresh : (BitVec.ofNat 16 (2 * e.thresh.toNat + 1)).toNat = 2 * e.thresh.toNat + 1 := by
      rw [BitVec.toNat_ofNat]
      omega
    have hwidth : (BitVec.ofNat 4 (e.width.toNat + 1)).toNat = e.width.toNat + 1 := by
      rw [BitVec.toNat_ofNat]
      omega
    have hhigh : e.size.toNat ≤ 2 * e.thresh.toNat + 1 := by
      have := h.size_high
      omega
    exact { h.dict with
      pfx_key := .inr h.pfx_key
      size_bounds := below hm
      thresh_width := ⟨by rw [hthresh, hwidth, double_thresh h.thresh], hthresh.symm ▸ hhigh⟩
      width_low := hwidth.symm ▸ Nat.le_succ_of_le h.width_low
      config := h.ctl.1
      fault_codes := h.ctl.2 }

theorem encWalk_keeps_ok {b : Byte} {e e' : Enc} {out : List Code} (h : EncOk e) (hf : e.ctl.fault = .none)
    (hr : encWalk b e = .ok (e', out)) : EncOk e' := by
  obtain ⟨hk, hr⟩ | ⟨-, -, hr⟩ | ⟨-, -, -, hr⟩ | ⟨hk, hp, hs, c, hc, hr⟩ := encWalk_eq_ok hr
  · exact encAfterWalk_keeps_ok (h.walked hk) hr
  · exact encAfterWalk_keeps_ok (h.walked (h.dictOk.has_literal b)) hr
  · cases hr
    exact h.withCtl (h.ctlOk_of_raise hf (by simp))
  · exact encAfterWalk_keeps_ok (h.walked_insert hp hs hc hk) hr

theorem encByte_keeps_ok {b : Byte} {e e' : Enc} {out : List Code} (h : EncOk e)
    (hr : encByte b e = .ok (e', out)) : EncOk e' := by
  obtain hr | ⟨hf, hr⟩ | ⟨hf, -, hr⟩ := guardUnit_eq_ok hr
  · cases hr
    exact h
  · cases hr
    exact h.withCtl (h.ctlOk_of_raise hf (by simp))
  · exact encWalk_keeps_ok h hf hr

theorem encEnd_keeps_ok {e e' : Enc} {out : List Code} (h : EncOk e) (hr : encEnd e = .ok (e', out)) : EncOk e' := by
  obtain hr | ⟨hf, hr⟩ | ⟨hf, -, hr⟩ := guardUnit_eq_ok hr
  · cases hr
    exact h
  · cases hr
    exact h.withCtl (h.ctlOk_of_raise hf (by simp))
  · obtain ⟨_, -, rfl, -⟩ := encFinish_eq_ok hr
    exact encReset_ok (h.ctlOk_of_raise hf (by simp [hf]))

theorem encConfigure_ok (m : Word16) (e : Enc) : EncOk (encConfigure m e) := by
  refine encReset_ok (e := { e with max := m }) ?_
  cases hm : legalMax m <;> simp [EncCtlOk, hm]

/-! ### The Packer -/

theorem PkOk.withCtl {p : Pk} {c : UnitCtl} (h : PkOk p)
    (hc : c.fault ∈ [FaultCode.none, .codeTooWide, .widthOverflow, .streamClosed]) : PkOk { p with ctl := c } :=
  { h with fault_codes := hc }

theorem packInit_ok (n : Word16) (p : Pk) : PkOk (packInit n p) where
  width_low := initWidth_low
  thresh_width := rfl
  buf_short := Nat.zero_le _
  fault_codes := .head _

/-- The flush restores the bound on the pending bits, whatever the field and the padding left (10_state.md R39). -/
theorem packFlush_ok {p : Pk} (hw : 9 ≤ p.width.toNat) (ht : p.thresh.toNat = 2 ^ p.width.toNat - 1)
    (hf : p.ctl.fault ∈ [FaultCode.none, .codeTooWide, .widthOverflow, .streamClosed]) : PkOk (packFlush p).1 where
  width_low := hw
  thresh_width := ht
  buf_short := Nat.le_of_lt_succ (flushBytes_leaves_short p.buf)
  fault_codes := hf

theorem packBody_keeps_ok {cp : Code} {p q : Pk} {out : ByteString} (h : PkOk p)
    (hr : packBody cp p = .ok (q, out)) : PkOk q := by
  obtain ⟨-, hr⟩ | ⟨-, -, hr⟩ | ⟨-, hb, q', hq, hr⟩ := packBody_eq_ok hr
  · cases hr
    exact h.withCtl (by simp)
  · cases hr
    exact h.withCtl (by simp)
  · cases hr
    have reset (p' : Pk) (hp' : p'.ctl = p.ctl) : PkOk (packFlush (packWidthReset p')).1 :=
      packFlush_ok initWidth_low rfl (by rw [packWidthReset_ctl, hp']; exact h.fault_codes)
    obtain ⟨-, rfl⟩ | ⟨hcp, ht, rfl⟩ | ⟨-, rfl⟩ | ⟨-, -, -, rfl⟩ := packEffect_eq_ok hq
    · exact reset _ rfl
    · have hw : (p.width + 1#4).toNat = p.width.toNat + 1 := width_succ (by
        have hlt := p.width.isLt
        have hne : p.width.toNat ≠ 15 := fun hw => hb ⟨hcp, BitVec.eq_of_toNat_eq hw⟩
        omega)
      have hthresh : (BitVec.ofNat 16 (2 * p.thresh.toNat + 1)).toNat = 2 * p.thresh.toNat + 1 := by
        have : p.thresh.toNat < 32768 := ht
        rw [BitVec.toNat_ofNat]
        omega
      refine packFlush_ok (hw ▸ Nat.le_succ_of_le h.width_low) ?_ h.fault_codes
      change (BitVec.ofNat 16 (2 * p.thresh.toNat + 1)).toNat = 2 ^ (p.width + 1#4).toNat - 1
      rw [hthresh, hw, double_thresh h.thresh_width]
    · exact reset _ rfl
    · exact packFlush_ok h.width_low h.thresh_width h.fault_codes

theorem packCode_keeps_ok {cp : Code} {p q : Pk} {out : ByteString} (h : PkOk p)
    (hr : packCode cp p = .ok (q, out)) : PkOk q := by
  obtain hr | ⟨-, hr⟩ | ⟨-, -, hr⟩ := packGuard_eq_ok hr
  · cases hr
    exact h
  · cases hr
    exact h.withCtl (by simp)
  · exact packBody_keeps_ok h hr

theorem packEnd_keeps_ok {p q : Pk} {out : ByteString} (h : PkOk p) (hr : packEnd p = .ok (q, out)) : PkOk q := by
  obtain hr | ⟨-, hr⟩ | ⟨-, -, hr⟩ := packGuard_eq_ok hr
  · cases hr
    exact h
  · cases hr
    exact h.withCtl (by simp)
  · rw [packFinish_eq_ok hr]
    exact { h with buf_short := Nat.zero_le _ }

theorem packAll_keeps_ok {codes : List Code} {p q : Pk} {out : ByteString} (h : PkOk p)
    (hr : packAll codes p = .ok (q, out)) : PkOk q := by
  induction codes generalizing p out with
  | nil =>
    cases hr
    exact h
  | cons cp rest ih =>
    obtain ⟨q', _, hc, rfl | ⟨_, hr⟩⟩ := packAll_cons_eq_ok hr
    · exact packCode_keeps_ok h hc
    · exact ih (packCode_keeps_ok h hc) hr

/-! ### The Unpacker -/

/-- The Unpacker as it stands between commands (10_state.md R44). -/
def Up.settled (u : Up) : Up := { u with off := 0#3, skip := false }

theorem UpOk.settled {u : Up} (h : UpOk u) : UpOk u.settled := { h with between := ⟨rfl, rfl⟩ }

theorem UpOk.withCtl {u : Up} {c : UnitCtl} (h : UpOk u) (hf : u.ctl.fault = .none)
    (hc : c.fault ∈ [FaultCode.none, .widthOverflow, .streamClosed]) : UpOk { u with ctl := c } :=
  { h with acc_short := fun _ => h.acc_short hf, fault_codes := hc }

theorem unpackInit_ok (u : Up) : UpOk (unpackInit u) where
  width_low := initWidth_low
  acc_short := fun _ => (by decide : 0 < Config.initWidth.toNat)
  acc_field := Nat.zero_le _
  between := ⟨rfl, rfl⟩
  fault_codes := .head _

/-- An Unpacker with no bits of a field, at a legal width and with no fault. -/
theorem upOk_of_empty {u : Up} (hw : 9 ≤ u.width.toNat) (ha : u.acc = []) (hf : u.ctl.fault = .none) :
    UpOk u.settled where
  width_low := hw
  acc_short := fun _ => by
    change u.acc.length < u.width.toNat
    rw [ha]
    exact Nat.lt_of_lt_of_le (by decide) hw
  acc_field := by
    change u.acc.length ≤ u.width.toNat
    rw [ha]
    exact Nat.zero_le _
  between := ⟨rfl, rfl⟩
  fault_codes := by
    change u.ctl.fault ∈ _
    rw [hf]
    exact .head _

/-- The width after a codepoint is in 9..15 again: only a BUMP raises it, and not from 15 (43_packer_unpacker.md R237). -/
theorem unpkEffect_width_low {cp : Code} {u : Up} (hw : 9 ≤ u.width.toNat)
    (hb : ¬ (cp = Config.bump ∧ u.width = Config.maxWidth)) : 9 ≤ (unpkEffect cp u).width.toNat := by
  unfold unpkEffect
  split_ifs with h1 h2 h3
  · have hlt := u.width.isLt
    have hne : u.width.toNat ≠ 15 := fun h => hb ⟨h1, BitVec.eq_of_toNat_eq h⟩
    change 9 ≤ (u.width + 1#4).toNat
    rw [width_succ (by omega)]
    omega
  · exact initWidth_low
  · exact initWidth_low
  · exact hw

@[simp] theorem unpkEffect_acc (cp : Code) (u : Up) : (unpkEffect cp u).acc = u.acc := by
  unfold unpkEffect
  split_ifs <;> rfl

@[simp] theorem unpkEffect_ctl (cp : Code) (u : Up) : (unpkEffect cp u).ctl = u.ctl := by
  unfold unpkEffect
  split_ifs <;> rfl

/-- The loop of UNPK_BYTE keeps what holds between commands, but for UP.off and UP.skip. -/
theorem unpkBits_keeps_ok (i : Nat) (x : BitString) {u : Up} (h : UpOk u.settled) (hf : u.ctl.fault = .none) :
    UpOk (unpkBits i x u).1.settled := by
  induction x generalizing i u with
  | nil => exact h
  | cons b rest ih =>
    have hacc : u.acc.length < u.width.toNat := h.acc_short hf
    cases hs : u.skip with
    | true =>
      rw [unpkBits_cons_of_skip hs]
      exact ih _ h hf
    | false =>
      by_cases hl : u.acc.length + 1 = u.width.toNat
      · by_cases hb : fieldCode (u.acc ++ [b]) = Config.bump ∧ u.width = Config.maxWidth
        · rw [unpkBits_cons_of_overflow hs hl hb.1 hb.2]
          exact {
            width_low := h.width_low
            acc_short := nofun
            acc_field := by simp [Up.settled, hl]
            between := ⟨rfl, rfl⟩
            fault_codes := by simp [Up.settled] }
        · rw [unpkBits_cons_of_field hs hl hb]
          refine ih _ (upOk_of_empty (unpkEffect_width_low h.width_low hb) ?_ ?_) ?_ <;> simp [hf]
      · rw [unpkBits_cons_of_more hs hl]
        have hlen : (u.acc ++ [b]).length < u.width.toNat := by
          rw [List.length_append, List.length_singleton]
          omega
        exact ih _ { h with acc_short := fun _ => hlen, acc_field := hlen.le } hf

theorem unpkByte_keeps_ok (b : Byte) {u : Up} (h : UpOk u) : UpOk (unpkByte b u).1 := by
  unfold unpkByte
  obtain hg | ⟨hf, hg⟩ | ⟨hf, -, hg⟩ := unpkGuard_cases u (unpkBody b u) <;> rw [hg]
  · exact h
  · exact h.withCtl hf (by simp)
  · exact unpkBits_keeps_ok 0 _ (u := { u with skip := false }) h.settled hf

theorem unpkEnd_keeps_ok {u : Up} (h : UpOk u) : UpOk (unpkEnd u).1 := by
  unfold unpkEnd
  obtain hg | ⟨hf, hg⟩ | ⟨hf, -, hg⟩ :=
    unpkGuard_cases u ({ u with acc := [], ctl := closeUnit u.ctl }, []) <;> rw [hg]
  · exact h
  · exact h.withCtl hf (by simp)
  · exact { h with
      acc_short := fun _ => Nat.lt_of_lt_of_le (by decide : 0 < 9) h.width_low
      acc_field := Nat.zero_le _ }

/-! ### The Decoder -/

theorem DeOk.withCtl {d : De} {c : UnitCtl} (h : DeOk d)
    (hc : c.fault ∈ [FaultCode.none, .protocolMisuse, .dictCeiling, .unknownCode, .streamClosed]) :
    DeOk { d with ctl := c } := { h with fault_codes := hc }

/-- The reset leaves the dictionary of power-on, and so every invariant. -/
theorem decReset_ok (d : De) {c : UnitCtl}
    (hc : c.fault ∈ [FaultCode.none, .protocolMisuse, .dictCeiling, .unknownCode, .streamClosed]) :
    DeOk { decReset d with ctl := c } := by
  have hd : decGrown 0 none = { decReset d with ctl := UnitCtl.reset } := by
    simp [decGrown, decGrownDict, decReset, Config.initSize]
  have h : DeOk (decGrown 0 none) := decGrown_ok (by omega) nofun fun _ => rfl
  exact (hd ▸ h).withCtl hc

theorem decInit_ok (d : De) : DeOk (decInit d) := decReset_ok d (.head _)

theorem DeOk.code_of_mem {d : De} (h : DeOk d) {c : Code} {v : ByteString} (hm : (c, v) ∈ d.dict) :
    c.toNat < 256 ∨ (259 ≤ c.toNat ∧ c.toNat < d.size.toNat) :=
  toNat_of_mem_codesInUse h.size_bounds.2 (h.keys ▸ List.mem_map_of_mem (f := Prod.fst) hm)

theorem DeOk.keys_nodup {d : De} (h : DeOk d) : (dictKeys d.dict).Nodup :=
  h.keys ▸ codesInUse_nodup_of_le h.size_bounds.2

/-- 20_memory.md R64: an entry is at most DE.size - 258 bytes long. -/
theorem DeOk.length_of_mem {d : De} (h : DeOk d) {c : Code} {v : ByteString} (hm : (c, v) ∈ d.dict) :
    v.length + 258 ≤ d.size.toNat := by
  obtain hc | ⟨hc, hlt⟩ := h.code_of_mem hm
  · have hlit := h.literals (BitVec.ofNat 8 c.toNat)
    rw [codeOfByte_of_lt hc, dictRead_of_mem h.keys_nodup hm] at hlit
    rw [Option.some.inj hlit]
    exact h.size_bounds.1
  · have : v.length + 257 ≤ c.toNat := h.val_length _ hm hc
    omega

theorem DeOk.next_not_key {d : De} (h : DeOk d) (hs : d.size.toNat < 32768) : codeOfSize d.size ∉ dictKeys d.dict := by
  rw [h.keys]
  intro hk
  have := toNat_lt_of_mem_codesInUse h.size_bounds.1 h.size_bounds.2 hk
  rw [codeOfSize_toNat hs] at this
  omega

/-- A definition keeps the invariants: the new entry extends DE.pfx, which is an entry, and its code is the next one. -/
theorem decInsert_ok {d : De} {p v : ByteString} {x : Byte} (h : DeOk d) (hp : d.pfx = some p)
    (hs : d.size.toNat < 32768) (hv : v ∈ dictVals d.dict ∨ v = p ++ [x]) :
    DeOk { decInsert (p ++ [x]) d with pfx := some v } := by
  have hnew := h.next_not_key hs
  have hcode := codeOfSize_toNat hs
  have hsize : (d.size + 1#16).toNat = d.size.toNat + 1 := succ_toNat (by omega)
  obtain ⟨⟨c, p'⟩, hpc, rfl⟩ := List.mem_map.1 (h.pfx_entry p hp)
  have hlen := h.length_of_mem hpc
  have hcn : c.toNat < d.size.toNat := by
    have := h.code_of_mem hpc
    have := h.size_bounds.1
    omega
  have hdict := dictWrite_of_new (p' ++ [x]) hnew
  have hvals := dictVals_dictWrite_of_new (p' ++ [x]) hnew
  constructor
  case keys =>
    change dictKeys (dictWrite _ _ _) = codesInUse (d.size + 1#16).toNat
    rw [dictKeys_dictWrite_of_new _ hnew, h.keys, hsize, codesInUse_succ h.size_bounds.1]
    rfl
  case literals =>
    intro b
    refine (dictRead_dictWrite_other _ _ fun he => ?_).trans (h.literals b)
    have hb := congrArg BitVec.toNat he
    have := b.isLt
    have := h.size_bounds.1
    rw [codeOfByte_toNat, hcode] at hb
    omega
  case vals_nonempty =>
    intro w hw
    simp only [decInsert_dict, hvals, List.mem_append, List.mem_singleton] at hw
    obtain hw | rfl := hw
    · exact h.vals_nonempty w hw
    · simp
  case extends_earlier =>
    intro kv hkv hge
    simp only [decInsert_dict, hdict, List.mem_append, List.mem_singleton] at hkv ⊢
    obtain hkv | rfl := hkv
    · obtain ⟨pv, hpv, hext⟩ := h.extends_earlier kv hkv hge
      exact ⟨pv, .inl hpv, hext⟩
    · exact ⟨(c, p'), .inl hpc, hcode.symm ▸ hcn, List.dropLast_concat.symm⟩
  case val_length =>
    intro kv hkv hge
    simp only [decInsert_dict, hdict, List.mem_append, List.mem_singleton] at hkv
    obtain hkv | rfl := hkv
    · exact h.val_length kv hkv hge
    · simp only [hcode, List.length_append, List.length_singleton]
      omega
  case pfx_entry =>
    intro w hw
    simp only [decInsert_dict, hvals, List.mem_append, List.mem_singleton]
    exact Option.some.inj hw ▸ hv
  case pfx_none => exact nofun
  case size_bounds =>
    have := h.size_bounds.1
    simp only [decInsert_size, hsize]
    omega
  case fault_codes => exact h.fault_codes

theorem decData_keeps_ok {cp : Code} {d d' : De} {out : ByteString} {blkEnd : Bool} (h : DeOk d)
    (hr : decData cp d = .ok (d', out, blkEnd)) : DeOk d' := by
  have entry (hk : dictRead d.dict cp = some out) : out ∈ dictVals d.dict :=
    List.mem_map_of_mem (f := Prod.snd) (mem_of_dictRead hk)
  obtain ⟨-, ⟨f, hf, rfl, -⟩ | ⟨hp, hk, rfl⟩ | ⟨p, x, hp, hs, hout, rfl⟩⟩ := decData_eq_ok hr
  · exact h.withCtl (by obtain rfl | rfl := hf <;> simp)
  · exact { h with
      pfx_entry := fun v hv => Option.some.inj hv ▸ entry hk
      pfx_none := nofun }
  · obtain ⟨hk, -⟩ | ⟨-, -, -, ho⟩ := hout
    · exact decInsert_ok h hp hs (.inl (entry hk))
    · exact decInsert_ok h hp hs (.inr ho)

theorem decStep_keeps_ok {resolve : Bool} {cp : Code} {d d' : De} {out : ByteString} {blkEnd : Bool} (h : DeOk d)
    (hr : decStep resolve cp d = .ok (d', out, blkEnd)) : DeOk d' := by
  obtain ⟨-, -, -, rfl⟩ | ⟨-, rfl | rfl | rfl | hr⟩ := decStep_eq_ok hr
  · exact decReset_ok d h.fault_codes
  · exact h
  · exact decReset_ok d h.fault_codes
  · exact h.withCtl (by simp)
  · exact decData_keeps_ok h hr

theorem decGuard_keeps_ok {body : DecResult} {d d' : De} {out : ByteString} {blkEnd : Bool} (h : DeOk d)
    (hb : body = .ok (d', out, blkEnd) → DeOk d') (hr : decGuard d body = .ok (d', out, blkEnd)) : DeOk d' := by
  obtain hr | ⟨-, hr⟩ | ⟨-, -, hr⟩ := decGuard_eq_ok hr
  · cases hr
    exact h
  · cases hr
    exact h.withCtl (by simp)
  · exact hb hr

theorem decCode_keeps_ok {cp : Code} {d d' : De} {out : ByteString} {blkEnd : Bool} (h : DeOk d)
    (hr : decCode cp d = .ok (d', out, blkEnd)) : DeOk d' := decGuard_keeps_ok h (decStep_keeps_ok h) hr

theorem decEnd_keeps_ok {d d' : De} {out : ByteString} {blkEnd : Bool} (h : DeOk d)
    (hr : decEnd d = .ok (d', out, blkEnd)) : DeOk d' := by
  refine decGuard_keeps_ok h (fun hr => ?_) hr
  cases hr
  exact h.withCtl h.fault_codes

theorem decAll_keeps_ok {codes : List Code} {d d' : De} {out : ByteString} {blkEnd : Bool} (h : DeOk d)
    (hr : decAll codes d = .ok (d', out, blkEnd)) : DeOk d' := by
  induction codes generalizing d out blkEnd with
  | nil =>
    cases hr
    exact h
  | cons cp rest ih =>
    obtain ⟨q, _, _, hc, ⟨rfl, -⟩ | ⟨_, _, hr, -⟩⟩ := decAll_cons_eq_ok hr
    · exact decCode_keeps_ok h hc
    · exact ih (decCode_keeps_ok h hc) hr

theorem respondDec_keeps_ok {s t : State} {body : DecResult} (h : State.Ok s)
    (hb : ∀ d out blkEnd, body = .ok (d, out, blkEnd) → DeOk d) (hr : respondDec s (decGuard s.de body) = .ok t) :
    State.Ok t := by
  obtain ⟨d, out, blkEnd, hd, rfl⟩ := respondDec_eq_ok.1 hr
  exact { h with de := decGuard_keeps_ok h.de (hb d out blkEnd) hd }

/-! ### The step -/

theorem ruleOf_keeps_ok {i : Instr} {s t : State} (h : State.Ok s) (hr : ruleOf i s = .ok t) : State.Ok t := by
  cases i with
  | encByte b =>
    obtain ⟨e, out, he, rfl⟩ := respondEnc_eq_ok.1 hr
    exact { h with enc := encByte_keeps_ok h.enc he }
  | encEnd =>
    obtain ⟨e, out, he, rfl⟩ := respondEnc_eq_ok.1 hr
    exact { h with enc := encEnd_keeps_ok h.enc he }
  | packCode cp =>
    obtain ⟨p, out, hp, rfl⟩ := respondPk_eq_ok.1 hr
    exact { h with pk := packCode_keeps_ok h.pk hp }
  | packEnd =>
    obtain ⟨p, out, hp, rfl⟩ := respondPk_eq_ok.1 hr
    exact { h with pk := packEnd_keeps_ok h.pk hp }
  | unpkByte b =>
    obtain rfl := respondUp_eq_ok.1 hr
    exact { h with up := unpkByte_keeps_ok b h.up }
  | unpkEnd =>
    obtain rfl := respondUp_eq_ok.1 hr
    exact { h with up := unpkEnd_keeps_ok h.up }
  | decCode _ | decResolve _ => exact respondDec_keeps_ok h (fun _ _ _ => decStep_keeps_ok h.de) hr
  | cpLiteral _ | cpDynamic _ => exact respondDec_keeps_ok h (fun _ _ _ => decData_keeps_ok h.de) hr
  | decEnd =>
    obtain ⟨d, out, blkEnd, hd, rfl⟩ := respondDec_eq_ok.1 hr
    exact { h with de := decEnd_keeps_ok h.de hd }
  | cpBump =>
    refine respondDec_keeps_ok h (fun d out blkEnd hd => ?_) hr
    cases hd
    exact h.de
  | cpEoi | cpClear =>
    refine respondDec_keeps_ok h (fun d out blkEnd hd => ?_) hr
    cases hd
    exact decReset_ok s.de h.de.fault_codes
  | cmpByte b =>
    obtain ⟨e, codes, p, out, he, hp, rfl⟩ := cmpByte_eq_ok hr
    exact { h with enc := encByte_keeps_ok h.enc he, pk := packAll_keeps_ok h.pk hp }
  | cmpEnd =>
    obtain ⟨e, codes, p, out, q, last, he, hp, hq, rfl⟩ := cmpEnd_eq_ok hr
    exact { h with enc := encEnd_keeps_ok h.enc he, pk := packEnd_keeps_ok (packAll_keeps_ok h.pk hp) hq }
  | dcmpByte b =>
    obtain ⟨d, out, blkEnd, hd, rfl⟩ := dcmpByte_eq_ok hr
    exact { h with up := unpkByte_keeps_ok b h.up, de := decAll_keeps_ok h.de hd }
  | dcmpEnd =>
    obtain ⟨d, out, blkEnd, hd, rfl⟩ := dcmpEnd_eq_ok hr
    exact { h with up := unpkEnd_keeps_ok h.up, de := decEnd_keeps_ok h.de hd }
  | init m =>
    cases hr
    exact {
      enc := encConfigure_ok m s.enc
      de := decInit_ok s.de
      pk := packInit_ok Config.initSize s.pk
      up := unpackInit_ok s.up
      cmd := .head _ }
  | initPack n =>
    cases hr
    exact { h with pk := packInit_ok n s.pk }
  | reserved _ =>
    cases hr
    exact { h with cmd := .tail _ (.head _) }

theorem exec_keeps_ok {i : Instr} {s t : State} (h : State.Ok s) (hr : exec i s = .next t) : State.Ok t := by
  obtain rfl | hr := exec_eq_next hr
  · exact { h with }
  · exact ruleOf_keeps_ok h hr

/-- Settles O57: the idle step changes nothing, and every other step is an instruction's. -/
theorem stepKeepsTheInvariant : Obligations.StepKeepsTheInvariant := by
  intro s t h hr
  obtain hs | ⟨i, rest, hs⟩ := step_cases s
  · cases hs.symm.trans hr
    exact h
  · have hport : State.Ok { s with port := rest } := { h with }
    exact exec_keeps_ok hport (hs.symm.trans hr)

end Sys2Proof.Machine
end

section
/-! Encoding and decoding (30_encoding.md R80 to R93): command words and their fields, the operand forms, then the decoder of
command words, the decoder of codepoints, and what an ill-formed word does. -/

namespace Sys2Proof.Machine

/-! ### A command word and its fields -/

@[simp] theorem opField_commandWord (op : BitVec 4) (data : Word16) : opField (commandWord op data) = op := by
  have := data.isLt
  apply BitVec.eq_of_toNat_eq
  rw [opField_toNat, commandWord_toNat]
  omega

@[simp] theorem dataField_commandWord (op : BitVec 4) (data : Word16) : dataField (commandWord op data) = data := by
  have := data.isLt
  apply BitVec.eq_of_toNat_eq
  rw [dataField_toNat, commandWord_toNat]
  omega

theorem commandWord_fields (w : CmdWord) : commandWord (opField w) (dataField w) = w := by
  apply BitVec.eq_of_toNat_eq
  rw [commandWord_toNat, opField_toNat, dataField_toNat]
  omega

theorem decode_cmd (w : CmdWord) : decode (.cmd w) = decodeOp (opField w).toNat (dataField w) := rfl

theorem decode_commandWord (op : BitVec 4) (data : Word16) :
    decode (.cmd (commandWord op data)) = decodeOp op.toNat data := by
  rw [decode_cmd, opField_commandWord, dataField_commandWord]

/-! ### The operand forms -/

/-- The bits from `k` upward are 0 exactly in the numbers below `2 ^ k`. -/
theorem extractLsb'_eq_zero_iff {w k n : Nat} (hw : w = k + n) (x : BitVec w) :
    x.extractLsb' k n = 0#n ↔ x.toNat < 2 ^ k := by
  subst hw
  have hlt : x.toNat / 2 ^ k < 2 ^ n := Nat.div_lt_of_lt_mul (Nat.pow_add 2 k n ▸ x.isLt)
  rw [← BitVec.toNat_inj, BitVec.extractLsb'_toNat, BitVec.toNat_ofNat, Nat.zero_mod, Nat.shiftRight_eq_div_pow,
    Nat.mod_eq_of_lt hlt, Nat.div_eq_zero_iff]
  simp

theorem operandByte_eq_some {data : Word16} {b : Byte} : operandByte data = some b ↔ data = dataOfByte b := by
  have := b.isLt
  simp only [operandByte, extractLsb'_eq_zero_iff (k := 8) (n := 8) rfl, Option.ite_none_right_eq_some,
    Option.some.injEq, ← BitVec.toNat_inj, dataOfByte_toNat, BitVec.extractLsb'_toNat, Nat.shiftRight_zero]
  omega

theorem operandCode_eq_some {data : Word16} {cp : Code} : operandCode data = some cp ↔ data = dataOfCode cp := by
  have := cp.isLt
  simp only [operandCode, extractLsb'_eq_zero_iff (k := 15) (n := 1) rfl, Option.ite_none_right_eq_some,
    Option.some.injEq, ← BitVec.toNat_inj, dataOfCode_toNat, BitVec.extractLsb'_toNat, Nat.shiftRight_zero]
  omega

theorem decodeByteForm_eq_ok {f : Byte → Instr} {data : Word16} {i : Instr} :
    decodeByteForm f data = .ok i ↔ ∃ b, data = dataOfByte b ∧ i = f b := by
  simp only [← operandByte_eq_some, decodeByteForm]
  cases operandByte data <;> simp [eq_comm]

theorem decodeCodeForm_eq_ok {f : Code → Instr} {data : Word16} {i : Instr} :
    decodeCodeForm f data = .ok i ↔ ∃ cp, data = dataOfCode cp ∧ i = f cp := by
  simp only [← operandCode_eq_some, decodeCodeForm]
  cases operandCode data <;> simp [eq_comm]

theorem decodeEndForm_eq_ok {j : Instr} {data : Word16} {i : Instr} :
    decodeEndForm j data = .ok i ↔ data = 0#16 ∧ i = j := by
  by_cases h : data = 0#16 <;> simp [decodeEndForm, operandNone, h, eq_comm]

theorem exists_dataOfByte_iff {data : Word16} : (∃ b, data = dataOfByte b) ↔ data.toNat < 256 := by
  constructor
  · rintro ⟨b, rfl⟩
    exact dataOfByte_toNat b ▸ b.isLt
  · intro h
    refine ⟨BitVec.ofNat 8 data.toNat, BitVec.eq_of_toNat_eq ?_⟩
    rw [dataOfByte_toNat, BitVec.toNat_ofNat, Nat.mod_eq_of_lt h]

theorem exists_dataOfCode_iff {data : Word16} : (∃ cp, data = dataOfCode cp) ↔ data.toNat < 32768 := by
  constructor
  · rintro ⟨cp, rfl⟩
    exact dataOfCode_toNat cp ▸ cp.isLt
  · intro h
    refine ⟨BitVec.ofNat 15 data.toNat, BitVec.eq_of_toNat_eq ?_⟩
    rw [dataOfCode_toNat, BitVec.toNat_ofNat, Nat.mod_eq_of_lt h]

/-! ### Codepoints -/

theorem eq_eoi_iff {cp : Code} : cp = Config.eoi ↔ cp.toNat = 256 := BitVec.toNat_inj.symm

theorem eq_bump_iff {cp : Code} : cp = Config.bump ↔ cp.toNat = 257 := BitVec.toNat_inj.symm

theorem eq_clear_iff {cp : Code} : cp = Config.clear ↔ cp.toNat = 258 := BitVec.toNat_inj.symm

/-- R86 on the codepoint's number. -/
theorem decodeCode_eq (cp : Code) : decodeCode cp =
    if cp.toNat = 256 then .cpEoi else if cp.toNat = 257 then .cpBump else if cp.toNat = 258 then .cpClear
      else if cp.toNat < 256 then .cpLiteral (BitVec.ofNat 8 cp.toNat) else .cpDynamic cp := by
  have hlow : cp.extractLsb' 0 8 = BitVec.ofNat 8 cp.toNat := by simp [← BitVec.toNat_inj]
  simp only [decodeCode, eq_eoi_iff, eq_bump_iff, eq_clear_iff, extractLsb'_eq_zero_iff (k := 8) (n := 7) rfl, hlow]
  rfl

theorem decodeCode_codeOfByte (b : Byte) : decodeCode (codeOfByte b) = .cpLiteral b := by
  have := b.isLt
  simp (disch := omega) only [decodeCode_eq, codeOfByte_toNat, if_neg, if_pos]
  simp

theorem decodeCode_of_dynamic {cp : Code} (h : 259 ≤ cp.toNat) : decodeCode cp = .cpDynamic cp := by
  simp (disch := omega) only [decodeCode_eq, if_neg]

/-- Settles O5. -/
theorem codepointClassIsTheFirstMatch : Obligations.CodepointClassIsTheFirstMatch := by
  intro cp
  rw [← decodeCode_eq]
  rfl

theorem encode_decodeCode (cp : Code) : (decodeCode cp).wf = true ∧ encode (decodeCode cp) = .code cp := by
  rw [decodeCode_eq]
  split_ifs with he hb hc hl
  · exact ⟨rfl, congrArg _ (eq_eoi_iff.2 he).symm⟩
  · exact ⟨rfl, congrArg _ (eq_bump_iff.2 hb).symm⟩
  · exact ⟨rfl, congrArg _ (eq_clear_iff.2 hc).symm⟩
  · exact ⟨rfl, congrArg _ (codeOfByte_of_lt hl)⟩
  · refine ⟨?_, rfl⟩
    simp only [Instr.wf, decide_eq_true_eq]
    omega

/-! ### Command words -/

theorem decodeOp_eq_ok {op : BitVec 4} {data : Word16} {i : Instr} (h : decodeOp op.toNat data = .ok i) :
    i.wf = true ∧ encode i = .cmd (commandWord op data) := by
  obtain ⟨n, hn⟩ := op
  change decodeOp n data = .ok i at h
  match n, hn with
  | 0, _ | 4, _ | 9, _ | 11, _ =>
    obtain ⟨b, rfl, rfl⟩ := decodeByteForm_eq_ok.1 h
    exact ⟨rfl, rfl⟩
  | 2, _ | 6, _ | 8, _ =>
    obtain ⟨cp, rfl, rfl⟩ := decodeCodeForm_eq_ok.1 h
    exact ⟨rfl, rfl⟩
  | 1, _ | 3, _ | 5, _ | 7, _ | 10, _ | 12, _ =>
    obtain ⟨rfl, rfl⟩ := decodeEndForm_eq_ok.1 h
    exact ⟨rfl, rfl⟩
  | 13, _ | 14, _ | 15, _ =>
    cases h
    exact ⟨rfl, rfl⟩
  | n + 16, hn => omega

/-- Settles O3. -/
theorem encodeOfDecodeIsTheWord : Obligations.EncodeOfDecodeIsTheWord := by
  intro w i h
  cases w with
  | cmd w =>
    obtain ⟨hwf, henc⟩ := decodeOp_eq_ok h
    exact ⟨hwf, henc.trans (congrArg _ (commandWord_fields w))⟩
  | code cp =>
    cases h
    exact encode_decodeCode cp

theorem decode_byteCommand {op : BitVec 4} {f : Byte → Instr} (h : ∀ data, decodeOp op.toNat data = decodeByteForm f data)
    (b : Byte) : decode (.cmd (commandWord op (dataOfByte b))) = .ok (f b) :=
  (decode_commandWord _ _).trans ((h _).trans (decodeByteForm_eq_ok.2 ⟨b, rfl, rfl⟩))

theorem decode_codeCommand {op : BitVec 4} {f : Code → Instr} (h : ∀ data, decodeOp op.toNat data = decodeCodeForm f data)
    (cp : Code) : decode (.cmd (commandWord op (dataOfCode cp))) = .ok (f cp) :=
  (decode_commandWord _ _).trans ((h _).trans (decodeCodeForm_eq_ok.2 ⟨cp, rfl, rfl⟩))

/-- Settles O2, form by form. -/
theorem decodeOfEncodeIsTheInstruction : Obligations.DecodeOfEncodeIsTheInstruction := by
  intro i hwf
  cases i with
  | encByte b | unpkByte b | cmpByte b | dcmpByte b => exact decode_byteCommand (fun _ => rfl) b
  | packCode cp | decCode cp | decResolve cp => exact decode_codeCommand (fun _ => rfl) cp
  | encEnd | packEnd | unpkEnd | decEnd | cmpEnd | dcmpEnd => exact decode_commandWord _ _
  | init _ | initPack _ | reserved _ => exact decode_commandWord _ _
  | cpEoi | cpBump | cpClear => rfl
  | cpLiteral b => exact congrArg _ (decodeCode_codeOfByte b)
  | cpDynamic cp => exact congrArg _ (decodeCode_of_dynamic (of_decide_eq_true hwf))

/-- Settles O1. -/
theorem sampleWordsDecode : Obligations.SampleWordsDecode := by
  unfold Obligations.SampleWordsDecode
  decide

/-! ### Well-formed words -/

/-- Settles O4, opcode by opcode. -/
theorem wellFormedWordsAreTheCommands : Obligations.WellFormedWordsAreTheCommands := by
  intro w
  have hop := (opField w).isLt
  have hzero : dataField w = 0#16 ↔ (dataField w).toNat = 0 := BitVec.toNat_inj.symm
  rw [decode_cmd, ← opField_toNat, ← dataField_toNat]
  generalize (opField w).toNat = op at hop ⊢
  match op, hop with
  | 0, _ | 4, _ | 9, _ | 11, _ => simp [decodeOp, decodeByteForm_eq_ok, exists_dataOfByte_iff]
  | 2, _ | 6, _ | 8, _ => simp [decodeOp, decodeCodeForm_eq_ok, exists_dataOfCode_iff]
  | 1, _ | 3, _ | 5, _ | 7, _ | 10, _ | 12, _ => simp [decodeOp, decodeEndForm_eq_ok, hzero]
  | 13, _ | 14, _ | 15, _ => simp [decodeOp]
  | n + 16, hop => omega

/-- The model's check of R92 accepts exactly the words of R91's commands. -/
theorem wellFormedWord_iff_isCommand {w : CmdWord} :
    wellFormedWord w = true ↔ ∃ i, decode (.cmd w) = .ok i ∧ ∀ data, i ≠ .reserved data := by
  rw [wellFormedWordsAreTheCommands w, ← opField_toNat, ← dataField_toNat]
  simp [wellFormedWord, imp_iff_not_or, and_assoc]

/-! ### Illegal words -/

theorem illegalCommand_of_unblocked {s : State} (h : s.unblocked) :
    illegalCommand s = .next { s with cmd := { fault := .illegalCommand }, resp := { out := [], blkEnd := false } } :=
  dispatchCommand_of_unblocked _ h

theorem illegalCommand_of_blocked {s : State} (h : s.cmd.fault ≠ .none) :
    illegalCommand s = .next { s with resp := { out := [], blkEnd := false } } := dispatchCommand_of_blocked _ h

/-- An ill-formed word is refused by the decoder or is the reserved row, and both are an illegal command. -/
theorem step_of_illFormed {s : State} {w : CmdWord} {rest : List PortWord} (hp : s.port = .cmd w :: rest)
    (hw : wellFormedWord w = false) : step s = illegalCommand { s with port := rest } := by
  cases hd : decode (.cmd w) with
  | error x => exact step_of_undecoded hp hd
  | ok i =>
    have hi : ∃ data, i = .reserved data := by
      by_contra hn
      push Not at hn
      exact Bool.eq_false_iff.1 hw (wellFormedWord_iff_isCommand.2 ⟨i, hd, hn⟩)
    obtain ⟨data, rfl⟩ := hi
    exact step_of_decoded hp hd

theorem wellFormedWord_reserved (data : Word16) : wellFormedWord (commandWord 0xF#4 data) = false := by
  simp [wellFormedWord]

/-- Settles O9. -/
theorem illegalWordSetsOnlyCmdFault : Obligations.IllegalWordSetsOnlyCmdFault := by
  refine ⟨fun s w rest hp hw => ?_, wellFormedWord_reserved, fun w => wellFormedWord_iff_isCommand.1⟩
  rw [step_of_illFormed hp hw]
  exact ⟨illegalCommand_of_unblocked (s := { s with port := rest }),
    illegalCommand_of_blocked (s := { s with port := rest })⟩

/-- Settles O10: the reserved row is an illegal command. -/
theorem reservedOpcodeRecordsIllegalCommand : Obligations.ReservedOpcodeRecordsIllegalCommand :=
  fun _ _ h => illegalCommand_of_unblocked h

end Sys2Proof.Machine
end

section
/-! Valid codepoints at the Decoder (30_encoding.md R81, R85). -/

namespace Sys2Proof.Machine

theorem mem_codesInUse_of_toNat {n : Nat} {c : Code} (h : c.toNat < 256 ∨ (259 ≤ c.toNat ∧ c.toNat < n)) :
    c ∈ codesInUse n := by
  refine List.mem_map.2 ⟨c.toNat, ?_, by simp⟩
  simp only [List.mem_append, List.mem_range, List.mem_range'_1]
  omega

theorem DeOk.read_of_lt {d : De} {cp : Code} (h : DeOk d) (h9 : 259 ≤ cp.toNat) (hlt : cp.toNat < d.size.toNat) :
    ∃ out, dictRead d.dict cp = some out := by
  rw [← Option.ne_none_iff_exists', Ne, dictRead_eq_none_iff, not_not, h.keys]
  exact mem_codesInUse_of_toNat (.inr ⟨h9, hlt⟩)

theorem DeOk.read_size {d : De} {cp : Code} (h : DeOk d) (hs : cp.toNat = d.size.toNat) : dictRead d.dict cp = none := by
  rw [dictRead_eq_none_iff, h.keys]
  intro hm
  have := toNat_lt_of_mem_codesInUse h.size_bounds.1 h.size_bounds.2 hm
  omega

theorem DeOk.nonempty_of_read {d : De} {cp : Code} {out : ByteString} (h : DeOk d) (hr : dictRead d.dict cp = some out) :
    out ≠ [] := h.vals_nonempty out (List.mem_map_of_mem (f := Prod.snd) (mem_of_dictRead hr))

/-- A known code emits its entry, which becomes DE.pfx (42_decoder.md R185). -/
theorem decData_emits_of_known {d : De} {cp : Code} {out : ByteString} (hr : dictRead d.dict cp = some out)
    (hne : out ≠ []) (hs : d.size.toNat < 32768) :
    ∃ d' : De, d'.pfx = some out ∧ decData cp d = .ok (d', out, false) := by
  rw [decData_of_known hr]
  cases hp : d.pfx with
  | none => exact ⟨_, rfl, decKnown_of_no_prefix out hp⟩
  | some p =>
    obtain ⟨x, xs, rfl⟩ := List.exists_cons_of_ne_nil hne
    exact ⟨_, rfl, decKnown_of_prefix hp hs⟩

/-- The next code emits DE.pfx and its first byte, which become DE.pfx (42_decoder.md R186). -/
theorem decData_emits_of_special {d : De} {cp : Code} {p : ByteString} (hr : dictRead d.dict cp = none)
    (hp : d.pfx = some p) (hne : p ≠ []) (hcp : cp.toNat = d.size.toNat) (hs : d.size.toNat < 32768) :
    ∃ (d' : De) (out : ByteString), out ≠ [] ∧ d'.pfx = some out ∧ decData cp d = .ok (d', out, false) := by
  rw [decData_of_special hr hp hcp]
  obtain ⟨x, xs, rfl⟩ := List.exists_cons_of_ne_nil hne
  exact ⟨_, _, List.concat_ne_nil _ _, rfl, decSpecial_of_room hs⟩

/-- R85: a dynamic codepoint below DE.size, or equal to it with DE.pfx set. -/
theorem DeOk.decData_emits {d : De} {cp : Code} (h : DeOk d) (hs : d.size.toNat < 32768) (h9 : 259 ≤ cp.toNat)
    (hcp : cp.toNat < d.size.toNat ∨ (cp.toNat = d.size.toNat ∧ d.pfx ≠ none)) :
    ∃ (d' : De) (out : ByteString), out ≠ [] ∧ d'.pfx = some out ∧ decData cp d = .ok (d', out, false) := by
  obtain hlt | ⟨heq, hp⟩ := hcp
  · obtain ⟨out, hr⟩ := h.read_of_lt h9 hlt
    have hne := h.nonempty_of_read hr
    obtain ⟨d', hd⟩ := decData_emits_of_known hr hne hs
    exact ⟨d', out, hne, hd⟩
  · obtain ⟨p, hp⟩ := Option.ne_none_iff_exists'.1 hp
    exact decData_emits_of_special (h.read_size heq) hp (h.vals_nonempty p (h.pfx_entry p hp)) heq hs

theorem runArm_of_ready {s : State} {arm : DecResult} {d : De} {out : ByteString} {blkEnd : Bool} (hu : s.unblocked)
    (hr : s.de.ctl.ready) (ha : arm = .ok (d, out, blkEnd)) :
    runArm s arm = .next { s with de := d, resp := { out := out.map .byte, blkEnd := blkEnd } } := by
  rw [runArm, dispatchCommand_of_unblocked _ hu, decGuard, guardUnit_of_ready hr.1 hr.2, ha]
  rfl

/-- Settles O35. -/
theorem validCodepointsComplete : Obligations.ValidCodepointsComplete := by
  intro s hu hr h hs
  constructor
  · intro b
    obtain ⟨d, hp, hd⟩ := decData_emits_of_known (h.literals b) (List.cons_ne_nil b []) hs
    exact ⟨d, hp, runArm_of_ready hu hr hd⟩
  · intro cp h9 hcp
    obtain ⟨d, out, hne, hp, hd⟩ := h.decData_emits hs h9 hcp
    exact ⟨d, out, hne, hp, runArm_of_ready hu hr hd⟩

end Sys2Proof.Machine
end

section
/-! The packed stream (30_encoding.md R87, R88): bytes and bits, one PACK_CODE that fits, one that does not, PACK_END, and
the run of any codepoint list. -/

namespace Sys2Proof.Machine

/-! ### Bytes and bits -/

theorem groupByte_byteBits (b : Byte) : groupByte (byteBits b) = b := by
  revert b; decide +kernel

theorem flushBytes_bytesToBits_append (bs : ByteString) (y : BitString) :
    flushBytes (bytesToBits bs ++ y) = (bs ++ (flushBytes y).1, (flushBytes y).2) := by
  induction bs with
  | nil => rfl
  | cons b bs ih =>
    have hcons : flushBytes (byteBits b ++ (bytesToBits bs ++ y)) =
      (groupByte (byteBits b) :: (flushBytes (bytesToBits bs ++ y)).1, (flushBytes (bytesToBits bs ++ y)).2) := rfl
    rw [bytesToBits_cons, List.append_assoc, hcons, groupByte_byteBits, ih]
    rfl

/-- Whole bytes in front do not change the padding. -/
theorem padToByte_bytesToBits_append (bs : ByteString) (y : BitString) :
    padToByte (bytesToBits bs ++ y) = bytesToBits bs ++ padToByte y := by
  simp [padToByte, padLength]

theorem bitsToBytes_bytesToBits_append (bs : ByteString) (y : BitString) :
    bitsToBytes (bytesToBits bs ++ y) = bs ++ bitsToBytes y := by
  rw [bitsToBytes, padToByte_bytesToBits_append, flushBytes_bytesToBits_append]
  rfl

theorem flushBytes_of_length_eight {x : BitString} (h : x.length = 8) : flushBytes x = ([groupByte x], []) := by
  match x, h with
  | [_, _, _, _, _, _, _, _], _ => rfl

theorem bitsToBytes_of_short {x : BitString} (hne : x ≠ []) (h : x.length ≤ 7) :
    bitsToBytes x = [groupByte (x ++ zeros (8 - x.length))] := by
  have hpos := List.length_pos_iff.2 hne
  have hpad : padLength x.length = 8 - x.length := by
    unfold padLength
    omega
  have hlen : (x ++ zeros (8 - x.length)).length = 8 := by
    rw [List.length_append, zeros_length]
    omega
  rw [bitsToBytes, padToByte, hpad, flushBytes_of_length_eight hlen]

theorem itemBytes_map_byte (out : ByteString) : itemBytes (out.map .byte) = out := by
  induction out with
  | nil => rfl
  | cons b out ih => exact congrArg (b :: ·) ih

theorem responseBytes_cons_byte (out : ByteString) (blkEnd : Bool) (rs : List Response) :
    responseBytes ({ out := out.map .byte, blkEnd := blkEnd } :: rs) = out ++ responseBytes rs := by
  simp [responseBytes, itemBytes_map_byte]

/-! ### One PACK_CODE -/

theorem eq_maxWidth_iff {w : BitVec 4} : w = Config.maxWidth ↔ w.toNat = 15 := BitVec.toNat_inj.symm

theorem PkOk.thresh_lt {p : Pk} (h : PkOk p) (hw : p.width.toNat < 15) : p.thresh.toNat < 32768 := by
  have := Nat.pow_le_pow_right (n := 2) (by decide) hw.le
  have := h.thresh_width
  omega

/-- A codepoint that the Packer can write at width `w` (43_packer_unpacker.md R222, R227). -/
abbrev FitsField (cp : Code) (w : Nat) : Prop := cp.toNat < 2 ^ w ∧ ¬ (cp = Config.bump ∧ w = 15)

theorem fitsStream_cons_of_fits {w : Nat} {cp : Code} {rest : List Code} (h : FitsField cp w) :
    fitsStream w (cp :: rest) = fitsStream (nextWidth w cp) rest := by
  rw [Bool.eq_iff_iff, fitsStream_cons]
  exact ⟨fun hs => hs.2.2, fun hs => ⟨h.1, h.2, hs⟩⟩

theorem fitsField_of_fitsStream {w : Nat} {cp : Code} {rest : List Code} (h : fitsStream w (cp :: rest) = true) :
    FitsField cp w := by
  obtain ⟨hlt, hb, -⟩ := fitsStream_cons.1 h
  exact ⟨hlt, hb⟩

/-- The bits after a codepoint is written to `x` at width `w`, padded after END_OF_INFO (43_packer_unpacker.md R223, R225). -/
def withField (cp : Code) (w : Nat) (x : BitString) : BitString :=
  if cp = Config.eoi then padToByte (x ++ fieldBits w cp.toNat) else x ++ fieldBits w cp.toNat

theorem streamBits_cons_of_fits {w : Nat} {cp : Code} (h : FitsField cp w) (rest : List Code) (x : BitString) :
    streamBits w (cp :: rest) x = streamBits (nextWidth w cp) rest (withField cp w x) := streamBits_cons h.1 h.2 rest x

/-- Padding the bits after whole bytes pads the whole. -/
theorem withField_bytesToBits_append (cp : Code) (w : Nat) (bs : ByteString) (x : BitString) :
    withField cp w (bytesToBits bs ++ x) = bytesToBits bs ++ withField cp w x := by
  unfold withField
  split_ifs
  · rw [List.append_assoc, padToByte_bytesToBits_append]
  · rw [List.append_assoc]

theorem packGuard_of_faulted {p : Pk} (body : Result (Pk × ByteString)) (h : p.ctl.fault ≠ .none) :
    packGuard p body = .ok (p, []) := guardUnit_of_faulted h

theorem packGuard_of_ready {p : Pk} (body : Result (Pk × ByteString)) (h : p.ctl.ready) : packGuard p body = body :=
  guardUnit_of_ready h.1 h.2

/-- What a codepoint that is packed does, by its class (43_packer_unpacker.md R225 to R227), to a Packer whose width is
below 15 at a BUMP. -/
theorem packEffect_of_fits {p : Pk} {cp : Code} (ht : cp = Config.bump → p.width.toNat < 15 ∧ p.thresh.toNat < 32768) :
    ∃ q, packEffect cp p = .ok q ∧ q.width.toNat = nextWidth p.width.toNat cp ∧
      q.buf = (if cp = Config.eoi then padToByte p.buf else p.buf) ∧ q.ctl = p.ctl := by
  by_cases he : cp = Config.eoi
  · subst he
    exact ⟨_, packEffect_eoi p, rfl, rfl, rfl⟩
  by_cases hb : cp = Config.bump
  · obtain ⟨hw, hthresh⟩ := ht hb
    subst hb
    exact ⟨_, packEffect_bump hthresh, width_succ hw, rfl, rfl⟩
  by_cases hc : cp = Config.clear
  · subst hc
    exact ⟨_, packEffect_clear p, rfl, rfl, rfl⟩
  · exact ⟨_, packEffect_data he hb hc, by simp [nextWidth, he, hb, hc], by simp [he], rfl⟩

/-- A codepoint that fits its field: what is emitted and what is kept are the bits kept before and the field. -/
theorem packCode_of_fits {p : Pk} {cp : Code} (h : PkOk p) (hr : p.ctl.ready) (hfit : FitsField cp p.width.toNat) :
    ∃ q out, packCode cp p = .ok (q, out) ∧ PkOk q ∧ q.ctl = p.ctl ∧ q.width.toNat = nextWidth p.width.toNat cp ∧
      bytesToBits out ++ q.buf = withField cp p.width.toNat p.buf := by
  obtain ⟨hlt, hb⟩ := hfit
  have hmax : ¬ (cp = Config.bump ∧ p.width = Config.maxWidth) := by rwa [eq_maxWidth_iff]
  have ht : cp = Config.bump → p.width.toNat < 15 ∧ p.thresh.toNat < 32768 := by
    intro hcp
    have hw : p.width.toNat < 15 := by
      have := p.width.isLt
      have : p.width.toNat ≠ 15 := fun hw => hb ⟨hcp, hw⟩
      omega
    exact ⟨hw, h.thresh_lt hw⟩
  obtain ⟨q, hq, hw, hbuf, hctl⟩ :=
    packEffect_of_fits (p := packField (fieldBits p.width.toNat cp.toNat) p) (cp := cp) ht
  have hcode : packCode cp p = .ok (packFlush q) := by
    rw [packCode, packGuard_of_ready _ hr, packBody_of_fits hlt hmax, hq]
    rfl
  exact ⟨_, _, hcode, packCode_keeps_ok h hcode, hctl, hw, (flushBytes_keeps_bits q.buf).trans hbuf⟩

/-- A codepoint that does not fit raises, and nothing is written (43_packer_unpacker.md R222, R227). -/
theorem packCode_of_not_fits {p : Pk} {cp : Code} (hr : p.ctl.ready) (hfit : ¬ FitsField cp p.width.toNat) :
    ∃ f ∈ [FaultCode.codeTooWide, .widthOverflow],
      packCode cp p = .ok ({ p with ctl := raiseFault f p.ctl }, []) := by
  rw [packCode, packGuard_of_ready _ hr]
  by_cases hlt : cp.toNat < 2 ^ p.width.toNat
  · obtain ⟨hb, hw⟩ : cp = Config.bump ∧ p.width.toNat = 15 := by
      by_contra hn
      exact hfit ⟨hlt, hn⟩
    exact ⟨_, .tail _ (.head _), packBody_of_overflow hlt hb (eq_maxWidth_iff.2 hw)⟩
  · exact ⟨_, .head _, packBody_of_too_wide (Nat.le_of_not_lt hlt)⟩

theorem packCode_of_faulted {p : Pk} (cp : Code) (h : p.ctl.fault ≠ .none) : packCode cp p = .ok (p, []) :=
  packGuard_of_faulted _ h

/-! ### PACK_END -/

theorem packEnd_of_faulted {p : Pk} (h : p.ctl.fault ≠ .none) : packEnd p = .ok (p, []) :=
  packGuard_of_faulted _ h

/-- PACK_END emits the pending bits as `bits_to_bytes` gives them (40_bit_utilities.md R123). -/
theorem packEnd_of_ready {p : Pk} (hr : p.ctl.ready) (h : p.buf.length ≤ 7) :
    packEnd p = .ok ({ p with buf := [], ctl := closeUnit p.ctl }, bitsToBytes p.buf) := by
  rw [packEnd, packGuard_of_ready _ hr]
  by_cases hb : p.buf = []
  · rw [packFinish_of_empty hb, hb]
    cases p
    cases hb
    rfl
  · rw [packFinish_of_pending hb (Nat.le_succ_of_le h), bitsToBytes_of_short hb h]

/-! ### The run -/

/-- The state after a Packer command that gave the unit `p` and emitted `out`. -/
def State.afterPack (s : State) (p : Pk) (out : ByteString) : State :=
  { s with pk := p, resp := { out := out.map .byte, blkEnd := false } }

theorem exec_packCode_of_ok {s : State} {cp : Code} {p : Pk} {out : ByteString} (hu : s.unblocked)
    (h : packCode cp s.pk = .ok (p, out)) : exec (.packCode cp) s = .next (s.afterPack p out) :=
  dispatchCommand_eq_next.2 (.inr ⟨hu, respondPk_eq_ok.2 ⟨p, out, h, rfl⟩⟩)

theorem exec_packEnd_of_ok {s : State} {p : Pk} {out : ByteString} (hu : s.unblocked)
    (h : packEnd s.pk = .ok (p, out)) : exec .packEnd s = .next (s.afterPack p out) :=
  dispatchCommand_eq_next.2 (.inr ⟨hu, respondPk_eq_ok.2 ⟨p, out, h, rfl⟩⟩)

theorem execAll_cons_of_next {i : Instr} {rest : List Instr} {s t u : State} {rs : List Response}
    (hi : exec i s = .next t) (hrest : execAll rest t = some (u, rs)) :
    execAll (i :: rest) s = some (u, t.resp :: rs) := by
  simp [execAll, hi, hrest]

/-- PACK_CODE of each codepoint, then PACK_END. -/
def packCommands (codes : List Code) : List Instr := codes.map .packCode ++ [.packEnd]

theorem packCommands_cons (cp : Code) (rest : List Code) :
    packCommands (cp :: rest) = .packCode cp :: packCommands rest := rfl

theorem execAll_packCommands_nil {s : State} {p : Pk} {out : ByteString} (hu : s.unblocked)
    (h : packEnd s.pk = .ok (p, out)) :
    execAll (packCommands []) s = some (s.afterPack p out, [{ out := out.map .byte, blkEnd := false }]) :=
  execAll_cons_of_next (exec_packEnd_of_ok hu h) rfl

theorem execAll_packCommands_cons {s t : State} {cp : Code} {rest : List Code} {p : Pk} {out : ByteString}
    {rs : List Response} (hu : s.unblocked) (h : packCode cp s.pk = .ok (p, out))
    (hrest : execAll (packCommands rest) (s.afterPack p out) = some (t, rs)) :
    execAll (packCommands (cp :: rest)) s = some (t, { out := out.map .byte, blkEnd := false } :: rs) :=
  execAll_cons_of_next (exec_packCode_of_ok hu h) hrest

/-- A faulted Packer stays as it is (60_exceptions.md R294). -/
theorem execAll_packCommands_of_faulted {codes : List Code} {s : State} (hu : s.unblocked)
    (hf : s.pk.ctl.fault ≠ .none) : ∃ t rs, execAll (packCommands codes) s = some (t, rs) ∧ t.pk = s.pk := by
  induction codes generalizing s with
  | nil => exact ⟨_, _, execAll_packCommands_nil hu (packEnd_of_faulted hf), rfl⟩
  | cons cp rest ih =>
    obtain ⟨t, rs, hrun, hpk⟩ := ih (s := s.afterPack s.pk []) hu hf
    exact ⟨t, _, execAll_packCommands_cons hu (packCode_of_faulted cp hf) hrun, hpk⟩

/-- A run that fits writes the stream: the bits of the bytes emitted before (`pre`) and those pending are the bits that the
stream starts from. -/
theorem execAll_packCommands_of_fits {codes : List Code} {s : State} {pre : ByteString} (hu : s.unblocked)
    (hr : s.pk.ctl.ready) (h : PkOk s.pk) (hfit : fitsStream s.pk.width.toNat codes = true) :
    ∃ t rs, execAll (packCommands codes) s = some (t, rs) ∧ t.pk.ctl.fault = .none ∧
      (streamBits s.pk.width.toNat codes (bytesToBits pre ++ s.pk.buf)).map bitsToBytes =
        some (pre ++ responseBytes rs) := by
  induction codes generalizing s pre with
  | nil =>
    refine ⟨_, _, execAll_packCommands_nil hu (packEnd_of_ready hr h.buf_short), hr.1, ?_⟩
    rw [streamBits, Option.map_some, bitsToBytes_bytesToBits_append, responseBytes_cons_byte]
    simp [responseBytes]
  | cons cp rest ih =>
    have hcp := fitsField_of_fitsStream hfit
    obtain ⟨p, out, hcode, hp, hctl, hw, hbits⟩ := packCode_of_fits h hr hcp
    rw [fitsStream_cons_of_fits hcp, ← hw] at hfit
    obtain ⟨t, rs, hrun, hfault, hstream⟩ :=
      ih (s := s.afterPack p out) (pre := pre ++ out) hu (hctl.symm ▸ hr) hp hfit
    refine ⟨t, _, execAll_packCommands_cons hu hcode hrun, hfault, ?_⟩
    rw [streamBits_cons_of_fits hcp, withField_bytesToBits_append, ← hbits, ← hw, ← List.append_assoc,
      ← bytesToBits_append, responseBytes_cons_byte, ← List.append_assoc]
    exact hstream

/-- A run that does not fit records the fault of the first codepoint that does not. -/
theorem execAll_packCommands_of_not_fits {codes : List Code} {s : State} (hu : s.unblocked) (hr : s.pk.ctl.ready)
    (h : PkOk s.pk) (hfit : fitsStream s.pk.width.toNat codes = false) :
    ∃ t rs, execAll (packCommands codes) s = some (t, rs) ∧
      t.pk.ctl.fault ∈ [FaultCode.codeTooWide, .widthOverflow] := by
  induction codes generalizing s with
  | nil => cases hfit
  | cons cp rest ih =>
    by_cases hcp : FitsField cp s.pk.width.toNat
    · obtain ⟨p, out, hcode, hp, hctl, hw, -⟩ := packCode_of_fits h hr hcp
      rw [fitsStream_cons_of_fits hcp, ← hw] at hfit
      obtain ⟨t, rs, hrun, hfault⟩ := ih (s := s.afterPack p out) hu (hctl.symm ▸ hr) hp hfit
      exact ⟨t, _, execAll_packCommands_cons hu hcode hrun, hfault⟩
    · obtain ⟨f, hf, hcode⟩ := packCode_of_not_fits hr hcp
      have hne : f ≠ .none := by
        rintro rfl
        simp at hf
      obtain ⟨t, rs, hrun, hpk⟩ := execAll_packCommands_of_faulted (codes := rest)
        (s := s.afterPack { s.pk with ctl := raiseFault f s.pk.ctl } []) hu hne
      refine ⟨t, _, execAll_packCommands_cons hu hcode hrun, ?_⟩
      rw [hpk]
      exact hf

theorem reset_pk_ok : PkOk State.reset.pk := packInit_ok Config.initSize State.reset.pk

/-- Settles O42: the list fits or not, from reset, with nothing emitted and nothing pending. -/
theorem packerWritesThePackedStream : Obligations.PackerWritesThePackedStream := by
  intro codes
  have hready : State.reset.pk.ctl.ready := ⟨rfl, rfl⟩
  cases hfit : fitsStream 9 codes with
  | true =>
    obtain ⟨t, rs, hrun, hfault, hstream⟩ :=
      execAll_packCommands_of_fits (s := State.reset) (pre := []) rfl hready reset_pk_ok hfit
    exact ⟨t, rs, hrun, fun _ => ⟨hstream, hfault⟩, nofun⟩
  | false =>
    obtain ⟨t, rs, hrun, hfault⟩ := execAll_packCommands_of_not_fits (s := State.reset) rfl hready reset_pk_ok hfit
    exact ⟨t, rs, hrun, nofun, fun _ => hfault⟩

end Sys2Proof.Machine
end

section
/-! The identities of the bit utilities (40_bit_utilities.md R124): bytes and bits, then integers and bits. -/

namespace Sys2Proof.Machine

/-! ### Bytes and bits -/

theorem bitsToBytes_bytesToBits (s : ByteString) : bitsToBytes (bytesToBits s) = s := by
  have h := bitsToBytes_bytesToBits_append s []
  rw [List.append_nil] at h
  exact h.trans (List.append_nil s)

theorem flushBytes_leaves_nil_of_whole {x : BitString} (h : x.length % 8 = 0) : (flushBytes x).2 = [] :=
  List.eq_nil_of_length_eq_zero ((flushBytes_lengths x).2.trans h)

/-- The flush loses no bit, and of a padded sequence it leaves none. -/
theorem bytesToBits_bitsToBytes (x : BitString) : bytesToBits (bitsToBytes x) = padToByte x := by
  have h := flushBytes_keeps_bits (padToByte x)
  rwa [flushBytes_leaves_nil_of_whole (padToByte_length_mod x), List.append_nil] at h

/-! ### Integers and bits -/

/-- The field taken apart at its last bit, as `bitsToInt_append_single` takes a sequence apart. -/
theorem fieldBits_succ_eq_append (w v : Nat) : fieldBits (w + 1) v = fieldBits w (v / 2) ++ [v.testBit 0] := by
  induction w with
  | zero => rfl
  | succ w ih =>
    calc fieldBits (w + 2) v
        = v.testBit (w + 1) :: fieldBits (w + 1) v := rfl
      _ = (v / 2).testBit w :: (fieldBits w (v / 2) ++ [v.testBit 0]) := by rw [Nat.testBit_add_one, ih]
      _ = fieldBits (w + 1) (v / 2) ++ [v.testBit 0] := rfl

theorem bitsToInt_fieldBits {w v : Nat} (h : v < 2 ^ w) : bitsToInt (fieldBits w v) = v := by
  induction w generalizing v with
  | zero => exact (Nat.lt_one_iff.1 h).symm
  | succ w ih =>
    have hhalf : v / 2 < 2 ^ w := Nat.div_lt_of_lt_mul (Nat.pow_succ' ▸ h)
    rw [fieldBits_succ_eq_append, bitsToInt_append_single, ih hhalf, Nat.toNat_testBit, Nat.pow_zero, Nat.div_one]
    exact Nat.div_add_mod v 2

theorem fieldBits_length_bitsToInt (x : BitString) : fieldBits x.length (bitsToInt x) = x := by
  induction x using List.reverseRecOn with
  | nil => rfl
  | append_singleton x y ih =>
    have hhalf : (2 * bitsToInt x + y.toNat) / 2 = bitsToInt x := by
      have := y.toNat_le
      omega
    have hlast : (2 * bitsToInt x + y.toNat).testBit 0 = y := by cases y <;> simp
    rw [List.length_append, List.length_singleton, bitsToInt_append_single, fieldBits_succ_eq_append, hhalf, hlast, ih]

theorem intToBits_bitsToInt (x : BitString) : intToBits (bitsToInt x) x.length = some x := by
  rw [intToBits_eq_some (bitsToInt_lt x), fieldBits_length_bitsToInt]

/-- Settles O55. -/
theorem bitUtilityIdentities : Obligations.BitUtilityIdentities :=
  ⟨bitsToBytes_bytesToBits, bytesToBits_bitsToBytes,
    fun v w h => ⟨fieldBits w v, intToBits_eq_some h, bitsToInt_fieldBits h⟩, intToBits_bitsToInt⟩

end Sys2Proof.Machine
end

section
/-! The Encoder (41_encoder.md): what EncOk says of the dictionary and of the cap, each branch of ENC_BYTE, its outcomes,
the growth law and the emission bound, and ENC_END. -/

namespace Sys2Proof.Machine

/-! ### The commands -/

/-- An Encoder command of an unblocked port answers what its rule gives. -/
theorem dispatch_respondEnc_eq_next {s t : State} {r : Result (Enc × List Code)} (hu : s.unblocked) :
    dispatchCommand s (respondEnc s r) = .next t ↔ ∃ e out, r = .ok (e, out) ∧
      t = { s with enc := e, resp := { out := out.map .code, blkEnd := false } } := by
  rw [dispatchCommand_of_unblocked _ hu, outcomeOf_eq_next]
  exact respondEnc_eq_ok

theorem exec_encByte_eq_next {s t : State} {b : Byte} (hu : s.unblocked) :
    exec (.encByte b) s = .next t ↔ ∃ e out, encByte b s.enc = .ok (e, out) ∧
      t = { s with enc := e, resp := { out := out.map .code, blkEnd := false } } := dispatch_respondEnc_eq_next hu

theorem exec_encEnd_eq_next {s t : State} (hu : s.unblocked) :
    exec .encEnd s = .next t ↔ ∃ e out, encEnd s.enc = .ok (e, out) ∧
      t = { s with enc := e, resp := { out := out.map .code, blkEnd := false } } := dispatch_respondEnc_eq_next hu

theorem encByte_of_ready {b : Byte} {e : Enc} (hr : e.ctl.ready) : encByte b e = encWalk b e :=
  guardUnit_of_ready hr.1 hr.2

theorem exec_encByte_of_encWalk {s : State} {b : Byte} {e : Enc} {out : List Code} (hu : s.unblocked)
    (hr : s.enc.ctl.ready) (h : encWalk b s.enc = .ok (e, out)) :
    exec (.encByte b) s = .next { s with enc := e, resp := { out := out.map .code, blkEnd := false } } :=
  (exec_encByte_eq_next hu).2 ⟨e, out, (encByte_of_ready hr).trans h, rfl⟩

theorem exec_encEnd_of_encEnd {s : State} {e : Enc} {out : List Code} (hu : s.unblocked)
    (h : encEnd s.enc = .ok (e, out)) :
    exec .encEnd s = .next { s with enc := e, resp := { out := out.map .code, blkEnd := false } } :=
  (exec_encEnd_eq_next hu).2 ⟨e, out, h, rfl⟩

/-! ### The dictionary and the cap -/

section Bounds

variable {e : Enc} (h : EncOk e)
include h

theorem EncOk.max_bounds (hf : e.ctl.fault = .none) : 259 ≤ e.max.toNat ∧ e.max.toNat ≤ 32768 := by
  have hl : legalMax e.max ≠ false := fun hl => nomatch hf.symm.trans (h.config.2 hl)
  simpa [legalMax] using hl

theorem EncOk.size_lt (hf : e.ctl.fault = .none) : e.size.toNat < 32768 := by
  have := h.max_bounds hf
  have := h.size_bounds
  omega

/-- The size is at the cap between commands only if the maximum leaves no room at all (41_encoder.md R146). -/
theorem EncOk.at_cap (hf : e.ctl.fault = .none) (hm : e.max.toNat ≤ e.size.toNat) :
    e.max = 259#16 ∧ e.size.toNat = 259 := by
  have := h.max_bounds hf
  have := h.size_bounds
  exact ⟨BitVec.eq_of_toNat_eq (show e.max.toNat = 259 by omega), by omega⟩

theorem EncOk.has_of_empty_pfx (b : Byte) (hp : e.pfx = []) : dictHas e.dict (e.pfx ++ [b]) = true :=
  hp.symm ▸ h.dictOk.has_literal b

theorem EncOk.pfx_ne_nil_of_new {b : Byte} (hnew : dictHas e.dict (e.pfx ++ [b]) = false) : e.pfx ≠ [] :=
  fun hp => Bool.false_ne_true (hnew.symm.trans (h.has_of_empty_pfx b hp))

theorem EncOk.read_pfx (hp : e.pfx ≠ []) : ∃ c, dictRead e.dict e.pfx = some c :=
  Option.isSome_iff_exists.1 (h.pfx_key.resolve_left hp)

/-- At size 259 every key is a literal, so a candidate that is a key has one byte. -/
theorem EncOk.pfx_eq_nil_of_initial_size {b : Byte} (hs : e.size.toNat = 259)
    (hk : dictHas e.dict (e.pfx ++ [b]) = true) : e.pfx = [] := by
  have hcount := h.size_counts
  have hnone : ((dictKeys e.dict).filter fun k => decide (2 ≤ k.length)) = [] :=
    List.eq_nil_of_length_eq_zero (by omega)
  have hshort := List.filter_eq_nil_iff.1 hnone _ ((dictHas_iff_mem_dictKeys _ _).1 hk)
  exact List.eq_nil_of_length_eq_zero (by simpa using hshort)

variable {k : ByteString} {c : Code} (hf : e.ctl.fault = .none) (hc : dictRead e.dict k = some c)
include hf hc

theorem EncOk.code_of_read : c.toNat < 256 ∨ (259 ≤ c.toNat ∧ c.toNat < e.size.toNat) :=
  h.dictOk.code_of_mem (h.size_lt hf).le (mem_of_dictRead hc)

theorem EncOk.isDataCode_of_read : isDataCode c := by
  have := h.code_of_read hf hc
  rw [isDataCode, Ne, Ne, Ne, eq_eoi_iff, eq_bump_iff, eq_clear_iff]
  omega

end Bounds

/-! ### The branches of ENC_BYTE -/

/-- The Encoder that step 3 leaves for rules 5 and 6 (41_encoder.md R144; `encWalk_of_new_eq`). -/
def encDefined (b : Byte) (e : Enc) : Enc :=
  { e with
    dict := dictWrite e.dict (e.pfx ++ [b]) (BitVec.ofNat 15 e.size.toNat)
    size := BitVec.ofNat 16 (e.size.toNat + 1)
    pfx := [b] }

/-- The Encoder that rule 6 leaves past the threshold (41_encoder.md R147; `encWalk_of_new_bump`). -/
def encWidened (e : Enc) : Enc :=
  { e with thresh := BitVec.ofNat 16 (2 * e.thresh.toNat + 1), width := BitVec.ofNat 4 (e.width.toNat + 1) }

@[simp] theorem encWidened_size (e : Enc) : (encWidened e).size = e.size := rfl

theorem encDefined_size {b : Byte} {e : Enc} (hs : e.size.toNat < 32768) :
    (encDefined b e).size.toNat = e.size.toNat + 1 := by
  rw [encDefined, BitVec.toNat_ofNat, Nat.mod_eq_of_lt (by omega)]

section Branches

variable {b : Byte} {e : Enc}

theorem encWalk_of_key_quiet (hk : dictHas e.dict (e.pfx ++ [b]) = true) (hm : e.size.toNat < e.max.toNat)
    (ht : e.size.toNat ≤ e.thresh.toNat) : encWalk b e = .ok ({ e with pfx := e.pfx ++ [b] }, []) :=
  (encWalk_of_key hk).trans (encAfterWalk_of_quiet _ hm ht)

/-- The second form of the flush (41_encoder.md R146): the size was at the cap already. -/
theorem encWalk_of_key_flush (h : EncOk e) (hf : e.ctl.fault = .none) (hk : dictHas e.dict (e.pfx ++ [b]) = true)
    (hm : e.max.toNat ≤ e.size.toNat) : encWalk b e = .ok (encReset e, [codeOfByte b, 256#15]) := by
  have hp := h.pfx_eq_nil_of_initial_size (h.at_cap hf hm).2 hk
  have hl : encPending { e with pfx := [b] } = .ok [codeOfByte b] :=
    encPending_of_key (List.cons_ne_nil b []) (h.literals b)
  exact (encWalk_of_first hp).trans (encAfterWalk_of_flush (e := { e with pfx := [b] }) _ hm hl)

section New

variable {c : Code} (hnew : dictHas e.dict (e.pfx ++ [b]) = false) (hp : e.pfx ≠ [])
  (hc : dictRead e.dict e.pfx = some c) (hs : e.size.toNat < 32768)
include hnew hp hc hs

theorem encWalk_of_new_eq : encWalk b e = encAfterWalk (encDefined b e) [c] := by
  have hsize : e.size + 1#16 = BitVec.ofNat 16 (e.size.toNat + 1) := by simp [← BitVec.toNat_inj]
  rw [encWalk_of_new hnew hp hc hs, hsize]
  rfl

theorem encWalk_of_new_quiet (hm : e.size.toNat + 1 < e.max.toNat) (ht : e.size.toNat + 1 ≤ e.thresh.toNat) :
    encWalk b e = .ok (encDefined b e, [c]) := by
  have hsize := encDefined_size (b := b) hs
  rw [encWalk_of_new_eq hnew hp hc hs, encAfterWalk_of_quiet _ (hsize ▸ hm) (hsize ▸ ht)]

end New

/-- After step 3 the pending code is the byte's literal: the new key is longer than one byte. -/
theorem EncOk.encPending_encDefined (h : EncOk e) (hp : e.pfx ≠ []) :
    encPending (encDefined b e) = .ok [codeOfByte b] := by
  have hne : [b] ≠ e.pfx ++ [b] := fun he => hp (List.append_left_eq_self.1 he.symm)
  refine encPending_of_key (List.cons_ne_nil b []) ?_
  exact (dictRead_dictWrite_other _ _ hne).trans (h.literals b)

/-- Where a definition passes the threshold, the size is 2^w, and below the cap w is at most 14 (41_encoder.md R147). -/
theorem EncOk.size_of_bump (h : EncOk e) (hf : e.ctl.fault = .none) (hm : e.size.toNat + 1 < e.max.toNat)
    (ht : e.thresh.toNat < e.size.toNat + 1) :
    e.size.toNat + 1 = 2 ^ e.width.toNat ∧ e.width.toNat ≤ 14 := by
  obtain ⟨hthresh, hle⟩ := h.thresh_width
  have := Nat.two_pow_pos e.width.toNat
  have hsize : e.size.toNat + 1 = 2 ^ e.width.toNat := by omega
  have hlt : 2 ^ e.width.toNat < 2 ^ 15 := by
    have := h.max_bounds hf
    omega
  exact ⟨hsize, Nat.le_of_lt_succ ((Nat.pow_lt_pow_iff_right (by decide)).1 hlt)⟩

section NewOk

variable {c : Code} (h : EncOk e) (hf : e.ctl.fault = .none) (hnew : dictHas e.dict (e.pfx ++ [b]) = false)
  (hc : dictRead e.dict e.pfx = some c)
include h hf hnew hc

/-- The first form of the flush (41_encoder.md R146): step 3 takes the size to the cap. -/
theorem encWalk_of_new_flush (hm : e.max.toNat ≤ e.size.toNat + 1) :
    encWalk b e = .ok (encReset e, [c, codeOfByte b, 256#15]) := by
  have hp := h.pfx_ne_nil_of_new hnew
  have hs := h.size_lt hf
  rw [encWalk_of_new_eq hnew hp hc hs,
    encAfterWalk_of_flush _ (encDefined_size (b := b) hs ▸ hm) (h.encPending_encDefined hp)]
  rfl

theorem encWalk_of_new_bump (hm : e.size.toNat + 1 < e.max.toNat) (ht : e.thresh.toNat < e.size.toNat + 1) :
    encWalk b e = .ok (encWidened (encDefined b e), [c, 257#15]) := by
  have hs := h.size_lt hf
  have hsize := encDefined_size (b := b) hs
  obtain ⟨-, hw⟩ := h.size_of_bump hf hm ht
  have h15 : e.thresh.toNat < 32768 := by omega
  rw [encWalk_of_new_eq hnew (h.pfx_ne_nil_of_new hnew) hc hs]
  exact encAfterWalk_of_bump _ (hsize ▸ hm) (hsize ▸ ht) h15 (Nat.lt_succ_of_le hw)

end NewOk

end Branches

/-- What an ENC_BYTE of a ready Encoder leaves and emits: its five outcomes (41_encoder.md R142, R152), each with its
guard. -/
inductive EncByteOutcome (b : Byte) (e : Enc) : Enc → List Code → Prop where
  | extended (hk : dictHas e.dict (e.pfx ++ [b]) = true) (hm : e.size.toNat < e.max.toNat) :
    EncByteOutcome b e { e with pfx := e.pfx ++ [b] } []
  | defined {c : Code} (hnew : dictHas e.dict (e.pfx ++ [b]) = false) (hc : dictRead e.dict e.pfx = some c)
    (hm : e.size.toNat + 1 < e.max.toNat) (ht : e.size.toNat + 1 ≤ e.thresh.toNat) :
    EncByteOutcome b e (encDefined b e) [c]
  | bumped {c : Code} (hnew : dictHas e.dict (e.pfx ++ [b]) = false) (hc : dictRead e.dict e.pfx = some c)
    (hm : e.size.toNat + 1 < e.max.toNat) (ht : e.thresh.toNat < e.size.toNat + 1) :
    EncByteOutcome b e (encWidened (encDefined b e)) [c, 257#15]
  | flushed {c : Code} (hnew : dictHas e.dict (e.pfx ++ [b]) = false) (hc : dictRead e.dict e.pfx = some c)
    (hm : e.max.toNat ≤ e.size.toNat + 1) : EncByteOutcome b e (encReset e) [c, codeOfByte b, 256#15]
  | flushedFull (hk : dictHas e.dict (e.pfx ++ [b]) = true) (hm : e.max = 259#16) (hs : e.size.toNat = 259) :
    EncByteOutcome b e (encReset e) [codeOfByte b, 256#15]

/-- A candidate is a key or not; the size that follows is at the cap, past the threshold, or neither. -/
theorem EncOk.encWalk_outcome {e : Enc} (h : EncOk e) (hf : e.ctl.fault = .none) (b : Byte) :
    ∃ e' out, encWalk b e = .ok (e', out) ∧ EncByteOutcome b e e' out := by
  cases hk : dictHas e.dict (e.pfx ++ [b]) with
  | true =>
    rcases Nat.lt_or_ge e.size.toNat e.max.toNat with hm | hm
    · exact ⟨_, _, encWalk_of_key_quiet hk hm h.thresh_width.2, .extended hk hm⟩
    · obtain ⟨hmax, hsize⟩ := h.at_cap hf hm
      exact ⟨_, _, encWalk_of_key_flush h hf hk hm, .flushedFull hk hmax hsize⟩
  | false =>
    have hp := h.pfx_ne_nil_of_new hk
    obtain ⟨c, hc⟩ := h.read_pfx hp
    rcases Nat.lt_or_ge (e.size.toNat + 1) e.max.toNat with hm | hm
    · rcases Nat.lt_or_ge e.thresh.toNat (e.size.toNat + 1) with ht | ht
      · exact ⟨_, _, encWalk_of_new_bump h hf hk hc hm ht, .bumped hk hc hm ht⟩
      · exact ⟨_, _, encWalk_of_new_quiet hk hp hc (h.size_lt hf) hm ht, .defined hk hc hm ht⟩
    · exact ⟨_, _, encWalk_of_new_flush h hf hk hc hm, .flushed hk hc hm⟩

theorem EncOk.outcome_of_encWalk {b : Byte} {e e' : Enc} {out : List Code} (h : EncOk e) (hf : e.ctl.fault = .none)
    (hr : encWalk b e = .ok (e', out)) : EncByteOutcome b e e' out := by
  obtain ⟨_, _, hw, ho⟩ := h.encWalk_outcome hf b
  cases hw.symm.trans hr
  exact ho

/-- Settles O17. -/
theorem encByteExtendsThePrefix : Obligations.EncByteExtendsThePrefix :=
  ⟨fun _ _ hu hr hk hm ht => exec_encByte_of_encWalk hu hr (encWalk_of_key_quiet hk hm ht),
    fun _ b h => h.has_of_empty_pfx b⟩

/-- Settles O18. -/
theorem encByteEmitsAndDefines : Obligations.EncByteEmitsAndDefines :=
  fun _ _ _ hu hr hnew hp hc hs hm ht => exec_encByte_of_encWalk hu hr (encWalk_of_new_quiet hnew hp hc hs hm ht)

/-- Settles O19. -/
theorem encByteFlushesAtTheCap : Obligations.EncByteFlushesAtTheCap :=
  fun _ _ hu hr h =>
    ⟨fun _ hnew hc hm => exec_encByte_of_encWalk hu hr (encWalk_of_new_flush h hr.1 hnew hc hm),
      fun hk hm => exec_encByte_of_encWalk hu hr (encWalk_of_key_flush h hr.1 hk hm)⟩

/-- Settles O20. -/
theorem encByteBumpsPastTheThreshold : Obligations.EncByteBumpsPastTheThreshold :=
  fun _ _ _ hu hr h hnew hc hm ht =>
    ⟨exec_encByte_of_encWalk hu hr (encWalk_of_new_bump h hr.1 hnew hc hm ht), h.size_of_bump hr.1 hm ht⟩

/-- Settles O21, outcome by outcome. -/
theorem encByteOutputShapes : Obligations.EncByteOutputShapes := by
  intro s b hu hr h
  obtain ⟨e, out, hw, ho⟩ := h.encWalk_outcome hr.1 b
  refine ⟨e, out, exec_encByte_of_encWalk hu hr hw, ?_⟩
  have hdata {c : Code} (hc : dictRead s.enc.dict s.enc.pfx = some c) : isDataCode c := h.isDataCode_of_read hr.1 hc
  have hlit : (codeOfByte b).toNat < 256 := codeOfByte_toNat b ▸ b.isLt
  cases ho with
  | extended _ _ => exact .inl rfl
  | defined _ hc _ _ => exact .inr (.inl ⟨_, hdata hc, rfl⟩)
  | bumped _ hc _ _ => exact .inr (.inr (.inl ⟨_, hdata hc, rfl⟩))
  | flushed _ hc _ => exact .inr (.inr (.inr (.inl ⟨_, _, hdata hc, hlit, rfl⟩)))
  | flushedFull _ hm _ => exact .inr (.inr (.inr (.inr ⟨_, hlit, hm, rfl⟩)))

/-! ### The growth law and the emission bound -/

theorem mem_map_code {c : Code} {out : List Code} : Item.code c ∈ out.map .code ↔ c ∈ out :=
  List.mem_map_of_injective fun _ _ => Item.code.inj

/-- Settles O24, outcome by outcome: END_OF_INFO is emitted exactly with a flush, as a data code is not 256. -/
theorem encoderGrowthLaw : Obligations.EncoderGrowthLaw := by
  intro s t b h hu hr ht
  obtain ⟨e, out, he, rfl⟩ := (exec_encByte_eq_next hu).1 ht
  have ho := h.outcome_of_encWalk hr.1 ((encByte_of_ready hr).symm.trans he)
  have hdata {c : Code} (hc : dictRead s.enc.dict s.enc.pfx = some c) : 256#15 ≠ c :=
    (h.isDataCode_of_read hr.1 hc).1.symm
  have hsize := encDefined_size (b := b) (h.size_lt hr.1)
  rw [mem_map_code]
  cases ho with
  | extended _ _ => simp
  | defined _ hc _ _ => simp [hdata hc, hsize]
  | bumped _ hc _ _ => simp [hdata hc, hsize]
  | flushed _ _ _ => simp
  | flushedFull _ _ _ => simp

/-- Every literal, every control code and every code in use fits the width (41_encoder.md R151). -/
theorem EncOk.lt_two_pow_width {e : Enc} {c : Code} (h : EncOk e) (hc : c.toNat < 259 ∨ c.toNat < e.size.toNat) :
    c.toNat < 2 ^ e.width.toNat := by
  have := Nat.pow_le_pow_right (n := 2) (by decide) h.width_low
  have := h.thresh_width
  omega

theorem EncOk.pending_fits {e : Enc} {c : Code} (h : EncOk e) (hf : e.ctl.fault = .none)
    (hc : dictRead e.dict e.pfx = some c) : c.toNat < 2 ^ e.width.toNat := by
  have := h.code_of_read hf hc
  exact h.lt_two_pow_width (by omega)

theorem EncByteOutcome.fits {b : Byte} {e e' : Enc} {out : List Code} (ho : EncByteOutcome b e e' out) (h : EncOk e)
    (hf : e.ctl.fault = .none) : ∀ c ∈ out, c.toNat < 2 ^ e.width.toNat := by
  have hlit : (codeOfByte b).toNat < 2 ^ e.width.toNat :=
    h.lt_two_pow_width (.inl (codeOfByte_toNat b ▸ b.isLt.trans (by decide)))
  have heoi : (256#15).toNat < 2 ^ e.width.toNat := h.lt_two_pow_width (.inl (by decide))
  have hbump : (257#15).toNat < 2 ^ e.width.toNat := h.lt_two_pow_width (.inl (by decide))
  cases ho with
  | extended _ _ => exact nofun
  | defined _ hc _ _ => simpa using h.pending_fits hf hc
  | bumped _ hc _ _ => simpa using ⟨h.pending_fits hf hc, hbump⟩
  | flushed _ hc _ => simpa using ⟨h.pending_fits hf hc, hlit, heoi⟩
  | flushedFull _ _ _ => simpa using ⟨hlit, heoi⟩

/-- The guard emits nothing, so what a guarded rule emits is its body's. -/
theorem encGuard_out {e e' : Enc} {out : List Code} {body : Result (Enc × List Code)}
    (h : guardUnit e.ctl (.ok (e, [])) (fun c => .ok ({ e with ctl := c }, [])) body = .ok (e', out)) :
    out = [] ∨ (e.ctl.fault = .none ∧ body = .ok (e', out)) := by
  obtain h | ⟨-, h⟩ | ⟨hf, -, h⟩ := guardUnit_eq_ok h
  · exact .inl (congrArg Prod.snd h)
  · exact .inl (congrArg Prod.snd h)
  · exact .inr ⟨hf, h⟩

theorem encByte_fits {b : Byte} {e e' : Enc} {out : List Code} (h : EncOk e) (hr : encByte b e = .ok (e', out)) :
    ∀ c ∈ out, c.toNat < 2 ^ e.width.toNat := by
  obtain rfl | ⟨hf, hr⟩ := encGuard_out hr
  · exact nofun
  · exact (h.outcome_of_encWalk hf hr).fits h hf

theorem encEnd_fits {e e' : Enc} {out : List Code} (h : EncOk e) (hr : encEnd e = .ok (e', out)) :
    ∀ c ∈ out, c.toNat < 2 ^ e.width.toNat := by
  have heoi : (256#15).toNat < 2 ^ e.width.toNat := h.lt_two_pow_width (.inl (by decide))
  obtain rfl | ⟨hf, hr⟩ := encGuard_out hr
  · exact nofun
  · obtain ⟨l, hl, -, rfl⟩ := encFinish_eq_ok hr
    obtain ⟨-, rfl⟩ | ⟨-, c, hc, rfl⟩ := encPending_eq_ok.1 hl
    · simpa using heoi
    · simpa using ⟨h.pending_fits hf hc, heoi⟩

/-- Settles O23: what either command emits fits. -/
theorem emittedCodesFitTheWidth : Obligations.EmittedCodesFitTheWidth := by
  intro s t i c h hi ht hu hc
  obtain ⟨b, rfl⟩ | rfl := hi
  · obtain ⟨e, out, he, rfl⟩ := (exec_encByte_eq_next hu).1 ht
    exact encByte_fits h he c (mem_map_code.1 hc)
  · obtain ⟨e, out, he, rfl⟩ := (exec_encEnd_eq_next hu).1 ht
    exact encEnd_fits h he c (mem_map_code.1 hc)

/-! ### ENC_END -/

theorem closeUnit_of_ready {c : UnitCtl} (hr : c.ready) : closeUnit c = { done := true, fault := .none } := by
  rw [closeUnit, hr.1]

theorem encEnd_of_ready {e : Enc} {l : List Code} (hr : e.ctl.ready) (hl : encPending e = .ok l) :
    encEnd e = .ok ({ encReset e with ctl := { done := true, fault := .none } }, l ++ [256#15]) := by
  rw [encEnd, guardUnit_of_ready hr.1 hr.2, encFinish_of_pending hl, closeUnit_of_ready hr]

/-- Settles O22. -/
theorem encEndFlushesAndCloses : Obligations.EncEndFlushesAndCloses :=
  ⟨rfl,
    fun _ hu hf => exec_encEnd_of_encEnd hu (guardUnit_of_faulted hf),
    fun _ hu hf hd => exec_encEnd_of_encEnd hu (guardUnit_of_closed hf hd),
    fun _ hu hr =>
      ⟨fun hp => exec_encEnd_of_encEnd hu (encEnd_of_ready hr (encPending_of_empty hp)),
        fun _ hp hc => exec_encEnd_of_encEnd hu (encEnd_of_ready hr (encPending_of_key hp hc))⟩⟩

end Sys2Proof.Machine
end

section
/-! The Decoder (42_decoder.md): the guard, each arm, and DEC_END, as outcomes of a command. -/

namespace Sys2Proof.Machine

/-! ### A Decoder rule as a command -/

/-- A Decoder rule of an unblocked port answers what it gives behind the guard; every command of the Decoder is such a
rule. -/
theorem runArm_of_decGuard {s : State} {arm : DecResult} {d : De} {out : ByteString} {blkEnd : Bool} (hu : s.unblocked)
    (h : decGuard s.de arm = .ok (d, out, blkEnd)) :
    runArm s arm = .next { s with de := d, resp := { out := out.map .byte, blkEnd := blkEnd } } :=
  dispatchCommand_eq_next.2 (.inr ⟨hu, respondDec_eq_ok.2 ⟨d, out, blkEnd, h, rfl⟩⟩)

theorem runArm_of_blocked {s : State} (arm : DecResult) (h : s.cmd.fault ≠ .none) : runArm s arm = .next (silent s) :=
  dispatchCommand_of_blocked _ h

/-- The guard and the closed check end a rule before its arm (60_exceptions.md R294, R296), so the arm does not matter. -/
theorem decGuard_of_not_ready {d : De} (h : ¬ d.ctl.ready) (arm arm' : DecResult) :
    decGuard d arm = decGuard d arm' := by
  by_cases hf : d.ctl.fault = .none
  · have hd : d.ctl.done = true := by simpa [UnitCtl.ready, hf] using h
    rw [decGuard, decGuard, guardUnit_of_closed hf hd, guardUnit_of_closed hf hd]
  · rw [decGuard, decGuard, guardUnit_of_faulted hf, guardUnit_of_faulted hf]

theorem runArm_of_not_ready {s : State} (h : ¬ (s.unblocked ∧ s.de.ctl.ready)) (arm arm' : DecResult) :
    runArm s arm = runArm s arm' := by
  by_cases hu : s.unblocked
  · rw [runArm, runArm, decGuard_of_not_ready (fun hr => h ⟨hu, hr⟩) arm arm']
  · exact (runArm_of_blocked arm hu).trans (runArm_of_blocked arm' hu).symm

theorem decRaise_of_ready {d : De} (f : FaultCode) (hr : d.ctl.ready) :
    decRaise f d = .ok ({ d with ctl := { done := false, fault := f } }, [], false) := by
  rw [decRaise, raiseFault, hr.2]

theorem runArm_of_raise {s : State} {arm : DecResult} {f : FaultCode} (hu : s.unblocked) (hr : s.de.ctl.ready)
    (h : arm = decRaise f s.de) :
    runArm s arm = .next (silent { s with de := { s.de with ctl := { done := false, fault := f } } }) :=
  runArm_of_ready hu hr (h.trans (decRaise_of_ready f hr))

/-! ### The codepoint's class -/

theorem isDataCode_iff {cp : Code} : isDataCode cp ↔ cp.toNat ≠ 256 ∧ cp.toNat ≠ 257 ∧ cp.toNat ≠ 258 := by
  rw [isDataCode, Ne, Ne, Ne, eq_eoi_iff, eq_bump_iff, eq_clear_iff]

theorem isDataCode_of_dynamic {cp : Code} (h : 259 ≤ cp.toNat) : isDataCode cp := isDataCode_iff.2 (by omega)

theorem isDataCode_codeOfByte (b : Byte) : isDataCode (codeOfByte b) := by
  rw [isDataCode_iff, codeOfByte_toNat]
  omega

/-- Every instruction that executes a data codepoint runs its arm (42_decoder.md R181, R189). -/
theorem exec_of_executesCode {i : Instr} {cp : Code} (s : State) (hcp : isDataCode cp) (hi : executesCode i cp) :
    exec i s = runArm s (decData cp s.de) := by
  obtain ⟨he, hb, hc⟩ := hcp
  obtain rfl | rfl | ⟨b, rfl, rfl⟩ | ⟨-, rfl⟩ := hi
  · exact congrArg (runArm s) (decStep_of_data false he hb hc)
  · exact congrArg (runArm s) (decStep_of_data true he hb hc)
  · rfl
  · rfl

/-- The class decoder gives a data codepoint its own row (30_encoding.md R86). -/
theorem executesCode_decodeCode {cp : Code} (hcp : isDataCode cp) : executesCode (decodeCode cp) cp := by
  rw [isDataCode_iff] at hcp
  by_cases hl : cp.toNat < 256
  · obtain ⟨b, rfl⟩ : ∃ b, cp = codeOfByte b := ⟨_, (codeOfByte_of_lt hl).symm⟩
    exact .inr (.inr (.inl ⟨b, rfl, decodeCode_codeOfByte b⟩))
  · have h9 : 259 ≤ cp.toNat := by omega
    exact .inr (.inr (.inr ⟨h9, decodeCode_of_dynamic h9⟩))

/-- Settles O34: each control code's row runs its arm of DecStep, and a data codepoint has one arm. -/
theorem decCodeRunsTheCodepointsInstruction : Obligations.DecCodeRunsTheCodepointsInstruction := by
  intro s cp
  by_cases he : cp = Config.eoi
  · exact he ▸ rfl
  by_cases hb : cp = Config.bump
  · exact hb ▸ rfl
  by_cases hc : cp = Config.clear
  · exact hc ▸ rfl
  have hcp : isDataCode cp := ⟨he, hb, hc⟩
  rw [exec_of_executesCode s hcp (.inl rfl), exec_of_executesCode s hcp (executesCode_decodeCode hcp)]

/-! ### The control codes -/

theorem decStep_of_not_eoi {d : De} {cp : Code} (h : cp ≠ Config.eoi) : decStep true cp d = decStep false cp d := by
  simp [decStep, h]

/-- Settles O25. -/
theorem bumpLeavesTheDecoder : Obligations.BumpLeavesTheDecoder := by
  intro s i hu hr hi
  simp only [List.mem_cons, List.not_mem_nil, or_false] at hi
  obtain rfl | rfl | rfl := hi <;> exact runArm_of_ready (arm := decBump s.de) hu hr rfl

/-- Settles O26. -/
theorem endOfInfoResetsTheDecoder : Obligations.EndOfInfoResetsTheDecoder := by
  intro s i hu hr hi
  simp only [List.mem_cons, List.not_mem_nil, or_false] at hi
  obtain rfl | rfl := hi <;> exact runArm_of_ready (arm := decEoi s.de) hu hr rfl

/-- Settles O27. -/
theorem clearResetsTheDecoder : Obligations.ClearResetsTheDecoder := by
  intro s i hu hr hi
  simp only [List.mem_cons, List.not_mem_nil, or_false] at hi
  obtain rfl | rfl | rfl := hi <;> exact runArm_of_ready (arm := decClear s.de) hu hr rfl

/-- Settles O32. -/
theorem resolveIsDecodeButForEndOfInfo : Obligations.ResolveIsDecodeButForEndOfInfo :=
  fun s _ =>
    ⟨rfl,
      fun he => congrArg (runArm s) (decStep_of_not_eoi he),
      fun h => runArm_of_not_ready h _ _,
      fun hu hr => runArm_of_raise (f := .protocolMisuse) hu hr rfl⟩

/-! ### The arms of a data codepoint -/

theorem add_one_eq_ofNat (w : Word16) : w + 1#16 = BitVec.ofNat 16 (w.toNat + 1) := by simp [← BitVec.toNat_inj]

theorem codeOfSize_of_toNat_eq {cp : Code} {w : Word16} (h : cp.toNat = w.toNat) : codeOfSize w = cp := by
  rw [codeOfSize, ← h]
  simp

/-- Settles O28. -/
theorem knownCodeEmitsItsEntry : Obligations.KnownCodeEmitsItsEntry := by
  intro s i cp x xs hu hr hcp hi hk
  rw [exec_of_executesCode s hcp hi, decData_of_known hk, ← add_one_eq_ofNat]
  exact ⟨fun hp => runArm_of_ready hu hr (decKnown_of_no_prefix _ hp),
    fun p hp hs => runArm_of_ready hu hr (decKnown_of_prefix hp hs)⟩

/-- Settles O29: a 15-bit cp that is DE.size leaves room for the entry. -/
theorem specialCaseDefinesTheCode : Obligations.SpecialCaseDefinesTheCode := by
  intro s i cp x xs hu hr h9 hi hk hs hp
  have hroom : s.de.size.toNat < 32768 := hs ▸ cp.isLt
  rw [exec_of_executesCode s (isDataCode_of_dynamic h9) hi, decData_of_special hk hp hs, ← add_one_eq_ofNat]
  refine (runArm_of_ready hu hr (decSpecial_of_room hroom)).trans ?_
  rw [decInsert, codeOfSize_of_toNat_eq hs]

/-- The known codes are the literals and the dynamic codes below DE.size (42_decoder.md R185, R188). -/
theorem DeOk.has_eq_false_iff {d : De} {cp : Code} (h : DeOk d) (hcp : isDataCode cp) :
    dictHas d.dict cp = false ↔ 259 ≤ cp.toNat ∧ d.size.toNat ≤ cp.toNat := by
  have hiff : dictHas d.dict cp = true ↔ cp.toNat < 256 ∨ (259 ≤ cp.toNat ∧ cp.toNat < d.size.toNat) := by
    rw [dictHas_iff_mem_dictKeys, h.keys]
    exact ⟨toNat_of_mem_codesInUse h.size_bounds.2, mem_codesInUse_of_toNat⟩
  rw [isDataCode_iff] at hcp
  rw [← Bool.not_eq_true, hiff]
  omega

/-- Settles O30. -/
theorem unknownCodeFaults : Obligations.UnknownCodeFaults := by
  intro s i cp hu hr h hcp hi
  have hhas := h.has_eq_false_iff hcp
  constructor
  · rw [hhas]
    by_cases hp : s.de.pfx = none
    · simp only [hp, and_true, ne_eq, not_true_eq_false, and_false, not_false_eq_true]
      omega
    · simp only [hp, and_false, or_false, ne_eq, not_false_eq_true, and_true]
      omega
  · intro h9 hout
    have hk : dictRead s.de.dict cp = none := by simpa [dictHas] using hhas.2 ⟨h9, by omega⟩
    have hcase : s.de.pfx = none ∨ cp.toNat ≠ s.de.size.toNat := hout.symm.imp And.right Nat.ne_of_gt
    rw [exec_of_executesCode s hcp hi]
    exact runArm_of_raise hu hr (decData_of_unknown hk hcase)

/-- Settles O31. -/
theorem decoderCeilingFaults : Obligations.DecoderCeilingFaults := by
  intro s i cp out p hu hr hcp hi hk hp hs
  rw [exec_of_executesCode s hcp hi]
  exact runArm_of_raise hu hr ((decData_of_known hk).trans (decKnown_of_ceiling out hp (Nat.le_of_lt_succ hs)))

/-! ### DEC_END -/

theorem exec_decEnd_eq_runArm (s : State) :
    exec .decEnd s = runArm s (.ok ({ s.de with ctl := closeUnit s.de.ctl }, [], false)) := rfl

theorem exec_decEnd_of_ready {s : State} (hu : s.unblocked) (hr : s.de.ctl.ready) :
    exec .decEnd s = .next (silent { s with de := { s.de with ctl := { done := true, fault := .none } } }) := by
  rw [exec_decEnd_eq_runArm, closeUnit_of_ready hr]
  exact runArm_of_ready hu hr rfl

/-- Settles O33. -/
theorem decEndClosesTheDecoder : Obligations.DecEndClosesTheDecoder :=
  ⟨rfl, fun _ hu =>
    ⟨exec_decEnd_of_ready hu,
      fun hf => runArm_of_decGuard hu (guardUnit_of_faulted hf),
      fun hf hd => runArm_of_decGuard hu (guardUnit_of_closed hf hd)⟩⟩

end Sys2Proof.Machine
end

section
/-! The central LZW invariant (42_decoder.md R191): the Decoder follows the Encoder, one definition behind. -/

namespace Sys2Proof.Machine

/-! ### A Decoder that knows its next output's first byte -/

/-- The Decoder's dictionary once the next output is known to begin with `x`: the definition that waits for that byte is
made (`decData_of_ahead`). -/
def De.ahead (x : Byte) (d : De) : De :=
  match d.pfx with
  | none => d
  | some p => decInsert (p ++ [x]) d

theorem De.ahead_of_no_prefix {d : De} (x : Byte) (h : d.pfx = none) : d.ahead x = d := by rw [De.ahead, h]

theorem De.ahead_of_prefix {d : De} {p : ByteString} (x : Byte) (h : d.pfx = some p) :
    d.ahead x = decInsert (p ++ [x]) d := by rw [De.ahead, h]

@[simp] theorem De.ahead_ctl (x : Byte) (d : De) : (d.ahead x).ctl = d.ctl := by
  unfold De.ahead
  split <;> rfl

section Ahead

variable {d : De} (h : DeOk d) (hs : d.size.toNat < 32768)
include h hs

/-- The known arm and the special case are one rule: a code that the dictionary binds, once it is ahead, to a string with
first byte `x` emits that string (42_decoder.md R185, R186). -/
theorem decData_of_ahead {cp : Code} {out : ByteString} {x : Byte} (hk : dictRead (d.ahead x).dict cp = some out)
    (hx : out.head? = some x) : decData cp d = .ok ({ d.ahead x with pfx := some out }, out, false) := by
  cases hp : d.pfx with
  | none =>
    rw [De.ahead_of_no_prefix x hp] at hk ⊢
    exact (decData_of_known hk).trans (decKnown_of_no_prefix out hp)
  | some p =>
    rw [De.ahead_of_prefix x hp] at hk ⊢
    by_cases hcp : cp = codeOfSize d.size
    · subst hcp
      have hcode := codeOfSize_toNat hs
      obtain rfl : p ++ [x] = out := Option.some.inj ((dictRead_dictWrite_same _ _ _).symm.trans hk)
      obtain ⟨y, ys, rfl⟩ := List.exists_cons_of_ne_nil (h.vals_nonempty p (h.pfx_entry p hp))
      obtain rfl : y = x := Option.some.inj hx
      exact (decData_of_special (h.read_size hcode) hp hcode).trans (decSpecial_of_room hs)
    · rw [decInsert_dict, dictRead_dictWrite_other _ _ hcp] at hk
      obtain ⟨ys, rfl⟩ := List.head?_eq_some_iff.1 hx
      exact (decData_of_known hk).trans (decKnown_of_prefix hp hs)

theorem De.ahead_literals (x b : Byte) : dictRead (d.ahead x).dict (codeOfByte b) = some [b] := by
  cases hp : d.pfx with
  | none => exact (De.ahead_of_no_prefix x hp).symm ▸ h.literals b
  | some p => exact (De.ahead_of_prefix x hp).symm ▸ (decInsert_ok h hp hs (.inr rfl)).literals b

end Ahead

/-! ### DEC_CODE of a ready Decoder -/

section Ready

variable {d : De} (hr : d.ctl.ready)
include hr

theorem decCode_of_ready (cp : Code) : decCode cp d = decStep false cp d := by
  rw [decCode, decGuard, guardUnit_of_ready hr.1 hr.2]

theorem decCode_of_data {cp : Code} (hcp : isDataCode cp) : decCode cp d = decData cp d :=
  (decCode_of_ready hr cp).trans (decStep_of_data false hcp.1 hcp.2.1 hcp.2.2)

theorem decCode_bump : decCode 257#15 d = .ok (d, [], false) := decCode_of_ready hr _

theorem decCode_eoi : decCode 256#15 d = .ok (decReset d, [], true) := decCode_of_ready hr _

theorem decCode_literal (h : DeOk d) (hs : d.size.toNat < 32768) (b : Byte) :
    decCode (codeOfByte b) d = .ok ({ d.ahead b with pfx := some [b] }, [b], false) :=
  (decCode_of_data hr (isDataCode_codeOfByte b)).trans (decData_of_ahead h hs (De.ahead_literals h hs b b) rfl)

end Ready

/-! ### A run of DEC_CODE without a fault -/

/-- DEC_CODE of each codepoint takes the Decoder `d` to `d'` and emits `out`, with no fault (`execAll_of_decodes`). -/
inductive Decodes : List Code → De → De → ByteString → Prop where
  | nil {d : De} : Decodes [] d d []
  | cons {cp : Code} {rest : List Code} {d q d' : De} {o out : ByteString} {blkEnd : Bool}
    (hcode : decCode cp d = .ok (q, o, blkEnd)) (hq : q.ctl.fault = .none) (hrest : Decodes rest q d' out) :
    Decodes (cp :: rest) d d' (o ++ out)

theorem Decodes.append {codes more : List Code} {d q d' : De} {o out : ByteString} (h : Decodes codes d q o)
    (hmore : Decodes more q d' out) : Decodes (codes ++ more) d d' (o ++ out) := by
  induction h with
  | nil => exact hmore
  | cons hcode hq _ ih =>
    rw [List.append_assoc]
    exact .cons hcode hq (ih hmore)

theorem decodes_eoi {d : De} (hr : d.ctl.ready) : Decodes [256#15] d (decReset d) [] :=
  .cons (decCode_eoi hr) hr.1 .nil

theorem execAll_of_decodes {codes : List Code} {s : State} {d : De} {out : ByteString} (hu : s.unblocked)
    (h : Decodes codes s.de d out) (hr : d.ctl.ready) :
    ∃ t rs, execAll (codes.map .decCode ++ [.decEnd]) s = some (t, rs) ∧ responseBytes rs = out ∧
      t.de.ctl.fault = .none := by
  generalize hs : s.de = d₀ at h
  induction h generalizing s with
  | nil =>
    subst hs
    exact ⟨_, _, execAll_cons_of_next (exec_decEnd_of_ready hu hr) rfl, rfl, rfl⟩
  | @cons cp rest _ q _ o _ blkEnd hcode _ _ ih =>
    subst hs
    obtain ⟨t, rs, hrun, hout, hf⟩ :=
      ih (s := { s with de := q, resp := { out := o.map .byte, blkEnd := blkEnd } }) hu hr rfl
    refine ⟨t, _, execAll_cons_of_next (runArm_of_decGuard hu hcode) hrun, ?_, hf⟩
    rw [responseBytes_cons_byte, hout]

/-! ### The Encoder's and the Decoder's dictionaries -/

/-- A Decoder's dictionary holds the Encoder's entries, in the order of their codes, which is the order of insertion. -/
def mirrors (d : De) (e : Enc) : Prop := d.dict = e.dict.map Prod.swap ∧ d.size = e.size

theorem mirrors_reset (d : De) (e : Enc) : mirrors (decReset d) (encReset e) :=
  ⟨by simp [decDict0, encDict0], rfl⟩

theorem dictKeys_map_swap {κ ν : Type} (d : Dict κ ν) : dictKeys (d.map Prod.swap) = dictVals d := by
  simp [dictKeys, dictVals]

theorem EncOk.vals_nodup {e : Enc} (h : EncOk e) (hf : e.ctl.fault = .none) : (dictVals e.dict).Nodup :=
  h.codes ▸ codesInUse_nodup_of_le (h.size_lt hf).le

theorem EncOk.read_mirror {e : Enc} {d : De} {k : ByteString} {c : Code} (h : EncOk e) (hf : e.ctl.fault = .none)
    (hm : mirrors d e) (hc : dictRead e.dict k = some c) : dictRead d.dict c = some k := by
  have hnodup := h.vals_nodup hf
  rw [← dictKeys_map_swap, ← hm.1] at hnodup
  refine dictRead_of_mem hnodup ?_
  rw [hm.1]
  exact List.mem_map.2 ⟨(k, c), mem_of_dictRead hc, rfl⟩

/-- The Encoder defines a string and its code, the Decoder the code and its string. -/
theorem mirrors_insert {e : Enc} {d : De} {b : Byte} (he : EncOk e) (hf : e.ctl.fault = .none) (hd : DeOk d)
    (hm : mirrors d e) (hnew : dictHas e.dict (e.pfx ++ [b]) = false) :
    mirrors (decInsert (e.pfx ++ [b]) d) (encDefined b e) := by
  have hs : d.size.toNat < 32768 := hm.2 ▸ he.size_lt hf
  have hkey : e.pfx ++ [b] ∉ dictKeys e.dict := (dictRead_eq_none_iff _ _).1 (by simpa [dictHas] using hnew)
  refine ⟨?_, by rw [decInsert_size, hm.2, add_one_eq_ofNat, encDefined]⟩
  rw [decInsert_dict, dictWrite_of_new _ (hd.next_not_key hs), encDefined, dictWrite_of_new _ hkey, List.map_append,
    hm.1, hm.2]
  rfl

/-! ### Lockstep -/

/-- The Encoder, and the Decoder that has executed all it emitted. The Decoder has still to emit ENC.pfx, and it is one
definition behind: its dictionary is the Encoder's once it knows the first byte of that string, which is the next input
byte where the string is empty. -/
structure Lockstep (e : Enc) (d : De) : Prop where
  enc_ok : EncOk e
  enc_ready : e.ctl.ready
  de_ok : DeOk d
  de_ready : d.ctl.ready
  follows : ∀ x, (e.pfx ++ [x]).head? = some x → mirrors (d.ahead x) e

theorem lockstep_init {m : Word16} (hm : legalMax m = true) (e : Enc) (d : De) :
    Lockstep (encConfigure m e) (decInit d) where
  enc_ok := encConfigure_ok m e
  enc_ready := ⟨by rw [encConfigure_fault, hm]; rfl, encConfigure_done m e⟩
  de_ok := decInit_ok d
  de_ready := ⟨rfl, rfl⟩
  follows := fun _ _ => mirrors_reset d e

/-- The Decoder that has emitted ENC.pfx: it has every entry of the Encoder. -/
structure CaughtUp (e : Enc) (d : De) : Prop where
  de_ok : DeOk d
  de_ready : d.ctl.ready
  pfx : d.pfx = some e.pfx
  equal : mirrors d e

section Pending

variable {e : Enc} {d : De} (h : Lockstep e d)
include h

theorem Lockstep.de_size_lt : d.size.toNat < 32768 := by
  have hlt := h.enc_ok.size_lt h.enc_ready.1
  have hle := h.de_ok.size_bounds.2
  obtain ⟨x, hx⟩ : ∃ x, (e.pfx ++ [x]).head? = some x := by
    cases e.pfx with
    | nil => exact ⟨0, rfl⟩
    | cons y _ => exact ⟨y, rfl⟩
  have hsize := (h.follows x hx).2
  cases hp : d.pfx with
  | none =>
    rw [De.ahead_of_no_prefix x hp] at hsize
    exact hsize ▸ hlt
  | some p =>
    rw [De.ahead_of_prefix x hp, decInsert_size] at hsize
    have hsucc := succ_toNat (w := d.size) (by omega)
    rw [hsize] at hsucc
    omega

/-- The code of ENC.pfx brings the Decoder up to the Encoder (42_decoder.md R191). -/
theorem Lockstep.decCode_pending {c : Code} (hp : e.pfx ≠ []) (hc : dictRead e.dict e.pfx = some c) :
    ∃ q, decCode c d = .ok (q, e.pfx, false) ∧ CaughtUp e q := by
  obtain ⟨x, xs, hx⟩ := List.exists_cons_of_ne_nil hp
  have hm := h.follows x (by rw [hx]; rfl)
  have hk := h.enc_ok.read_mirror h.enc_ready.1 hm hc
  have hdata := decData_of_ahead h.de_ok h.de_size_lt hk (by rw [hx]; rfl)
  exact ⟨_, (decCode_of_data h.de_ready (h.enc_ok.isDataCode_of_read h.enc_ready.1 hc)).trans hdata,
    decData_keeps_ok h.de_ok hdata, (De.ahead_ctl x d).symm ▸ h.de_ready, rfl, hm⟩

/-- ENC.pfx and a byte begin as ENC.pfx does, or with that byte where it was empty. -/
theorem Lockstep.follows_extended {b : Byte} :
    ∀ x, (e.pfx ++ [b] ++ [x]).head? = some x → mirrors (d.ahead x) e := by
  intro x hx
  refine h.follows x ?_
  cases hp : e.pfx with
  | nil => rfl
  | cons y ys => simpa [hp] using hx

end Pending

theorem CaughtUp.follows_defined {e : Enc} {d : De} {b : Byte} (hd : CaughtUp e d) (he : EncOk e)
    (hf : e.ctl.fault = .none) (hnew : dictHas e.dict (e.pfx ++ [b]) = false) :
    ∀ x, ([b] ++ [x]).head? = some x → mirrors (d.ahead x) (encDefined b e) := by
  intro x hx
  obtain rfl : b = x := Option.some.inj hx
  rw [De.ahead_of_prefix b hd.pfx]
  exact mirrors_insert he hf hd.de_ok hd.equal hnew

theorem decReset_ok_of_ready {d : De} (hr : d.ctl.ready) : DeOk (decReset d) := decReset_ok d (hr.1 ▸ .head _)

/-- The end of a block (41_encoder.md R146): a literal, then END_OF_INFO. -/
theorem decodes_flush {d : De} (b : Byte) (h : DeOk d) (hr : d.ctl.ready) (hs : d.size.toNat < 32768) :
    Decodes [codeOfByte b, 256#15] d (decReset d) [b] := by
  have hq : (d.ahead b).ctl.ready := (De.ahead_ctl b d).symm ▸ hr
  have hreset : decReset { d.ahead b with pfx := some [b] } = decReset d := by simp [decReset]
  exact .cons (decCode_literal hr h hs b) hq.1 (hreset ▸ decodes_eoi hq)

theorem EncByteOutcome.ctl_eq {b : Byte} {e e' : Enc} {out : List Code} (h : EncByteOutcome b e e' out) :
    e'.ctl = e.ctl := by cases h <;> rfl

/-- ENC_BYTE keeps the lockstep, and what the Decoder has emitted and has still to emit grows by the byte. -/
theorem Lockstep.decodes_encByte {e : Enc} {d : De} (h : Lockstep e d) (b : Byte) :
    ∃ e' codes d' out, encByte b e = .ok (e', codes) ∧ Decodes codes d d' out ∧ Lockstep e' d' ∧
      out ++ e'.pfx = e.pfx ++ [b] := by
  have hf := h.enc_ready.1
  obtain ⟨e', codes, hw, ho⟩ := h.enc_ok.encWalk_outcome hf b
  suffices hdec : ∃ d' out, Decodes codes d d' out ∧ DeOk d' ∧ d'.ctl.ready ∧
      (∀ x, (e'.pfx ++ [x]).head? = some x → mirrors (d'.ahead x) e') ∧ out ++ e'.pfx = e.pfx ++ [b] by
    obtain ⟨d', out, hrun, hok, hr, hfollows, hout⟩ := hdec
    exact ⟨e', codes, d', out, (encByte_of_ready h.enc_ready).trans hw, hrun,
      ⟨encWalk_keeps_ok h.enc_ok hf hw, ho.ctl_eq ▸ h.enc_ready, hok, hr, hfollows⟩, hout⟩
  have pending {c : Code} (hnew : dictHas e.dict (e.pfx ++ [b]) = false) (hc : dictRead e.dict e.pfx = some c) :=
    h.decCode_pending (h.enc_ok.pfx_ne_nil_of_new hnew) hc
  cases ho with
  | extended _ _ => exact ⟨d, [], .nil, h.de_ok, h.de_ready, h.follows_extended, rfl⟩
  | defined hnew hc _ _ =>
    obtain ⟨q, hq, hcq⟩ := pending hnew hc
    exact ⟨q, _, .cons hq hcq.de_ready.1 .nil, hcq.de_ok, hcq.de_ready, hcq.follows_defined h.enc_ok hf hnew,
      by simp [encDefined]⟩
  | bumped hnew hc _ _ =>
    obtain ⟨q, hq, hcq⟩ := pending hnew hc
    exact ⟨q, _, .cons hq hcq.de_ready.1 (.cons (decCode_bump hcq.de_ready) hcq.de_ready.1 .nil), hcq.de_ok,
      hcq.de_ready, hcq.follows_defined h.enc_ok hf hnew, by simp [encWidened, encDefined]⟩
  | flushed hnew hc _ =>
    obtain ⟨q, hq, hcq⟩ := pending hnew hc
    have hflush := decodes_flush b hcq.de_ok hcq.de_ready (hcq.equal.2 ▸ h.enc_ok.size_lt hf)
    exact ⟨decReset q, _, .cons hq hcq.de_ready.1 hflush, decReset_ok_of_ready hcq.de_ready, hcq.de_ready,
      fun _ _ => mirrors_reset q e, by simp⟩
  | flushedFull hk _ hs =>
    have hp := h.enc_ok.pfx_eq_nil_of_initial_size hs hk
    exact ⟨decReset d, _, decodes_flush b h.de_ok h.de_ready h.de_size_lt, decReset_ok_of_ready h.de_ready, h.de_ready,
      fun _ _ => mirrors_reset d e, by simp [hp]⟩

/-- ENC_END makes the Decoder emit the rest. -/
theorem Lockstep.decodes_encEnd {e : Enc} {d : De} (h : Lockstep e d) :
    ∃ e' codes d', encEnd e = .ok (e', codes) ∧ e'.ctl.fault = .none ∧ Decodes codes d d' e.pfx ∧ d'.ctl.ready := by
  by_cases hp : e.pfx = []
  · refine ⟨_, _, decReset d, encEnd_of_ready h.enc_ready (encPending_of_empty hp), rfl, ?_, h.de_ready⟩
    rw [hp]
    exact decodes_eoi h.de_ready
  · obtain ⟨c, hc⟩ := h.enc_ok.read_pfx hp
    obtain ⟨q, hq, hcq⟩ := h.decCode_pending hp hc
    refine ⟨_, _, decReset q, encEnd_of_ready h.enc_ready (encPending_of_key hp hc), rfl, ?_, hcq.de_ready⟩
    have hrun : Decodes [c, 256#15] d (decReset q) (e.pfx ++ []) :=
      .cons hq hcq.de_ready.1 (decodes_eoi hcq.de_ready)
    rwa [List.append_nil] at hrun

/-! ### The runs -/

theorem itemCodes_map_code (codes : List Code) : itemCodes (codes.map .code) = codes := by
  induction codes with
  | nil => rfl
  | cons c codes ih => exact congrArg (c :: ·) ih

theorem responseCodes_nil : responseCodes [] = [] := rfl

theorem responseCodes_cons_code (codes : List Code) (blkEnd : Bool) (rs : List Response) :
    responseCodes ({ out := codes.map .code, blkEnd := blkEnd } :: rs) = codes ++ responseCodes rs := by
  simp [responseCodes, itemCodes_map_code]

/-- From a lockstep, ENC_BYTE of each byte and ENC_END emit codepoints that the Decoder turns into ENC.pfx and the bytes. -/
theorem Lockstep.execAll_encoder {x : ByteString} {s : State} {d : De} (hu : s.unblocked) (h : Lockstep s.enc d) :
    ∃ t rs d', execAll (x.map .encByte ++ [.encEnd]) s = some (t, rs) ∧ t.enc.ctl.fault = .none ∧ t.unblocked ∧
      t.de = s.de ∧ Decodes (responseCodes rs) d d' (s.enc.pfx ++ x) ∧ d'.ctl.ready := by
  induction x generalizing s d with
  | nil =>
    obtain ⟨e, codes, d', he, hf, hrun, hr⟩ := h.decodes_encEnd
    refine ⟨_, _, d', execAll_cons_of_next (exec_encEnd_of_encEnd hu he) rfl, hf, hu, rfl, ?_, hr⟩
    simpa [responseCodes_cons_code, responseCodes_nil] using hrun
  | cons b x ih =>
    obtain ⟨e, codes, q, out, he, hrun, hq, hout⟩ := h.decodes_encByte b
    obtain ⟨t, rs, d', hexec, hf, htu, hde, hrest, hr⟩ :=
      ih (s := { s with enc := e, resp := { out := codes.map .code, blkEnd := false } }) hu hq
    have hb := (exec_encByte_eq_next hu).2 ⟨e, codes, he, rfl⟩
    refine ⟨t, _, d', execAll_cons_of_next hb hexec, hf, htu, hde, ?_, hr⟩
    rw [responseCodes_cons_code, List.append_cons, ← hout, List.append_assoc]
    exact hrun.append hrest

/-- Settles O59: INIT starts the lockstep, the Encoder's run keeps it, and the Decoder's run is the one it describes. -/
theorem decoderInvertsEncoder : Obligations.DecoderInvertsEncoder := by
  intro m x hm
  obtain ⟨s, hinit, hu, hresp, hp, hlock⟩ : ∃ s, exec (.init m) State.reset = .next s ∧ s.unblocked ∧
      s.resp.out = [] ∧ s.enc.pfx = [] ∧ Lockstep s.enc s.de := ⟨_, rfl, rfl, rfl, rfl, lockstep_init hm _ _⟩
  obtain ⟨t, rs, d, henc, hef, htu, hde, hrun, hr⟩ := hlock.execAll_encoder (x := x) hu
  rw [← hde, hp, List.nil_append] at hrun
  obtain ⟨u, us, hdec, hout, hdf⟩ := execAll_of_decodes htu hrun hr
  have hcodes : responseCodes (s.resp :: rs) = responseCodes rs := by simp [responseCodes, hresp, itemCodes]
  exact ⟨t, u, _, us, execAll_cons_of_next hinit henc, hcodes.symm ▸ hdec, hout, hef, hdf⟩

end Sys2Proof.Machine
end

section
/-! The Unpacker (43_packer_unpacker.md, section 4): the loop of UNPK_BYTE over a byte that completes no field, one, or a
BUMP at width 15, then the commands UNPK_BYTE and UNPK_END. -/

namespace Sys2Proof.Machine

/-! ### The loop over a byte's bits -/

/-- The loop of UNPK_BYTE, with UP.off and UP.skip as they stand after the command (10_state.md R44). -/
def unpkRun (i : Nat) (x : BitString) (u : Up) : Up × List Code := ((unpkBits i x u).1.settled, (unpkBits i x u).2)

theorem unpkBody_eq_unpkRun (b : Byte) (u : Up) : unpkBody b u = unpkRun 0 (bytesToBits [b]) { u with skip := false } := rfl

/-- After an END_OF_INFO the bits left in the byte are dropped (43_packer_unpacker.md R235). -/
theorem unpkRun_of_skip {i : Nat} {x : BitString} {u : Up} (hs : u.skip = true) : unpkRun i x u = (u.settled, []) := by
  induction x generalizing i u with
  | nil => rfl
  | cons b rest ih =>
    rw [unpkRun, unpkBits_cons_of_skip hs]
    exact ih hs

/-- Bits that complete no field are kept. -/
theorem unpkRun_of_short {i : Nat} {x : BitString} {u : Up} (hs : u.skip = false)
    (hl : u.acc.length + x.length < u.width.toNat) : unpkRun i x u = ({ u with acc := u.acc ++ x }.settled, []) := by
  induction x generalizing i u with
  | nil => rw [List.append_nil]; rfl
  | cons b rest ih =>
    rw [List.length_cons] at hl
    have hmore : (u.acc ++ [b]).length + rest.length < u.width.toNat := by
      rw [List.length_append, List.length_singleton]
      omega
    rw [List.append_cons, unpkRun, unpkBits_cons_of_more hs (by omega)]
    exact ih (u := { u with off := BitVec.ofNat 3 i, acc := u.acc ++ [b] }) hs hmore

/-- The effect of a codepoint read in one form: the width follows the schedule (30_encoding.md R88). -/
theorem unpkEffect_eq (cp : Code) (u : Up) :
    unpkEffect cp u = { u with
      width := BitVec.ofNat 4 (nextWidth u.width.toNat cp), skip := u.skip || decide (cp = Config.eoi) } := by
  by_cases hb : cp = Config.bump
  · subst hb
    simp [unpkEffect_bump, nextWidth, Config.bump, Config.eoi, ← BitVec.ofNat_add_ofNat]
  by_cases he : cp = Config.eoi
  · subst he
    simp [unpkEffect_eoi, nextWidth, Config.bump, Config.eoi]
  by_cases hc : cp = Config.clear
  · subst hc
    simp [unpkEffect_clear, nextWidth, Config.bump, Config.eoi, Config.clear]
  · simp [unpkEffect_data he hb hc, nextWidth, he, hb, hc]

/-- The Unpacker after a codepoint whose field left the bits `rest` of its last byte (43_packer_unpacker.md R235 to R237). -/
def Up.afterField (cp : Code) (rest : BitString) (u : Up) : Up :=
  { u with acc := if cp = Config.eoi then [] else rest, width := BitVec.ofNat 4 (nextWidth u.width.toNat cp) }

/-- The bits left after a field complete no other: they are fewer than the least width. -/
theorem unpkRun_unpkEffect {i : Nat} {rest : BitString} {cp : Code} {u : Up} (hs : u.skip = false) (ha : u.acc = [])
    (hw : 9 ≤ u.width.toNat) (hb : ¬ (cp = Config.bump ∧ u.width = Config.maxWidth)) (hrest : rest.length < 9) :
    unpkRun i rest (unpkEffect cp u) = ((u.afterField cp rest).settled, []) := by
  have hnext := unpkEffect_width_low hw hb
  by_cases he : cp = Config.eoi
  · subst he
    rw [unpkRun_of_skip (unpkEffect_eoi_skip u), unpkEffect_eq, Up.afterField, if_pos rfl, ← ha]
    rfl
  · have hskip : (unpkEffect cp u).skip = false := by simp [unpkEffect_eq, hs, he]
    have hshort : (unpkEffect cp u).acc.length + rest.length < (unpkEffect cp u).width.toNat := by
      rw [unpkEffect_acc, ha, List.length_nil]
      omega
    rw [unpkRun_of_short hskip hshort, unpkEffect_acc, ha, unpkEffect_eq, Up.afterField, if_neg he]
    rfl

/-- Bits that complete a field whose codepoint is accepted (43_packer_unpacker.md R234). -/
theorem unpkRun_of_field {i : Nat} {x : BitString} {cp : Code} {u : Up} (hs : u.skip = false)
    (ha : u.acc.length < u.width.toNat) (hw : 9 ≤ u.width.toNat) (hx : x.length ≤ 9)
    (hl : u.width.toNat ≤ u.acc.length + x.length) (hcp : fieldCode ((u.acc ++ x).take u.width.toNat) = cp)
    (hb : ¬ (cp = Config.bump ∧ u.width = Config.maxWidth)) :
    unpkRun i x u = ((u.afterField cp ((u.acc ++ x).drop u.width.toNat)).settled, [cp]) := by
  induction x generalizing i u with
  | nil => exact absurd ha (Nat.not_lt.2 hl)
  | cons b rest ih =>
    rw [List.length_cons] at hx hl
    rw [List.append_cons] at hcp ⊢
    have hlen : (u.acc ++ [b]).length = u.acc.length + 1 := by rw [List.length_append, List.length_singleton]
    by_cases hfield : u.acc.length + 1 = u.width.toNat
    · rw [← hfield, ← hlen, List.take_left' rfl] at hcp
      have hrun := unpkRun_unpkEffect (i := i + 1) (rest := rest) (cp := cp)
        (u := { u with off := BitVec.ofNat 3 i, acc := [] }) hs rfl hw hb (by omega)
      rw [← hfield, ← hlen, List.drop_left' rfl]
      subst hcp
      rw [unpkRun, unpkBits_cons_of_field hs hfield hb]
      exact congrArg (fun r : Up × List Code => (r.1, _ :: r.2)) hrun
    · have hmore : (u.acc ++ [b]).length < u.width.toNat := by omega
      have hrest : u.width.toNat ≤ (u.acc ++ [b]).length + rest.length := by omega
      rw [unpkRun, unpkBits_cons_of_more hs hfield]
      exact ih (u := { u with off := BitVec.ofNat 3 i, acc := u.acc ++ [b] }) hs hmore hw (by omega) hrest hcp hb

/-- Bits that complete a BUMP at width 15 (43_packer_unpacker.md R237): the field's bits stay. -/
theorem unpkRun_of_overflow {i : Nat} {x : BitString} {u : Up} (hs : u.skip = false)
    (ha : u.acc.length < u.width.toNat) (hl : u.width.toNat ≤ u.acc.length + x.length)
    (hcp : fieldCode ((u.acc ++ x).take u.width.toNat) = Config.bump) (hw : u.width = Config.maxWidth) :
    unpkRun i x u =
      ({ u with acc := (u.acc ++ x).take u.width.toNat, ctl := raiseFault .widthOverflow u.ctl }.settled, []) := by
  induction x generalizing i u with
  | nil => exact absurd ha (Nat.not_lt.2 hl)
  | cons b rest ih =>
    rw [List.length_cons] at hl
    rw [List.append_cons] at hcp ⊢
    have hlen : (u.acc ++ [b]).length = u.acc.length + 1 := by rw [List.length_append, List.length_singleton]
    by_cases hfield : u.acc.length + 1 = u.width.toNat
    · rw [← hfield, ← hlen, List.take_left' rfl] at hcp ⊢
      rw [unpkRun, unpkBits_cons_of_overflow hs hfield hcp hw]
      rfl
    · have hmore : (u.acc ++ [b]).length < u.width.toNat := by omega
      have hrest : u.width.toNat ≤ (u.acc ++ [b]).length + rest.length := by omega
      rw [unpkRun, unpkBits_cons_of_more hs hfield]
      exact ih (u := { u with off := BitVec.ofNat 3 i, acc := u.acc ++ [b] }) hs hmore hrest hcp hw

/-! ### UNPK_BYTE of a ready Unpacker -/

/-- Every field but the three named ones is as before: UP.off and UP.skip are 0 between commands (10_state.md R44). -/
theorem UpOk.settled_with {u : Up} (h : UpOk u) (width : BitVec 4) (acc : BitString) (ctl : UnitCtl) :
    { u with width := width, acc := acc, ctl := ctl }.settled = { u with width := width, acc := acc, ctl := ctl } := by
  rw [Up.settled, h.between.1, h.between.2]

section Ready
variable {u : Up} (hr : u.ctl.ready) (h : UpOk u) (b : Byte)
include hr h

theorem unpkByte_eq_unpkRun : unpkByte b u = unpkRun 0 (bytesToBits [b]) u := by
  have hskip : { u with skip := false } = u := by rw [← h.between.2]
  rw [unpkByte, unpkGuard, guardUnit_of_ready hr.1 hr.2, unpkBody_eq_unpkRun, hskip]

theorem unpkByte_of_short (hl : u.acc.length + 8 < u.width.toNat) :
    unpkByte b u = ({ u with acc := u.acc ++ bytesToBits [b] }, []) := by
  rw [unpkByte_eq_unpkRun hr h, unpkRun_of_short (x := bytesToBits [b]) h.between.2 hl]
  exact congrArg (·, []) (h.settled_with ..)

theorem unpkByte_of_field {cp : Code} (hl : u.width.toNat ≤ u.acc.length + 8)
    (hcp : fieldCode ((u.acc ++ bytesToBits [b]).take u.width.toNat) = cp)
    (hb : ¬ (cp = Config.bump ∧ u.width = Config.maxWidth)) :
    unpkByte b u = (u.afterField cp ((u.acc ++ bytesToBits [b]).drop u.width.toNat), [cp]) := by
  rw [unpkByte_eq_unpkRun hr h,
    unpkRun_of_field (x := bytesToBits [b]) h.between.2 (h.acc_short hr.1) h.width_low (Nat.le_succ 8) hl hcp hb]
  exact congrArg (·, [cp]) (h.settled_with ..)

theorem unpkByte_of_overflow (hl : u.width.toNat ≤ u.acc.length + 8)
    (hcp : fieldCode ((u.acc ++ bytesToBits [b]).take u.width.toNat) = Config.bump) (hw : u.width = Config.maxWidth) :
    unpkByte b u = ({ u with
      acc := (u.acc ++ bytesToBits [b]).take u.width.toNat, ctl := { done := false, fault := .widthOverflow } }, []) := by
  rw [unpkByte_eq_unpkRun hr h, unpkRun_of_overflow (x := bytesToBits [b]) h.between.2 (h.acc_short hr.1) hl hcp hw,
    raiseFault, hr.2]
  exact congrArg (·, []) (h.settled_with ..)

end Ready

/-! ### The commands -/

theorem exec_unpkByte_of_eq {s : State} {b : Byte} {u : Up} {codes : List Code} (hu : s.unblocked)
    (h : unpkByte b s.up = (u, codes)) :
    exec (.unpkByte b) s = .next { s with up := u, resp := { out := codes.map .code, blkEnd := false } } :=
  dispatchCommand_eq_next.2 (.inr ⟨hu, respondUp_eq_ok.2 (h ▸ rfl)⟩)

theorem exec_unpkEnd_of_eq {s : State} {u : Up} (hu : s.unblocked) (h : unpkEnd s.up = (u, [])) :
    exec .unpkEnd s = .next (silent { s with up := u }) :=
  dispatchCommand_eq_next.2 (.inr ⟨hu, respondUp_eq_ok.2 (h ▸ rfl)⟩)

theorem unpkEnd_of_ready {u : Up} (hr : u.ctl.ready) :
    unpkEnd u = ({ u with acc := [], ctl := { done := true, fault := .none } }, []) := by
  rw [unpkEnd, unpkGuard, guardUnit_of_ready hr.1 hr.2, closeUnit_of_ready hr]

theorem unpkEnd_of_faulted {u : Up} (hf : u.ctl.fault ≠ .none) : unpkEnd u = (u, []) := by
  rw [unpkEnd, unpkGuard, guardUnit_of_faulted hf]

theorem unpkEnd_of_closed {u : Up} (hf : u.ctl.fault = .none) (hd : u.ctl.done = true) :
    unpkEnd u = ({ u with ctl := { done := true, fault := .streamClosed } }, []) := by
  rw [unpkEnd, unpkGuard, guardUnit_of_closed hf hd]

/-- Settles O43. -/
theorem unpkByteAccumulates : Obligations.UnpkByteAccumulates :=
  fun _ b hu hr h hl => exec_unpkByte_of_eq hu (unpkByte_of_short hr h b hl)

/-- Settles O44. -/
theorem unpkByteCompletesAField : Obligations.UnpkByteCompletesAField :=
  fun _ b hu hr h hl =>
    ⟨fun hb => exec_unpkByte_of_eq hu (unpkByte_of_field hr h b hl rfl hb),
      fun hcp hw => exec_unpkByte_of_eq hu (unpkByte_of_overflow hr h b hl hcp hw)⟩

/-- Settles O45, by the three outcomes of the guard. -/
theorem unpkEndDropsTheBits : Obligations.UnpkEndDropsTheBits :=
  ⟨rfl, fun _ hu =>
    ⟨fun hr => exec_unpkEnd_of_eq hu (unpkEnd_of_ready hr),
      fun hf => exec_unpkEnd_of_eq hu (unpkEnd_of_faulted hf),
      fun hf hd => exec_unpkEnd_of_eq hu (unpkEnd_of_closed hf hd)⟩⟩

end Sys2Proof.Machine
end

section
/-! The Unpacker inverts the Packer (43_packer_unpacker.md R240): what is left of a packed stream while the Unpacker reads
it, each byte's part of it, and the run. -/

namespace Sys2Proof.Machine

/-! ### The fields of a stream in turn -/

theorem prefix_padToByte (x : BitString) : x <+: padToByte x := List.prefix_append x _

/-- The padding of `x` ends at the first byte boundary: of the sequences that `z` begins with, one of whole bytes that ends
less than a byte after `x` is `x` padded. -/
theorem padToByte_eq_of_prefix {x y z : BitString} (hx : padToByte x <+: z) (hy : y <+: z) (hwhole : y.length % 8 = 0)
    (hle : x.length ≤ y.length) (hlt : y.length < x.length + 8) : padToByte x = y := by
  have hmod := padToByte_length_mod x
  have hlen := padToByte_length_lt x
  have hpad := (prefix_padToByte x).length_le
  exact (List.prefix_of_prefix_length_le hx hy (by omega)).eq_of_length (by omega)

theorem prefix_withField (cp : Code) (w : Nat) (x : BitString) : x ++ fieldBits w cp.toNat <+: withField cp w x := by
  unfold withField
  split_ifs
  · exact prefix_padToByte _
  · exact List.prefix_refl _

/-- A stream with a codepoint left: it fits its field, and the rest is the stream after it. -/
theorem streamBits_cons_eq_some {w : Nat} {cp : Code} {rest : List Code} {x y : BitString}
    (h : streamBits w (cp :: rest) x = some y) :
    FitsField cp w ∧ streamBits (nextWidth w cp) rest (withField cp w x) = some y := by
  have hfits : fitsStream w (cp :: rest) = true := by rw [← streamBits_isSome, h, Option.isSome_some]
  have hfit := fitsField_of_fitsStream hfits
  exact ⟨hfit, streamBits_cons_of_fits hfit rest x ▸ h⟩

theorem nextWidth_lt {cp : Code} {w : Nat} (hfit : FitsField cp w) (hw : w < 16) : nextWidth w cp < 16 := by
  unfold nextWidth
  split_ifs with hb
  · have : w ≠ 15 := fun h15 => hfit.2 ⟨hb, h15⟩
    omega
  · decide
  · exact hw

/-- A stream begins with the bits already written. -/
theorem prefix_of_streamBits {w : Nat} {codes : List Code} {x y : BitString} (h : streamBits w codes x = some y) :
    x <+: y := by
  induction codes generalizing w x with
  | nil => exact Option.some.inj h ▸ List.prefix_refl x
  | cons cp rest ih =>
    obtain ⟨-, hrest⟩ := streamBits_cons_eq_some h
    exact ((List.prefix_append x _).trans (prefix_withField cp w x)).trans (ih hrest)

/-- The bits of a field, then those it leaves of its last byte, which after END_OF_INFO are the padding. -/
theorem withField_append_rest {cp : Code} {w : Nat} {x bits z : BitString} (hbits : bits.take w = fieldBits w cp.toNat)
    (hx : withField cp w x <+: z) (hy : x ++ bits <+: z) (hwhole : (x ++ bits).length % 8 = 0) (hle : w ≤ bits.length)
    (hlt : bits.length < w + 8) :
    withField cp w x ++ (if cp = Config.eoi then [] else bits.drop w) = x ++ bits := by
  unfold withField at *
  split_ifs at * with he
  · rw [List.append_nil]
    rw [List.length_append] at hwhole
    refine padToByte_eq_of_prefix hx hy ?_ ?_ ?_ <;> simp only [List.length_append, fieldBits_length] <;> omega
  · rw [← hbits, List.append_assoc, List.take_append_drop]

/-! ### What is left of a stream -/

/-- The Unpacker has read the fields that wrote `x`, and the bits `u.acc` of the next; the bytes `bs` that it has not read
hold the rest of the stream of `codes`. -/
def StreamLeft (u : Up) (codes : List Code) (bs : ByteString) : Prop :=
  ∃ x y, streamBits u.width.toNat codes x = some y ∧ padToByte y = x ++ u.acc ++ bytesToBits bs ∧
    (x ++ u.acc).length % 8 = 0

/-- The stream of a fresh Unpacker, of which nothing is read. -/
theorem streamLeft_of_packedStream {u : Up} {codes : List Code} {bs : ByteString} (hw : u.width = 9#4)
    (ha : u.acc = []) (h : packedStream codes = some bs) : StreamLeft u codes bs := by
  obtain ⟨y, hy, hbs⟩ := Option.map_eq_some_iff.1 h
  refine ⟨[], y, hw ▸ hy, ?_, by rw [ha]; rfl⟩
  rw [← bytesToBits_bitsToBytes, hbs, ha]
  rfl

/-- With no byte left there is no codepoint left: its field would be longer than UP.acc. -/
theorem StreamLeft.codes_eq_nil {u : Up} {codes : List Code} (h : StreamLeft u codes [])
    (ha : u.acc.length < u.width.toNat) : codes = [] := by
  obtain ⟨x, y, hy, hpad, -⟩ := h
  cases codes with
  | nil => rfl
  | cons cp rest =>
    obtain ⟨-, hrest⟩ := streamBits_cons_eq_some hy
    have hle := (((prefix_withField _ _ _).trans (prefix_of_streamBits hrest)).trans (prefix_padToByte y)).length_le
    rw [hpad] at hle
    simp only [List.length_append, fieldBits_length, bytesToBits_nil, List.length_nil] at hle
    omega

theorem StreamLeft.accumulate {u : Up} {codes : List Code} {b : Byte} {bs : ByteString}
    (h : StreamLeft u codes (b :: bs)) : StreamLeft { u with acc := u.acc ++ bytesToBits [b] } codes bs := by
  obtain ⟨x, y, hy, hpad, hwhole⟩ := h
  refine ⟨x, y, hy, ?_, ?_⟩
  · rw [hpad]
    simp
  · change (x ++ (u.acc ++ bytesToBits [b])).length % 8 = 0
    rw [← List.append_assoc, List.length_append, bytesToBits_length, List.length_singleton]
    omega

/-- A byte that completes a field: a codepoint is left, since the padding alone is shorter than a byte; its field is the one
completed; and the bits left over begin the next field, or are the padding after END_OF_INFO. -/
theorem StreamLeft.field {u : Up} {codes : List Code} {b : Byte} {bs : ByteString} (h : StreamLeft u codes (b :: bs))
    (hw : 9 ≤ u.width.toNat) (ha : u.acc.length < u.width.toNat) (hl : u.width.toNat ≤ u.acc.length + 8) :
    ∃ cp rest, codes = cp :: rest ∧ FitsField cp u.width.toNat ∧
      (u.acc ++ bytesToBits [b]).take u.width.toNat = fieldBits u.width.toNat cp.toNat ∧
      StreamLeft (u.afterField cp ((u.acc ++ bytesToBits [b]).drop u.width.toNat)) rest bs := by
  obtain ⟨x, y, hy, hpad, hwhole⟩ := h
  cases codes with
  | nil =>
    cases hy
    have hlt := padToByte_length_lt x
    rw [hpad] at hlt
    simp only [List.length_append, bytesToBits_length, List.length_cons] at hlt
    omega
  | cons cp rest =>
    obtain ⟨hfit, hrest⟩ := streamBits_cons_eq_some hy
    have hx := (prefix_of_streamBits hrest).trans (prefix_padToByte y)
    have hy : x ++ (u.acc ++ bytesToBits [b]) <+: padToByte y := ⟨bytesToBits bs, by rw [hpad]; simp⟩
    have hlen : (u.acc ++ bytesToBits [b]).length = u.acc.length + 8 := List.length_append
    have hbits : (u.acc ++ bytesToBits [b]).take u.width.toNat = fieldBits u.width.toNat cp.toNat := by
      have hfield := List.prefix_of_prefix_length_le ((prefix_withField _ _ _).trans hx) hy (by
        rw [List.length_append, List.length_append, fieldBits_length, hlen]
        omega)
      rw [List.prefix_append_right_inj, List.prefix_iff_eq_take, fieldBits_length] at hfield
      exact hfield.symm
    have hwhole' : (x ++ (u.acc ++ bytesToBits [b])).length % 8 = 0 := by
      rw [List.length_append] at hwhole ⊢
      omega
    have heq := withField_append_rest hbits hx hy hwhole' (by omega) (by omega)
    have hwidth : (BitVec.ofNat 4 (nextWidth u.width.toNat cp)).toNat = nextWidth u.width.toNat cp := by
      rw [BitVec.toNat_ofNat, Nat.mod_eq_of_lt (nextWidth_lt hfit u.width.isLt)]
    refine ⟨cp, rest, rfl, hfit, hbits, _, y, hwidth.symm ▸ hrest, ?_, ?_⟩
    · rw [Up.afterField, heq, hpad]
      simp
    · rw [Up.afterField, heq]
      exact hwhole'

/-! ### The run -/

/-- One UNPK_BYTE emits the codepoints that its byte completes, one or none, and leaves the rest of the stream. -/
theorem StreamLeft.unpkByte {u : Up} {codes : List Code} {b : Byte} {bs : ByteString} (hs : StreamLeft u codes (b :: bs))
    (hr : u.ctl.ready) (h : UpOk u) :
    ∃ u' out rest, unpkByte b u = (u', out) ∧ u'.ctl = u.ctl ∧ codes = out ++ rest ∧ StreamLeft u' rest bs := by
  have ha := h.acc_short hr.1
  rcases Nat.lt_or_ge (u.acc.length + 8) u.width.toNat with hl | hl
  · exact ⟨_, _, codes, unpkByte_of_short hr h b hl, rfl, rfl, hs.accumulate⟩
  · obtain ⟨cp, rest, rfl, ⟨hlt, hb⟩, hbits, hleft⟩ := hs.field h.width_low ha hl
    have hcp : fieldCode (fieldBits u.width.toNat cp.toNat) = cp := by
      rw [fieldCode, bitsToInt_fieldBits hlt, BitVec.ofNat_toNat, BitVec.setWidth_eq]
    exact ⟨_, _, rest, unpkByte_of_field hr h b hl (hbits ▸ hcp) (by rwa [eq_maxWidth_iff]), rfl, rfl, hleft⟩

/-- UNPK_BYTE of each byte, then UNPK_END, of an Unpacker that reads the rest of a stream. -/
theorem execAll_unpkByte_of_streamLeft {bs : ByteString} {codes : List Code} {s : State} (hu : s.unblocked)
    (hr : s.up.ctl.ready) (h : UpOk s.up) (hs : StreamLeft s.up codes bs) :
    ∃ t rs, execAll (bs.map .unpkByte ++ [.unpkEnd]) s = some (t, rs) ∧ responseCodes rs = codes ∧
      t.up.ctl.fault = .none := by
  induction bs generalizing codes s with
  | nil =>
    rw [hs.codes_eq_nil (h.acc_short hr.1)]
    exact ⟨_, _, execAll_cons_of_next (exec_unpkEnd_of_eq hu (unpkEnd_of_ready hr)) rfl, rfl, rfl⟩
  | cons b bs ih =>
    obtain ⟨u, out, rest, heq, hctl, rfl, hleft⟩ := hs.unpkByte hr h
    have hok : UpOk u := by simpa [heq] using unpkByte_keeps_ok b h
    obtain ⟨t, rs, hrun, hout, hf⟩ :=
      ih (s := { s with up := u, resp := { out := out.map .code, blkEnd := false } }) hu (hctl.symm ▸ hr) hok hleft
    refine ⟨t, _, execAll_cons_of_next (exec_unpkByte_of_eq hu heq) hrun, ?_, hf⟩
    rw [responseCodes_cons_code, hout]

theorem execAll_cons_eq_some {i : Instr} {rest : List Instr} {s u : State} {rs : List Response}
    (h : execAll (i :: rest) s = some (u, rs)) :
    ∃ t rs', exec i s = .next t ∧ execAll rest t = some (u, rs') ∧ rs = t.resp :: rs' := by
  unfold execAll at h
  split at h
  · next t hi =>
    split at h
    · cases h
      exact ⟨t, _, hi, ‹_›, rfl⟩
    · cases h
  · cases h
  · cases h

/-- An instruction that changes neither the Unpacker nor CMD.fault. -/
def leavesUp (i : Instr) : Prop := touchesUp i = false ∧ (∀ m, i ≠ .init m) ∧ ∀ data, i ≠ .reserved data

theorem execAll_of_leavesUp {is : List Instr} {s t : State} {rs : List Response} (hi : ∀ i ∈ is, leavesUp i)
    (h : execAll is s = some (t, rs)) : t.up = s.up ∧ t.cmd = s.cmd := by
  induction is generalizing s rs with
  | nil =>
    cases h
    exact ⟨rfl, rfl⟩
  | cons i rest ih =>
    obtain ⟨q, rs', hq, hrest, -⟩ := execAll_cons_eq_some h
    obtain ⟨htouch, hinit, hres⟩ := hi i (.head _)
    obtain ⟨-, -, hup, -, -, -, hcmd, -⟩ := unitsWriteOnlyTheirOwnFields i s q hq
    rw [← hup htouch, ← hcmd hinit hres]
    exact ih (fun j hj => hi j (.tail _ hj)) hrest

theorem leavesUp_of_mem_packCommands {codes : List Code} {i : Instr} (h : i ∈ packCommands codes) : leavesUp i := by
  obtain h | h := List.mem_append.1 h
  · obtain ⟨cp, -, rfl⟩ := List.mem_map.1 h
    exact ⟨rfl, nofun, nofun⟩
  · obtain rfl := List.mem_singleton.1 h
    exact ⟨rfl, nofun, nofun⟩

/-- A run of the Packer that records no fault emits the packed stream (30_encoding.md R87). -/
theorem packedStream_of_execAll {codes : List Code} {s t : State} {rs : List Response} (hu : s.unblocked)
    (hr : s.pk.ctl.ready) (hok : PkOk s.pk) (hw : s.pk.width.toNat = 9) (hbuf : s.pk.buf = [])
    (h : execAll (packCommands codes) s = some (t, rs)) (hf : t.pk.ctl.fault = .none) :
    packedStream codes = some (responseBytes rs) := by
  cases hfit : fitsStream s.pk.width.toNat codes with
  | true =>
    obtain ⟨t', rs', hrun, -, hstream⟩ := execAll_packCommands_of_fits (pre := []) hu hr hok hfit
    cases h.symm.trans hrun
    rwa [hw, hbuf] at hstream
  | false =>
    obtain ⟨t', rs', hrun, hfault⟩ := execAll_packCommands_of_not_fits hu hr hok hfit
    cases h.symm.trans hrun
    simp [hf] at hfault

/-- Settles O46: the Packer's bytes are the packed stream, since it records no fault, and INIT left a fresh Unpacker to read
it. -/
theorem unpackerInvertsPacker : Obligations.UnpackerInvertsPacker := by
  intro codes s t rs hrun hf
  obtain ⟨q, rs', hinit, hpack, rfl⟩ := execAll_cons_eq_some hrun
  cases hinit
  have hstream := packedStream_of_execAll rfl ⟨rfl, rfl⟩ (packInit_ok _ _) rfl rfl hpack hf
  obtain ⟨hup, hcmd⟩ := execAll_of_leavesUp (fun _ => leavesUp_of_mem_packCommands) hpack
  have hfresh : t.up = unpackInit s.up := hup
  have hu : t.unblocked := congrArg Cmd.fault hcmd
  have hleft : StreamLeft t.up codes (responseBytes rs') :=
    streamLeft_of_packedStream (hfresh ▸ rfl) (hfresh ▸ rfl) hstream
  exact execAll_unpkByte_of_streamLeft hu (hfresh ▸ ⟨rfl, rfl⟩) (hfresh ▸ unpackInit_ok s.up) hleft

end Sys2Proof.Machine
end

section
/-! The Packer (43_packer_unpacker.md, sections 1 to 3): PACK_CODE with every field that it sets, and PACK_END. -/

namespace Sys2Proof.Machine

/-! ### PACK_CODE -/

/-- A ready Packer's PACK_CODE of a codepoint that fits: the field, its effect, the flush (43_packer_unpacker.md R221). -/
theorem packCode_eq_ok_of_fits {p q : Pk} {cp : Code} {out : ByteString} (hr : p.ctl.ready)
    (hfit : FitsField cp p.width.toNat) (h : packCode cp p = .ok (q, out)) :
    ∃ q', packEffect cp (packField (fieldBits p.width.toNat cp.toNat) p) = .ok q' ∧ packFlush q' = (q, out) := by
  obtain ⟨hlt, hb⟩ := hfit
  rw [← eq_maxWidth_iff] at hb
  rw [packCode, packGuard_of_ready _ hr, packBody_of_fits hlt hb] at h
  obtain ⟨q', hq, h⟩ := bind_eq_ok.1 h
  exact ⟨q', hq, Except.ok.inj h⟩

/-- The count after a codepoint that is packed (43_packer_unpacker.md R224, R226). -/
theorem packCode_count {p q : Pk} {cp : Code} {out : ByteString} (hr : p.ctl.ready) (hfit : FitsField cp p.width.toNat)
    (h : packCode cp p = .ok (q, out)) :
    q.count = if cp = 256#15 ∨ cp = 258#15 then p.init else p.count + 1#16 := by
  obtain ⟨q', hq, hflush⟩ := packCode_eq_ok_of_fits hr hfit h
  cases hflush
  obtain ⟨rfl, rfl⟩ | ⟨rfl, -, rfl⟩ | ⟨rfl, rfl⟩ | ⟨he, -, hc, rfl⟩ := packEffect_eq_ok hq
  · rfl
  · rfl
  · rfl
  · exact (if_neg (not_or.2 ⟨he, hc⟩)).symm

/-- The threshold after a codepoint that is packed (43_packer_unpacker.md R226, R227). -/
theorem packCode_thresh {p q : Pk} {cp : Code} {out : ByteString} (hr : p.ctl.ready) (hfit : FitsField cp p.width.toNat)
    (h : packCode cp p = .ok (q, out)) :
    q.thresh.toNat = if cp = 256#15 ∨ cp = 258#15 then 511
      else if cp = 257#15 then 2 * p.thresh.toNat + 1 else p.thresh.toNat := by
  obtain ⟨q', hq, hflush⟩ := packCode_eq_ok_of_fits hr hfit h
  cases hflush
  obtain ⟨rfl, rfl⟩ | ⟨rfl, ht, rfl⟩ | ⟨rfl, rfl⟩ | ⟨he, hb, hc, rfl⟩ := packEffect_eq_ok hq
  · rfl
  · have ht : p.thresh.toNat < 32768 := ht
    exact (BitVec.toNat_ofNat ..).trans (Nat.mod_eq_of_lt (by omega))
  · rfl
  · exact ((if_neg (not_or.2 ⟨he, hc⟩)).trans (if_neg hb)).symm

theorem withField_length_lt (cp : Code) (w : Nat) (x : BitString) : (withField cp w x).length < x.length + w + 8 := by
  have hlen : (x ++ fieldBits w cp.toNat).length = x.length + w := by rw [List.length_append, fieldBits_length]
  unfold withField
  split_ifs
  · exact hlen ▸ padToByte_length_lt _
  · omega

/-- Settles O36: the bits by `packCode_of_fits`, the count and the threshold by the codepoint's class. -/
theorem packCodeWritesTheField : Obligations.PackCodeWritesTheField := by
  intro s cp hu hr h hlt hb
  have hfit : FitsField cp s.pk.width.toNat := ⟨hlt, by rwa [← eq_maxWidth_iff]⟩
  obtain ⟨p, out, hcode, hp, hctl, hw, hbits⟩ := packCode_of_fits h hr hfit
  have hshort : p.buf.length < 8 := Nat.lt_succ_of_le hp.buf_short
  have hlen : 8 * out.length + p.buf.length = (withField cp s.pk.width.toNat s.pk.buf).length := by
    rw [← hbits, List.length_append, bytesToBits_length]
  have hout : out.length ≤ 3 := by
    have := withField_length_lt cp s.pk.width.toNat s.pk.buf
    have := h.buf_short
    have := s.pk.width.isLt
    omega
  have heoi : cp = 256#15 → p.buf = [] := by
    rintro rfl
    have hmod : (withField 256#15 s.pk.width.toNat s.pk.buf).length % 8 = 0 := padToByte_length_mod _
    exact List.eq_nil_of_length_eq_zero (by omega)
  exact ⟨p, out, exec_packCode_of_ok hu hcode, hbits, hshort, hout, heoi, hw, packCode_count hr hfit hcode,
    packCode_thresh hr hfit hcode, packCode_init hcode, hctl⟩

theorem packRaise_of_ready {p : Pk} (f : FaultCode) (hr : p.ctl.ready) :
    packRaise f p = .ok ({ p with ctl := { done := false, fault := f } }, []) := by
  rw [packRaise, raiseFault, hr.2]

/-- A PACK_CODE whose body raises changes PK.fault only. -/
theorem exec_packCode_of_raise {s : State} {cp : Code} {f : FaultCode} (hu : s.unblocked) (hr : s.pk.ctl.ready)
    (h : packBody cp s.pk = packRaise f s.pk) :
    exec (.packCode cp) s = .next (silent { s with pk := { s.pk with ctl := { done := false, fault := f } } }) :=
  exec_packCode_of_ok hu (by rw [packCode, packGuard_of_ready _ hr, h, packRaise_of_ready f hr])

/-- Settles O37. -/
theorem tooWideCodeIsNotPacked : Obligations.TooWideCodeIsNotPacked :=
  fun _ _ hu hr hwide => exec_packCode_of_raise hu hr (packBody_of_too_wide hwide)

/-- A codepoint that fits 9 bits fits the width, which is 9 at least (10_state.md R35). -/
theorem PkOk.lt_two_pow_width {p : Pk} {cp : Code} (h : PkOk p) (hcp : cp.toNat < 512) : cp.toNat < 2 ^ p.width.toNat :=
  Nat.lt_of_lt_of_le hcp (Nat.pow_le_pow_right (n := 2) (by decide) h.width_low)

/-- Settles O38: below width 15 it is O36 at BUMP. -/
theorem packedBumpWidens : Obligations.PackedBumpWidens := by
  intro s hu hr h
  have hlt : (257#15).toNat < 2 ^ s.pk.width.toNat := h.lt_two_pow_width (by decide)
  constructor
  · intro hw
    have hb : ¬ ((257#15 : Code) = 257#15 ∧ s.pk.width = 15#4) := by
      rintro ⟨-, h15⟩
      exact absurd (h15 ▸ hw) (by decide)
    obtain ⟨p, out, hexec, hbits, -, -, -, hwidth, -, hthresh, -, hctl⟩ := packCodeWritesTheField s _ hu hr h hlt hb
    exact ⟨p, out, hexec, hbits, hwidth, hthresh, hctl⟩
  · intro hw
    exact exec_packCode_of_raise hu hr (packBody_of_overflow hlt rfl hw)

/-- Settles O39: O36 at END_OF_INFO and at CLEAR. -/
theorem controlCodesResetThePackedWidth : Obligations.ControlCodesResetThePackedWidth := by
  intro s cp hu hr h hcp
  have hlt : cp.toNat < 512 := by obtain rfl | rfl := hcp <;> decide
  have hne : cp ≠ 257#15 := by obtain rfl | rfl := hcp <;> decide
  have hnext : nextWidth s.pk.width.toNat cp = 9 := by obtain rfl | rfl := hcp <;> rfl
  obtain ⟨p, out, hexec, -, -, -, -, hwidth, hcount, hthresh, hinit, hctl⟩ :=
    packCodeWritesTheField s cp hu hr h (h.lt_two_pow_width hlt) fun hb => hne hb.1
  rw [if_pos hcp] at hcount hthresh
  exact ⟨p, out, hexec, BitVec.eq_of_toNat_eq (hwidth.trans hnext), hcount, BitVec.eq_of_toNat_eq hthresh, hinit, hctl⟩

/-! ### PACK_END -/

theorem packEnd_of_closed {p : Pk} (hf : p.ctl.fault = .none) (hd : p.ctl.done = true) :
    packEnd p = .ok ({ p with ctl := { done := true, fault := .streamClosed } }, []) := by
  rw [packEnd, packGuard, guardUnit_of_closed hf hd]

theorem packEnd_of_ready_empty {p : Pk} (hr : p.ctl.ready) (hb : p.buf = []) :
    packEnd p = .ok ({ p with ctl := { done := true, fault := .none } }, []) := by
  rw [packEnd, packGuard_of_ready _ hr, packFinish_of_empty hb, closeUnit_of_ready hr]

theorem packEnd_of_ready_pending {p : Pk} (hr : p.ctl.ready) (hb : p.buf ≠ []) (hl : p.buf.length ≤ 7) :
    packEnd p = .ok ({ p with buf := [], ctl := { done := true, fault := .none } },
      [groupByte (p.buf ++ zeros (8 - p.buf.length))]) := by
  rw [packEnd, packGuard_of_ready _ hr, packFinish_of_pending hb (Nat.le_succ_of_le hl), closeUnit_of_ready hr]

/-- Settles O40: the guard, the closed check, then the pending bits, none or a partial byte. -/
theorem packEndEmitsThePartialByte : Obligations.PackEndEmitsThePartialByte :=
  ⟨rfl, fun _ hu hf => exec_packEnd_of_ok hu (packEnd_of_faulted hf),
    fun _ hu hf hd => exec_packEnd_of_ok hu (packEnd_of_closed hf hd),
    fun _ hu hr hl =>
      ⟨fun hb => exec_packEnd_of_ok hu (packEnd_of_ready_empty hr hb),
        fun hb => exec_packEnd_of_ok hu (packEnd_of_ready_pending hr hb hl)⟩⟩

end Sys2Proof.Machine
end

section
/-! No output depends on PK.count or PK.init (10_state.md R36): each rule, run from two states that differ at most there, gives
the same output and states that again differ at most there, or stops both. -/

namespace Sys2Proof.Machine

/-! ### Two runs of a rule -/

/-- Two results of a rule: values that are related, or the same stop. -/
inductive Alike {α β : Type} (R : α → β → Prop) : Result α → Result β → Prop
  | ok {a : α} {b : β} (h : R a b) : Alike R (.ok a) (.ok b)
  | error (f : Fault) : Alike R (.error f) (.error f)

theorem Alike.refl {α : Type} (r : Result α) : Alike (· = ·) r r := by
  cases r with
  | ok a => exact .ok rfl
  | error f => exact .error f

theorem Alike.bind {α β γ δ : Type} {R : α → β → Prop} {S : γ → δ → Prop} {r : Result α} {r' : Result β}
    {f : α → Result γ} {g : β → Result δ} (h : Alike R r r') (hf : ∀ a b, R a b → Alike S (f a) (g b)) :
    Alike S (r >>= f) (r' >>= g) := by
  cases h with
  | ok h => exact hf _ _ h
  | error x => exact .error x

/-- Two runs of one rule's tail on what one operation gave. -/
theorem Alike.bind_refl {α γ δ : Type} {S : γ → δ → Prop} (r : Result α) {f : α → Result γ} {g : α → Result δ}
    (hf : ∀ a, Alike S (f a) (g a)) : Alike S (r >>= f) (r >>= g) :=
  (Alike.refl r).bind fun a _ h => h ▸ hf a

theorem guardUnit_alike {α β : Type} {R : α → β → Prop} {c : UnitCtl} {a b : α} {a' b' : β} {f : UnitCtl → α}
    {f' : UnitCtl → β} (ha : R a a') (hf : ∀ c', R (f c') (f' c')) (hb : R b b') :
    R (guardUnit c a f b) (guardUnit c a' f' b') := by
  unfold guardUnit
  split_ifs
  · exact ha
  · exact hf _
  · exact hb

/-! ### The Packer's rules -/

/-- Two Packers that differ at most in PK.count and PK.init. -/
def samePk (p q : Pk) : Prop := ∃ count init, q = { p with count := count, init := init }

/-- Such Packers, and the same bytes emitted. -/
def samePkOut (x y : Pk × ByteString) : Prop := samePk x.1 y.1 ∧ y.2 = x.2

section Pk
variable {p q : Pk} (h : samePk p q)
include h

theorem samePk.packField (field : BitString) : samePk (packField field p) (packField field q) := by
  obtain ⟨count, init, rfl⟩ := h
  exact ⟨_, _, rfl⟩

theorem samePk.packInit (n : Word16) : samePk (packInit n p) (packInit n q) := by
  obtain ⟨count, init, rfl⟩ := h
  exact ⟨_, _, rfl⟩

theorem samePk.packRaise (f : FaultCode) : Alike samePkOut (packRaise f p) (packRaise f q) := by
  obtain ⟨count, init, rfl⟩ := h
  exact .ok ⟨⟨_, _, rfl⟩, rfl⟩

theorem samePk.packFlush : samePkOut (packFlush p) (packFlush q) := by
  obtain ⟨count, init, rfl⟩ := h
  exact ⟨⟨_, _, rfl⟩, rfl⟩

/-- PackWidthReset sets PK.count from PK.init, so both again differ at most there. -/
theorem samePk.packEffect (cp : Code) : Alike samePk (packEffect cp p) (packEffect cp q) := by
  obtain ⟨count, init, rfl⟩ := h
  unfold Machine.packEffect
  split_ifs
  · exact .ok ⟨_, _, rfl⟩
  · exact Alike.bind_refl (nextThresh p.thresh) fun _ => .ok ⟨_, _, rfl⟩
  · exact .ok ⟨_, _, rfl⟩
  · exact .ok ⟨_, _, rfl⟩

theorem samePk.packBody (cp : Code) : Alike samePkOut (packBody cp p) (packBody cp q) := by
  have hw : q.width = p.width := by
    obtain ⟨count, init, rfl⟩ := h
    rfl
  unfold Machine.packBody
  rw [hw]
  split
  · exact h.packRaise _
  · split_ifs
    · exact h.packRaise _
    · exact ((h.packField _).packEffect cp).bind fun _ _ hq => .ok hq.packFlush

theorem samePk.packFinish : Alike samePkOut (packFinish p) (packFinish q) := by
  obtain ⟨count, init, rfl⟩ := h
  unfold Machine.packFinish
  split_ifs
  · exact .ok ⟨⟨_, _, rfl⟩, rfl⟩
  · exact .error _
  · exact .ok ⟨⟨_, _, rfl⟩, rfl⟩

theorem samePk.packGuard {body body' : Result (Pk × ByteString)} (hb : Alike samePkOut body body') :
    Alike samePkOut (packGuard p body) (packGuard q body') := by
  obtain ⟨count, init, rfl⟩ := h
  exact guardUnit_alike (.ok ⟨⟨_, _, rfl⟩, rfl⟩) (fun _ => .ok ⟨⟨_, _, rfl⟩, rfl⟩) hb

theorem samePk.packCode (cp : Code) : Alike samePkOut (packCode cp p) (packCode cp q) := h.packGuard (h.packBody cp)

theorem samePk.packEnd : Alike samePkOut (packEnd p) (packEnd q) := h.packGuard h.packFinish

theorem samePk.fault_eq : q.ctl.fault = p.ctl.fault := by
  obtain ⟨count, init, rfl⟩ := h
  rfl

/-- The loop stops in both runs or in neither. -/
theorem samePk.packAll (codes : List Code) : Alike samePkOut (packAll codes p) (packAll codes q) := by
  induction codes generalizing p q with
  | nil => exact .ok ⟨h, rfl⟩
  | cons cp rest ih =>
    refine (h.packCode cp).bind ?_
    rintro ⟨p', out⟩ ⟨q', out'⟩ ⟨hpq, rfl⟩
    have hfault : q'.ctl.fault = p'.ctl.fault := hpq.fault_eq
    dsimp only
    rw [hfault]
    split_ifs
    · exact .ok ⟨hpq, rfl⟩
    · refine (ih hpq).bind ?_
      rintro ⟨p'', more⟩ ⟨q'', more'⟩ ⟨hpq', rfl⟩
      exact .ok ⟨hpq', rfl⟩

end Pk

/-! ### The rules as commands -/

/-- Two states that differ at most in PK.count and PK.init, with the same response. -/
def sameAnswer (s t : State) : Prop := s.resp = t.resp ∧ sameButCount s t

theorem sameButCount_iff {s t : State} : sameButCount s t ↔ ∃ q, samePk s.pk q ∧ t = { s with pk := q } := by
  constructor
  · intro h
    exact ⟨_, ⟨_, _, rfl⟩, h⟩
  · rintro ⟨_, ⟨count, init, rfl⟩, rfl⟩
    rfl

theorem sameAnswer_of_samePk {p q : Pk} (h : samePk p q) (enc : Enc) (de : De) (up : Up) (cmd : Cmd) (resp : Response)
    (port : List PortWord) : sameAnswer ⟨enc, de, p, up, cmd, resp, port⟩ ⟨enc, de, q, up, cmd, resp, port⟩ :=
  ⟨rfl, sameButCount_iff.2 ⟨q, h, rfl⟩⟩

theorem respondPk_alike (s : State) {q : Pk} {r r' : Result (Pk × ByteString)} (h : Alike samePkOut r r') :
    Alike sameAnswer (respondPk s r) (respondPk { s with pk := q } r') := by
  refine h.bind ?_
  rintro ⟨p', out⟩ ⟨q', out'⟩ ⟨hpq, rfl⟩
  exact .ok (sameAnswer_of_samePk hpq ..)

theorem outcomeOf_alike {r r' : Result State} (h : Alike sameAnswer r r') :
    (∃ s t, outcomeOf r = .next s ∧ outcomeOf r' = .next t ∧ sameAnswer s t) ∨
      ∃ f, outcomeOf r = .fault f ∧ outcomeOf r' = .fault f := by
  cases h with
  | ok h => exact .inl ⟨_, _, rfl, rfl, h⟩
  | error f => exact .inr ⟨f, rfl, rfl⟩

/-- Each rule, by the unit that it runs: the other units' rules do not read the Packer. -/
theorem ruleOf_alike (i : Instr) {s t : State} (h : sameButCount s t) : Alike sameAnswer (ruleOf i s) (ruleOf i t) := by
  obtain ⟨q, hq, rfl⟩ := sameButCount_iff.1 h
  cases i with
  | packCode cp => exact respondPk_alike s (hq.packCode cp)
  | packEnd => exact respondPk_alike s hq.packEnd
  | cmpByte b =>
    refine Alike.bind_refl (encByte b s.enc) fun ⟨_, codes⟩ => (hq.packAll codes).bind ?_
    rintro ⟨p', out⟩ ⟨q', out'⟩ ⟨hpq, rfl⟩
    exact .ok (sameAnswer_of_samePk hpq ..)
  | cmpEnd =>
    refine Alike.bind_refl (encEnd s.enc) fun ⟨_, codes⟩ => (hq.packAll codes).bind ?_
    rintro ⟨p', out⟩ ⟨q', out'⟩ ⟨hpq, rfl⟩
    refine hpq.packEnd.bind ?_
    rintro ⟨p'', last⟩ ⟨q'', last'⟩ ⟨hpq', rfl⟩
    exact .ok (sameAnswer_of_samePk hpq' ..)
  | init _ => exact .ok (sameAnswer_of_samePk ⟨_, _, rfl⟩ ..)
  | initPack _ => exact .ok (sameAnswer_of_samePk (hq.packInit _) ..)
  | unpkByte _ | unpkEnd | reserved _ => exact .ok (sameAnswer_of_samePk hq ..)
  | _ => exact Alike.bind_refl _ fun _ => .ok (sameAnswer_of_samePk hq ..)

/-- Settles O41: INIT runs its rule, and the port blocks any other instruction in both runs or in neither. -/
theorem packerCountNeverShows : Obligations.PackerCountNeverShows := by
  intro i s t h
  have hrun := outcomeOf_alike (ruleOf_alike i h)
  by_cases hi : ∃ m, i = .init m
  · obtain ⟨m, rfl⟩ := hi
    exact hrun
  · have hne (m : Word16) : i ≠ .init m := fun hm => hi ⟨m, hm⟩
    have hcmd : t.cmd.fault = s.cmd.fault := congrArg (·.cmd.fault) h
    rw [exec_eq_dispatchCommand s hne, exec_eq_dispatchCommand t hne]
    by_cases hu : s.unblocked
    · rwa [dispatchCommand_of_unblocked _ hu, dispatchCommand_of_unblocked _ (hcmd.trans hu)]
    · have ht : t.cmd.fault ≠ .none := hcmd ▸ hu
      rw [dispatchCommand_of_blocked _ hu, dispatchCommand_of_blocked _ ht]
      exact .inl ⟨_, _, rfl, rfl, rfl, congrArg (respond · [] false) h⟩

end Sys2Proof.Machine
end

section
/-! The façade (44_facade.md R270 to R273): its loops over the codepoints, the loops as runs of a unit's commands, and each
façade command as the commands of its two units in sequence. -/

namespace Sys2Proof.Machine

/-! ### The rules complete -/

/-- A guarded rule completes if its body does. -/
theorem guardUnit_completes {α : Type} {c : UnitCtl} {a : α} {f : UnitCtl → α} {body : Result α}
    (hb : c.ready → ∃ r, body = .ok r) : ∃ r, guardUnit c (.ok a) (fun c' => .ok (f c')) body = .ok r := by
  obtain ⟨-, hg⟩ | ⟨-, -, hg⟩ | ⟨hf, hd, hg⟩ := guardUnit_cases c (.ok a) (fun c' => .ok (f c')) body
  · exact ⟨_, hg⟩
  · exact ⟨_, hg⟩
  · rw [hg]
    exact hb ⟨hf, hd⟩

theorem EncOk.encPending_completes {e : Enc} (h : EncOk e) : ∃ l, encPending e = .ok l := by
  by_cases hp : e.pfx = []
  · exact ⟨[], encPending_of_empty hp⟩
  · obtain ⟨c, hc⟩ := h.read_pfx hp
    exact ⟨[c], encPending_of_key hp hc⟩

theorem EncOk.encByte_completes {e : Enc} (h : EncOk e) (b : Byte) : ∃ r, encByte b e = .ok r := by
  refine guardUnit_completes fun hr => ?_
  obtain ⟨_, _, hw, -⟩ := h.encWalk_outcome hr.1 b
  exact ⟨_, hw⟩

theorem EncOk.encEnd_completes {e : Enc} (h : EncOk e) : ∃ r, encEnd e = .ok r := by
  refine guardUnit_completes fun _ => ?_
  obtain ⟨_, hl⟩ := h.encPending_completes
  exact ⟨_, encFinish_of_pending hl⟩

theorem PkOk.packCode_completes {p : Pk} (h : PkOk p) (cp : Code) : ∃ r, packCode cp p = .ok r := by
  rw [packCode, packGuard]
  refine guardUnit_completes fun hr => ?_
  rw [← packGuard_of_ready (packBody cp p) hr]
  by_cases hfit : FitsField cp p.width.toNat
  · obtain ⟨_, _, hcode, -⟩ := packCode_of_fits h hr hfit
    exact ⟨_, hcode⟩
  · obtain ⟨_, -, hcode⟩ := packCode_of_not_fits hr hfit
    exact ⟨_, hcode⟩

theorem PkOk.packEnd_completes {p : Pk} (h : PkOk p) : ∃ r, packEnd p = .ok r := by
  rw [packEnd, packGuard]
  refine guardUnit_completes fun hr => ?_
  rw [← packGuard_of_ready (packFinish p) hr]
  exact ⟨_, packEnd_of_ready hr h.buf_short⟩

/-- An entry or DE.pfx is never empty, so a data codepoint's arm has its first byte (42_decoder.md R185, R186). -/
theorem DeOk.decData_completes {d : De} (h : DeOk d) (cp : Code) : ∃ r, decData cp d = .ok r := by
  cases hk : dictRead d.dict cp with
  | some out =>
    by_cases hs : d.size.toNat < 32768
    · obtain ⟨_, -, hd⟩ := decData_emits_of_known hk (h.nonempty_of_read hk) hs
      exact ⟨_, hd⟩
    rw [decData_of_known hk]
    cases hp : d.pfx with
    | none => exact ⟨_, decKnown_of_no_prefix out hp⟩
    | some p => exact ⟨_, decKnown_of_ceiling out hp (Nat.le_of_not_lt hs)⟩
  | none =>
    by_cases hu : d.pfx = none ∨ cp.toNat ≠ d.size.toNat
    · exact ⟨_, decData_of_unknown hk hu⟩
    · rw [not_or, not_not] at hu
      obtain ⟨hp, hcp⟩ := hu
      obtain ⟨p, hp⟩ := Option.ne_none_iff_exists'.1 hp
      obtain ⟨_, _, -, -, hd⟩ :=
        decData_emits_of_special hk hp (h.vals_nonempty p (h.pfx_entry p hp)) hcp (hcp ▸ cp.isLt)
      exact ⟨_, hd⟩

theorem DeOk.decStep_completes {d : De} (h : DeOk d) (cp : Code) : ∃ r, decStep false cp d = .ok r := by
  by_cases hb : cp = Config.bump
  · exact hb ▸ ⟨_, rfl⟩
  by_cases he : cp = Config.eoi
  · exact he ▸ ⟨_, rfl⟩
  by_cases hc : cp = Config.clear
  · exact hc ▸ ⟨_, rfl⟩
  exact (decStep_of_data false he hb hc).symm ▸ h.decData_completes cp

theorem DeOk.decCode_completes {d : De} (h : DeOk d) (cp : Code) : ∃ r, decCode cp d = .ok r := by
  rw [decCode, decGuard]
  exact guardUnit_completes fun _ => h.decStep_completes cp

/-- DEC_END needs no invariant, and emits nothing. -/
theorem decEnd_completes (d : De) : ∃ q, decEnd d = .ok (q, [], false) := by
  obtain ⟨-, hg⟩ | ⟨-, -, hg⟩ | ⟨-, -, hg⟩ := guardUnit_cases (α := DecResult) d.ctl (.ok (d, [], false))
    (fun c => .ok ({ d with ctl := c }, [], false)) (.ok ({ d with ctl := closeUnit d.ctl }, [], false))
  all_goals exact ⟨_, hg⟩

theorem unpkEnd_out (u : Up) : (unpkEnd u).2 = [] := by
  rw [unpkEnd]
  obtain hg | ⟨-, hg⟩ | ⟨-, -, hg⟩ := unpkGuard_cases u ({ u with acc := [], ctl := closeUnit u.ctl }, []) <;> rw [hg]

/-! ### The loops -/

theorem packAll_of_faulted (codes : List Code) {p : Pk} (h : p.ctl.fault ≠ .none) : packAll codes p = .ok (p, []) := by
  cases codes with
  | nil => rfl
  | cons cp rest => simp [packAll, packCode_of_faulted cp h, h]

/-- To stop at a Packer fault makes no difference: a faulted Packer ignores the rest (44_facade.md R270). -/
theorem packAll_cons_iff {cp : Code} {rest : List Code} {p r : Pk} {out : ByteString} :
    packAll (cp :: rest) p = .ok (r, out) ↔
      ∃ q o more, packCode cp p = .ok (q, o) ∧ packAll rest q = .ok (r, more) ∧ out = o ++ more := by
  have turn {q : Pk} {o : ByteString} (hc : packCode cp p = .ok (q, o)) :
      packAll (cp :: rest) p = packAll rest q >>= fun y => .ok (y.1, o ++ y.2) := by
    by_cases hf : q.ctl.fault = .none
    · simp [packAll, hc, hf]
    · simp [packAll, hc, hf, packAll_of_faulted rest hf]
  constructor
  · intro h
    obtain ⟨q, o, hc, -⟩ := packAll_cons_eq_ok h
    obtain ⟨⟨r', more⟩, hr, h⟩ := bind_eq_ok.1 ((turn hc).symm.trans h)
    cases h
    exact ⟨q, o, more, hc, hr, rfl⟩
  · rintro ⟨q, o, more, hc, hr, rfl⟩
    rw [turn hc, hr]
    rfl

theorem packAll_append {codes more : List Code} {p q r : Pk} {o out : ByteString} (h : packAll codes p = .ok (q, o))
    (hm : packAll more q = .ok (r, out)) : packAll (codes ++ more) p = .ok (r, o ++ out) := by
  induction codes generalizing p o with
  | nil =>
    cases h
    exact hm
  | cons cp rest ih =>
    obtain ⟨q', o', o'', hc, hr, rfl⟩ := packAll_cons_iff.1 h
    exact packAll_cons_iff.2 ⟨q', o', _, hc, ih hr, List.append_assoc ..⟩

theorem PkOk.packAll_completes {p : Pk} (h : PkOk p) (codes : List Code) : ∃ r, packAll codes p = .ok r := by
  induction codes generalizing p with
  | nil => exact ⟨_, rfl⟩
  | cons cp rest ih =>
    obtain ⟨⟨q, o⟩, hc⟩ := h.packCode_completes cp
    obtain ⟨⟨r, more⟩, hr⟩ := ih (packCode_keeps_ok h hc)
    exact ⟨_, packAll_cons_iff.2 ⟨q, o, more, hc, hr, rfl⟩⟩

theorem decAll_of_faulted (codes : List Code) {d : De} (h : d.ctl.fault ≠ .none) :
    decAll codes d = .ok (d, [], false) := by
  cases codes with
  | nil => rfl
  | cons cp rest =>
    have hc : decCode cp d = .ok (d, [], false) := by rw [decCode, decGuard, guardUnit_of_faulted h]
    simp [decAll, hc, h]

/-- To stop at a Decoder fault makes no difference: a faulted Decoder ignores the rest (44_facade.md R272). -/
theorem decAll_cons_iff {cp : Code} {rest : List Code} {d r : De} {out : ByteString} {blkEnd : Bool} :
    decAll (cp :: rest) d = .ok (r, out, blkEnd) ↔
      ∃ q o e more moreEnd, decCode cp d = .ok (q, o, e) ∧ decAll rest q = .ok (r, more, moreEnd) ∧
        out = o ++ more ∧ blkEnd = (e || moreEnd) := by
  have turn {q : De} {o : ByteString} {e : Bool} (hc : decCode cp d = .ok (q, o, e)) :
      decAll (cp :: rest) d = decAll rest q >>= fun y => .ok (y.1, o ++ y.2.1, e || y.2.2) := by
    by_cases hf : q.ctl.fault = .none
    · simp [decAll, hc, hf]
    · simp [decAll, hc, hf, decAll_of_faulted rest hf]
  constructor
  · intro h
    obtain ⟨q, o, e, hc, -⟩ := decAll_cons_eq_ok h
    obtain ⟨⟨r', more, moreEnd⟩, hr, h⟩ := bind_eq_ok.1 ((turn hc).symm.trans h)
    cases h
    exact ⟨q, o, e, more, moreEnd, hc, hr, rfl, rfl⟩
  · rintro ⟨q, o, e, more, moreEnd, hc, hr, rfl, rfl⟩
    rw [turn hc, hr]
    rfl

theorem DeOk.decAll_completes {d : De} (h : DeOk d) (codes : List Code) : ∃ r, decAll codes d = .ok r := by
  induction codes generalizing d with
  | nil => exact ⟨_, rfl⟩
  | cons cp rest ih =>
    obtain ⟨⟨q, o, e⟩, hc⟩ := h.decCode_completes cp
    obtain ⟨⟨r, more, moreEnd⟩, hr⟩ := ih (decCode_keeps_ok h hc)
    exact ⟨_, decAll_cons_iff.2 ⟨q, o, e, more, moreEnd, hc, hr, rfl, rfl⟩⟩

/-! ### The loops as runs of commands -/

theorem execAll_append {is js : List Instr} {s t u : State} {rs us : List Response} (h : execAll is s = some (t, rs))
    (hj : execAll js t = some (u, us)) : execAll (is ++ js) s = some (u, rs ++ us) := by
  induction is generalizing s rs with
  | nil =>
    cases h
    exact hj
  | cons i rest ih =>
    obtain ⟨q, rs', hq, hrest, rfl⟩ := execAll_cons_eq_some h
    exact execAll_cons_of_next hq (ih hrest)

theorem responseItems_cons_byte (o : ByteString) (e : Bool) (rs : List Response) :
    responseItems ({ out := o.map .byte, blkEnd := e } :: rs) = o.map .byte ++ responseItems rs := rfl

theorem responseItems_append (rs us : List Response) : responseItems (rs ++ us) = responseItems rs ++ responseItems us :=
  List.flatMap_append

/-- PACK_CODE of each codepoint does what the loop of CMP_BYTE does. -/
theorem execAll_packCode_of_packAll {codes : List Code} {s : State} {p : Pk} {out : ByteString} (hu : s.unblocked)
    (h : packAll codes s.pk = .ok (p, out)) :
    ∃ resp rs, execAll (codes.map .packCode) s = some ({ s with pk := p, resp := resp }, rs) ∧
      responseItems rs = out.map .byte := by
  induction codes generalizing s out with
  | nil =>
    cases h
    exact ⟨s.resp, [], rfl, rfl⟩
  | cons cp rest ih =>
    obtain ⟨q, o, more, hc, hr, rfl⟩ := packAll_cons_iff.1 h
    obtain ⟨resp, rs, hrun, hout⟩ := ih (s := s.afterPack q o) hu hr
    refine ⟨resp, _, execAll_cons_of_next (exec_packCode_of_ok hu hc) hrun, ?_⟩
    rw [State.afterPack, responseItems_cons_byte, hout, List.map_append]

/-- The Packer's part of CMP_END: the loop, then PACK_END (`exec_cmpEnd_of_packRun`, `execAll_of_packRun`). -/
def packRun (codes : List Code) (p : Pk) : Result (Pk × ByteString) := do
  let (q, out) ← packAll codes p
  let (r, last) ← packEnd q
  .ok (r, out ++ last)

theorem packRun_eq_ok {codes : List Code} {p r : Pk} {out : ByteString} :
    packRun codes p = .ok (r, out) ↔
      ∃ q o last, packAll codes p = .ok (q, o) ∧ packEnd q = .ok (r, last) ∧ out = o ++ last := by
  simp only [packRun, bind_eq_ok, Except.ok.injEq]
  constructor
  · rintro ⟨⟨q, o⟩, hq, ⟨r', last⟩, hr, h⟩
    cases h
    exact ⟨q, o, last, hq, hr, rfl⟩
  · rintro ⟨q, o, last, hq, hr, rfl⟩
    exact ⟨(q, o), hq, (r, last), hr, rfl⟩

theorem PkOk.packRun_completes {p : Pk} (h : PkOk p) (codes : List Code) : ∃ r, packRun codes p = .ok r := by
  obtain ⟨⟨q, o⟩, hq⟩ := h.packAll_completes codes
  obtain ⟨⟨r, last⟩, hr⟩ := (packAll_keeps_ok h hq).packEnd_completes
  exact ⟨_, packRun_eq_ok.2 ⟨q, o, last, hq, hr, rfl⟩⟩

theorem packRun_append {codes more : List Code} {p q r : Pk} {o out : ByteString} (h : packAll codes p = .ok (q, o))
    (hm : packRun more q = .ok (r, out)) : packRun (codes ++ more) p = .ok (r, o ++ out) := by
  obtain ⟨q', o', last, hq, hr, rfl⟩ := packRun_eq_ok.1 hm
  exact packRun_eq_ok.2 ⟨q', _, last, packAll_append h hq, hr, (List.append_assoc ..).symm⟩

theorem execAll_of_packRun {codes : List Code} {s : State} {p : Pk} {out : ByteString} (hu : s.unblocked)
    (h : packRun codes s.pk = .ok (p, out)) :
    ∃ resp rs, execAll (packCommands codes) s = some ({ s with pk := p, resp := resp }, rs) ∧
      responseItems rs = out.map .byte := by
  obtain ⟨q, o, last, hq, hr, rfl⟩ := packRun_eq_ok.1 h
  obtain ⟨resp, rs, hrun, hout⟩ := execAll_packCode_of_packAll hu hq
  have hend : execAll [.packEnd] { s with pk := q, resp := resp } = _ :=
    execAll_packCommands_nil (s := { s with pk := q, resp := resp }) hu hr
  refine ⟨_, _, execAll_append hrun hend, ?_⟩
  rw [responseItems_append, hout, List.map_append]
  exact congrArg _ (List.append_nil _)

/-- DEC_CODE of each codepoint does what the loop of DCMP_BYTE does. -/
theorem execAll_decCode_of_decAll {codes : List Code} {s : State} {d : De} {out : ByteString} {blkEnd : Bool}
    (hu : s.unblocked) (h : decAll codes s.de = .ok (d, out, blkEnd)) :
    ∃ resp rs, execAll (codes.map .decCode) s = some ({ s with de := d, resp := resp }, rs) ∧
      responseItems rs = out.map .byte ∧ responseEnds rs = blkEnd := by
  induction codes generalizing s out blkEnd with
  | nil =>
    cases h
    exact ⟨s.resp, [], rfl, rfl, rfl⟩
  | cons cp rest ih =>
    obtain ⟨q, o, e, more, moreEnd, hc, hr, rfl, rfl⟩ := decAll_cons_iff.1 h
    obtain ⟨resp, rs, hrun, hout, hend⟩ :=
      ih (s := { s with de := q, resp := { out := o.map .byte, blkEnd := e } }) hu hr
    refine ⟨resp, _, execAll_cons_of_next (runArm_of_decGuard hu hc) hrun, ?_, congrArg (e || ·) hend⟩
    rw [responseItems_cons_byte, hout, List.map_append]

/-! ### The commands -/

/-- The state after a command that compressed (`exec_cmpByte_of_packAll`, `exec_cmpEnd_of_packRun`): the two units and the
Packer's bytes. -/
def State.afterCmp (s : State) (e : Enc) (p : Pk) (out : ByteString) : State :=
  { s with enc := e, pk := p, resp := { out := out.map .byte, blkEnd := false } }

section Commands

variable {s : State} (hu : s.unblocked)
include hu

theorem exec_cmpByte_of_packAll {b : Byte} {e : Enc} {codes : List Code} {p : Pk} {out : ByteString}
    (he : encByte b s.enc = .ok (e, codes)) (hp : packAll codes s.pk = .ok (p, out)) :
    exec (.cmpByte b) s = .next (s.afterCmp e p out) := by
  refine dispatchCommand_eq_next.2 (.inr ⟨hu, ?_⟩)
  simp [cmpByte, he, hp, respond, State.afterCmp]

theorem exec_cmpEnd_of_packRun {e : Enc} {codes : List Code} {p : Pk} {out : ByteString}
    (he : encEnd s.enc = .ok (e, codes)) (hp : packRun codes s.pk = .ok (p, out)) :
    exec .cmpEnd s = .next (s.afterCmp e p out) := by
  obtain ⟨q, o, last, hq, hr, rfl⟩ := packRun_eq_ok.1 hp
  refine dispatchCommand_eq_next.2 (.inr ⟨hu, ?_⟩)
  simp [cmpEnd, he, hq, hr, respond, State.afterCmp]

theorem exec_dcmpByte_of_decAll {b : Byte} {u : Up} {codes : List Code} {d : De} {out : ByteString} {blkEnd : Bool}
    (hb : unpkByte b s.up = (u, codes)) (hd : decAll codes s.de = .ok (d, out, blkEnd)) :
    exec (.dcmpByte b) s =
      .next { s with up := u, de := d, resp := { out := out.map .byte, blkEnd := blkEnd } } := by
  refine dispatchCommand_eq_next.2 (.inr ⟨hu, ?_⟩)
  rw [dcmpByte, hb, hd]
  rfl

theorem exec_dcmpEnd_of_decEnd {u : Up} {d : De} (hb : unpkEnd s.up = (u, [])) (hd : decEnd s.de = .ok (d, [], false)) :
    exec .dcmpEnd s = .next (silent { s with up := u, de := d }) := by
  refine dispatchCommand_eq_next.2 (.inr ⟨hu, ?_⟩)
  rw [dcmpEnd, hb, hd]
  rfl

end Commands

/-- Settles O47: both units complete, and PACK_CODE of each codepoint is the loop. -/
theorem cmpByteIsEncodeThenPack : Obligations.CmpByteIsEncodeThenPack := by
  intro s b hu henc hpk
  obtain ⟨⟨e, codes⟩, he⟩ := henc.encByte_completes b
  obtain ⟨⟨p, out⟩, hp⟩ := hpk.packAll_completes codes
  obtain ⟨resp, rs, hrun, hout⟩ := execAll_packCode_of_packAll
    (s := { s with enc := e, resp := { out := codes.map .code, blkEnd := false } }) hu hp
  refine ⟨_, { s with enc := e, pk := p, resp := resp }, rs, (exec_encByte_eq_next hu).2 ⟨e, codes, he, rfl⟩, ?_, ?_⟩
  · exact (itemCodes_map_code codes).symm ▸ hrun
  · rw [hout]
    exact exec_cmpByte_of_packAll hu he hp

/-- Settles O48: as O47, with PACK_END after the loop. -/
theorem cmpEndIsEncodeEndThenPackEnd : Obligations.CmpEndIsEncodeEndThenPackEnd := by
  intro s hu henc hpk
  obtain ⟨⟨e, codes⟩, he⟩ := henc.encEnd_completes
  obtain ⟨⟨p, out⟩, hp⟩ := hpk.packRun_completes codes
  obtain ⟨resp, rs, hrun, hout⟩ := execAll_of_packRun
    (s := { s with enc := e, resp := { out := codes.map .code, blkEnd := false } }) hu hp
  refine ⟨_, { s with enc := e, pk := p, resp := resp }, rs, exec_encEnd_of_encEnd hu he, ?_, ?_⟩
  · exact (itemCodes_map_code codes).symm ▸ hrun
  · rw [hout]
    exact exec_cmpEnd_of_packRun hu he hp

/-- Settles O49: the Decoder completes, and DEC_CODE of each codepoint is the loop. -/
theorem dcmpByteIsUnpackThenDecode : Obligations.DcmpByteIsUnpackThenDecode := by
  intro s b hu _ hde
  obtain ⟨u, codes, hb⟩ : ∃ u codes, unpkByte b s.up = (u, codes) := ⟨_, _, rfl⟩
  obtain ⟨⟨d, out, blkEnd⟩, hd⟩ := hde.decAll_completes codes
  obtain ⟨resp, rs, hrun, hout, hend⟩ := execAll_decCode_of_decAll
    (s := { s with up := u, resp := { out := codes.map .code, blkEnd := false } }) hu hd
  refine ⟨_, { s with up := u, de := d, resp := resp }, rs, exec_unpkByte_of_eq hu hb, ?_, ?_⟩
  · exact (itemCodes_map_code codes).symm ▸ hrun
  · rw [hout, hend]
    exact exec_dcmpByte_of_decAll hu hb hd

/-- Settles O50: both rules complete from every state. -/
theorem dcmpEndIsUnpackEndThenDecodeEnd : Obligations.DcmpEndIsUnpackEndThenDecodeEnd := by
  intro s hu
  have hup : unpkEnd s.up = ((unpkEnd s.up).1, []) := Prod.ext rfl (unpkEnd_out s.up)
  obtain ⟨d, hd⟩ := decEnd_completes s.de
  refine ⟨_, _, exec_unpkEnd_of_eq hu hup, runArm_of_decGuard hu hd, rfl, ?_⟩
  exact exec_dcmpEnd_of_decEnd hu hup hd

end Sys2Proof.Machine
end

section
/-! The configuration commands INIT and INIT_PACK (44_facade.md R276, R277). -/

namespace Sys2Proof.Machine

theorem legalMax_iff {m : Word16} : legalMax m = true ↔ 259 ≤ m.toNat ∧ m.toNat ≤ 32768 := by simp [legalMax]

/-- The Encoder's column after INIT(m) (10_state.md R50). -/
theorem encConfigure_eq (m : Word16) (e : Enc) : encConfigure m e = {
    dict := encDict0, size := 259#16, pfx := [], max := m, thresh := 511#16, width := 9#4
    ctl := { done := false, fault := if 259 ≤ m.toNat ∧ m.toNat ≤ 32768 then .none else .configError } } := by
  have hctl : (encConfigure m e).ctl =
      { done := false, fault := if 259 ≤ m.toNat ∧ m.toNat ≤ 32768 then .none else .configError } := by
    simp only [← legalMax_iff, ← encConfigure_fault m e, ← encConfigure_done m e]
  rw [← hctl]
  rfl

/-- Settles O51. -/
theorem initSetsEveryField : Obligations.InitSetsEveryField := by
  intro s m
  rw [← encConfigure_eq m s.enc]
  exact ⟨rfl, rfl⟩

/-- Settles O53. -/
theorem initPackResetsThePacker : Obligations.InitPackResetsThePacker :=
  fun _ _ => ⟨rfl, dispatchCommand_of_unblocked _, dispatchCommand_of_blocked _⟩

end Sys2Proof.Machine
end

section
/-! decompress(compress(x, m)) = x (44_facade.md R278, R279): the Packer stays at the Encoder's width, and the Unpacker reads
back what the Packer wrote while the Decoder follows the Encoder. -/

namespace Sys2Proof.Machine

/-! ### Words issued one at a time -/

theorem issue_encode {i : Instr} {s : State} (hwf : i.wf = true) (hp : s.port = []) :
    issue (encode i) s = exec i s := by
  have hport : ({ s with port := s.port ++ [encode i] } : State).port = encode i :: [] := by rw [hp]; rfl
  have hs : ({ s with port := [] } : State) = s := by rw [← hp]
  rw [issue, step_of_decoded hport (decodeOfEncodeIsTheInstruction i hwf)]
  exact congrArg (exec i) hs

/-- With nothing pending, the words of a sequence run it. -/
theorem issueAll_map_encode {is : List Instr} {s t : State} {rs : List Response} (hwf : ∀ i ∈ is, i.wf = true)
    (hp : s.port = []) (h : execAll is s = some (t, rs)) : issueAll (is.map encode) s = some (t, rs) := by
  induction is generalizing s rs with
  | nil => exact h
  | cons i rest ih =>
    obtain ⟨q, rs', hq, hrest, rfl⟩ := execAll_cons_eq_some h
    obtain ⟨-, -, -, -, -, -, -, hport⟩ := unitsWriteOnlyTheirOwnFields i s q hq
    have hrun := ih (fun j hj => hwf j (.tail _ hj)) (hport.trans hp) hrest
    simp [issueAll, issue_encode (hwf i (.head _)) hp, hq, hrun]

theorem runCommands_of_execAll {is : List Instr} {s t : State} {rs : List Response} (hwf : ∀ i ∈ is, i.wf = true)
    (hp : s.port = []) (h : execAll is s = some (t, rs)) : runCommands is s = some (t, responseBytes rs) :=
  runCommands_eq_some.2 ⟨rs, issueAll_map_encode hwf hp h, rfl⟩

theorem wf_of_mem_compressCommands {m : Word16} {x : ByteString} {i : Instr} (h : i ∈ compressCommands m x) :
    i.wf = true := by
  simp only [compressCommands, List.mem_append, List.mem_cons, List.mem_map, List.not_mem_nil, or_false] at h
  obtain (rfl | ⟨b, -, rfl⟩) | rfl := h <;> rfl

theorem wf_of_mem_decompressCommands {y : ByteString} {i : Instr} (h : i ∈ decompressCommands y) : i.wf = true := by
  simp only [decompressCommands, List.mem_append, List.mem_cons, List.mem_map, List.not_mem_nil, or_false] at h
  obtain (rfl | ⟨b, -, rfl⟩) | rfl := h <;> rfl

theorem faultFree_iff {s : State} : faultFree s = true ↔
    s.enc.ctl.fault = .none ∧ s.de.ctl.fault = .none ∧ s.pk.ctl.fault = .none ∧ s.up.ctl.fault = .none ∧
      s.cmd.fault = .none := by
  simp [faultFree, and_assoc]

/-! ### The Encoder's codepoints fit the Packer -/

/-- A Packer at width `w` can write these codepoints, and is at width `w'` after them (43_packer_unpacker.md R222 to
R227; `packAll_of_widths`). -/
inductive Widths : Nat → List Code → Nat → Prop where
  | nil {w : Nat} : Widths w [] w
  | cons {w w' : Nat} {cp : Code} {rest : List Code} (hfit : FitsField cp w) (hrest : Widths (nextWidth w cp) rest w') :
    Widths w (cp :: rest) w'

theorem nextWidth_of_data {cp : Code} (w : Nat) (h : isDataCode cp) : nextWidth w cp = w := by
  obtain ⟨he, hb, hc⟩ := h
  simp [nextWidth, he, hb, hc]

theorem Widths.data {w w' : Nat} {cp : Code} {rest : List Code} (hcp : isDataCode cp) (hlt : cp.toNat < 2 ^ w)
    (h : Widths w rest w') : Widths w (cp :: rest) w' :=
  .cons ⟨hlt, fun hb => hcp.2.1 hb.1⟩ ((nextWidth_of_data w hcp).symm ▸ h)

theorem widths_bump {w : Nat} (hlt : (257#15).toNat < 2 ^ w) (hw : w ≤ 14) : Widths w [257#15] (w + 1) :=
  .cons ⟨hlt, fun hb => absurd hb.2 (by omega)⟩ .nil

theorem widths_eoi {w : Nat} (hlt : (256#15).toNat < 2 ^ w) : Widths w [256#15] 9 :=
  .cons ⟨hlt, fun hb => absurd hb.1 (by decide)⟩ .nil

/-- The Packer's width follows the Encoder's (41_encoder.md R151): each keeps it at a data code, widens at a BUMP and starts
again at an END_OF_INFO. -/
theorem EncByteOutcome.widths {b : Byte} {e e' : Enc} {out : List Code} (ho : EncByteOutcome b e e' out) (h : EncOk e)
    (hf : e.ctl.fault = .none) : Widths e.width.toNat out e'.width.toNat := by
  have hfits := ho.fits h hf
  have hdata {c : Code} (hc : dictRead e.dict e.pfx = some c) : isDataCode c := h.isDataCode_of_read hf hc
  have hlit := isDataCode_codeOfByte b
  cases ho with
  | extended _ _ => exact .nil
  | defined _ hc _ _ => exact .data (hdata hc) (hfits _ (by simp)) .nil
  | bumped _ hc hm ht =>
    obtain ⟨-, hw⟩ := h.size_of_bump hf hm ht
    have hwidth : (encWidened (encDefined b e)).width.toNat = e.width.toNat + 1 :=
      (BitVec.toNat_ofNat ..).trans (Nat.mod_eq_of_lt (show e.width.toNat + 1 < 16 by omega))
    exact hwidth ▸ .data (hdata hc) (hfits _ (by simp)) (widths_bump (hfits _ (by simp)) hw)
  | flushed _ hc _ =>
    exact .data (hdata hc) (hfits _ (by simp)) (.data hlit (hfits _ (by simp)) (widths_eoi (hfits _ (by simp))))
  | flushedFull _ _ _ => exact .data hlit (hfits _ (by simp)) (widths_eoi (hfits _ (by simp)))

theorem EncOk.widths_of_encByte {b : Byte} {e e' : Enc} {codes : List Code} (h : EncOk e) (hr : e.ctl.ready)
    (he : encByte b e = .ok (e', codes)) : Widths e.width.toNat codes e'.width.toNat :=
  (h.outcome_of_encWalk hr.1 (encByte_of_ready hr ▸ he)).widths h hr.1

theorem EncOk.widths_of_encEnd {e e' : Enc} {codes : List Code} (h : EncOk e) (hr : e.ctl.ready)
    (he : encEnd e = .ok (e', codes)) : Widths e.width.toNat codes 9 := by
  have hfits := encEnd_fits h he
  obtain ⟨l, hl⟩ := h.encPending_completes
  cases (encEnd_of_ready hr hl).symm.trans he
  have heoi := widths_eoi (hfits 256#15 (by simp))
  obtain ⟨-, rfl⟩ | ⟨-, c, hc, rfl⟩ := encPending_eq_ok.1 hl
  · exact heoi
  · exact .data (h.isDataCode_of_read hr.1 hc) (hfits c (by simp)) heoi

theorem packAll_of_widths {codes : List Code} {p : Pk} {w : Nat} (h : PkOk p) (hr : p.ctl.ready)
    (hw : Widths p.width.toNat codes w) :
    ∃ q out, packAll codes p = .ok (q, out) ∧ PkOk q ∧ q.ctl = p.ctl ∧ q.width.toNat = w := by
  generalize hp : p.width.toNat = v at hw
  induction hw generalizing p with
  | nil => exact ⟨p, [], rfl, h, rfl, hp⟩
  | cons hfit _ ih =>
    obtain ⟨q, o, hc, hq, hctl, hwidth, -⟩ := packCode_of_fits h hr (hp ▸ hfit)
    obtain ⟨r, more, hrest, hok, hctl', hw⟩ := ih hq (hctl ▸ hr) (hp ▸ hwidth)
    exact ⟨r, _, packAll_cons_iff.2 ⟨q, o, more, hc, hrest, rfl⟩, hok, hctl'.trans hctl, hw⟩

/-! ### The run of compress -/

/-- A block that compresses: the Packer is at the Encoder's width, and the Decoder `d` has executed what was emitted. -/
structure Compressing (s : State) (d : De) : Prop where
  unblocked : s.unblocked
  lockstep : Lockstep s.enc d
  pk_ok : PkOk s.pk
  pk_ready : s.pk.ctl.ready
  width : s.pk.width = s.enc.width

/-- CMP_BYTE keeps all this; what the Decoder has emitted and has still to emit grows by the byte. -/
theorem Compressing.cmpByte {s : State} {d : De} (h : Compressing s d) (b : Byte) :
    ∃ e p out codes d' o, exec (.cmpByte b) s = .next (s.afterCmp e p out) ∧ Compressing (s.afterCmp e p out) d' ∧
      packAll codes s.pk = .ok (p, out) ∧ Decodes codes d d' o ∧ o ++ e.pfx = s.enc.pfx ++ [b] := by
  obtain ⟨e, codes, d', o, he, hrun, hlock, ho⟩ := h.lockstep.decodes_encByte b
  have hw := h.lockstep.enc_ok.widths_of_encByte h.lockstep.enc_ready he
  obtain ⟨p, out, hp, hok, hctl, hwidth⟩ := packAll_of_widths h.pk_ok h.pk_ready (h.width.symm ▸ hw)
  exact ⟨e, p, out, codes, d', o, exec_cmpByte_of_packAll h.unblocked he hp,
    ⟨h.unblocked, hlock, hok, hctl.symm ▸ h.pk_ready, BitVec.eq_of_toNat_eq hwidth⟩, hp, hrun, ho⟩

/-- CMP_END makes the Decoder emit the rest, and records no fault. -/
theorem Compressing.cmpEnd {s : State} {d : De} (h : Compressing s d) :
    ∃ e p out codes d', exec .cmpEnd s = .next (s.afterCmp e p out) ∧ e.ctl.fault = .none ∧ p.ctl.fault = .none ∧
      packRun codes s.pk = .ok (p, out) ∧
      Decodes codes d d' s.enc.pfx ∧ d'.ctl.ready := by
  obtain ⟨e, codes, d', he, hef, hrun, hd⟩ := h.lockstep.decodes_encEnd
  have hw := h.lockstep.enc_ok.widths_of_encEnd h.lockstep.enc_ready he
  obtain ⟨q, o, hq, hok, hctl, -⟩ := packAll_of_widths h.pk_ok h.pk_ready (h.width.symm ▸ hw)
  have hready : q.ctl.ready := hctl.symm ▸ h.pk_ready
  have hp := packRun_eq_ok.2 ⟨q, o, _, hq, packEnd_of_ready hready hok.buf_short, rfl⟩
  exact ⟨e, _, _, codes, d', exec_cmpEnd_of_packRun h.unblocked he hp, hef, hready.1, hp, hrun, hd⟩

/-- CMP_BYTE of each byte, then CMP_END: the bytes are the Packer's, of codepoints that the Decoder turns into ENC.pfx and
the bytes. -/
theorem Compressing.execAll_cmp {x : ByteString} {s : State} {d : De} (h : Compressing s d) :
    ∃ e p resp rs codes d',
      execAll (x.map .cmpByte ++ [.cmpEnd]) s = some ({ s with enc := e, pk := p, resp := resp }, rs) ∧
      e.ctl.fault = .none ∧ p.ctl.fault = .none ∧ packRun codes s.pk = .ok (p, responseBytes rs) ∧
      Decodes codes d d' (s.enc.pfx ++ x) ∧ d'.ctl.ready := by
  induction x generalizing s d with
  | nil =>
    obtain ⟨e, p, out, codes, d', hexec, hef, hpf, hp, hrun, hd⟩ := h.cmpEnd
    refine ⟨e, p, _, _, codes, d', execAll_cons_of_next hexec rfl, hef, hpf, ?_, ?_, hd⟩
    · rw [State.afterCmp, responseBytes_cons_byte]
      exact (List.append_nil out).symm ▸ hp
    · rwa [List.append_nil]
  | cons b x ih =>
    obtain ⟨e₁, p₁, out, codes, d₁, o, hexec, hcomp, hp₁, hrun₁, ho⟩ := h.cmpByte b
    obtain ⟨e, p, resp, rs, more, d', hrest, hef, hpf, hp, hrun, hd⟩ := ih hcomp
    refine ⟨e, p, resp, _, codes ++ more, d', execAll_cons_of_next hexec hrest, hef, hpf, ?_, ?_, hd⟩
    · rw [State.afterCmp, responseBytes_cons_byte]
      exact packRun_append hp₁ hp
    · rw [List.append_cons, ← ho, List.append_assoc]
      exact hrun₁.append hrun

theorem itemBytes_append (xs ys : List Item) : itemBytes (xs ++ ys) = itemBytes xs ++ itemBytes ys := by
  induction xs with
  | nil => rfl
  | cons i xs ih =>
    cases i with
    | code _ => exact ih
    | byte b => exact congrArg (b :: ·) ih

theorem responseBytes_eq_itemBytes (rs : List Response) : responseBytes rs = itemBytes (responseItems rs) := by
  induction rs with
  | nil => rfl
  | cons r rs ih => exact (congrArg (itemBytes r.out ++ ·) ih).trans (itemBytes_append ..).symm

/-- A fresh Packer that records no fault writes the packed stream (30_encoding.md R87). -/
theorem packedStream_of_packRun {codes : List Code} {p : Pk} {out : ByteString}
    (h : packRun codes State.reset.pk = .ok (p, out)) (hf : p.ctl.fault = .none) : packedStream codes = some out := by
  obtain ⟨_, rs, hrun, hout⟩ := execAll_of_packRun (s := State.reset) rfl h
  rw [packedStream_of_execAll rfl ⟨rfl, rfl⟩ reset_pk_ok rfl rfl hrun hf, responseBytes_eq_itemBytes, hout,
    itemBytes_map_byte]

/-- What compress gives from a state with nothing pending: a packed stream, of codepoints that a fresh Decoder turns into
the input (44_facade.md R274). -/
theorem compress_completes {m : Word16} {s : State} (x : ByteString) (hm : legalMax m = true) (hp : s.port = []) :
    ∃ t y codes d, compress m x s = some (t, y) ∧ faultFree t = true ∧ t.port = [] ∧ packedStream codes = some y ∧
      Decodes codes State.reset.de d x ∧ d.ctl.ready := by
  obtain ⟨s₁, hinit, hresp, hpfx, hde, hpk, hup, hport, hcomp⟩ : ∃ s₁, exec (.init m) s = .next s₁ ∧ s₁.resp.out = [] ∧
      s₁.enc.pfx = [] ∧ s₁.de = State.reset.de ∧ s₁.pk = State.reset.pk ∧ s₁.up = State.reset.up ∧ s₁.port = s.port ∧
      Compressing s₁ State.reset.de :=
    ⟨_, rfl, rfl, rfl, rfl, rfl, rfl, rfl,
      { unblocked := rfl, lockstep := lockstep_init hm s.enc s.de, pk_ok := reset_pk_ok, pk_ready := ⟨rfl, rfl⟩,
        width := rfl }⟩
  obtain ⟨e, p, resp, rs, codes, d, hrun, hef, hpf, hpack, hdec, hd⟩ := hcomp.execAll_cmp (x := x)
  have hcmds : execAll (compressCommands m x) s = _ := execAll_cons_of_next hinit hrun
  have hbytes : responseBytes (s₁.resp :: rs) = responseBytes rs := by simp [responseBytes, hresp, itemBytes]
  rw [hpfx, List.nil_append] at hdec
  refine ⟨_, _, codes, d, compress_eq_some.2 ⟨hm, runCommands_of_execAll (fun _ => wf_of_mem_compressCommands) hp hcmds⟩,
    faultFree_iff.2 ⟨hef, hde ▸ rfl, hpf, hup ▸ rfl, hcomp.unblocked⟩, hport.trans hp, ?_, hdec, hd⟩
  rw [hbytes]
  exact packedStream_of_packRun (hpk ▸ hpack) hpf

/-! ### The run of decompress -/

theorem decAll_of_decodes {codes : List Code} {d d' : De} {out : ByteString} (h : Decodes codes d d' out) :
    ∃ blkEnd, decAll codes d = .ok (d', out, blkEnd) := by
  induction h with
  | nil => exact ⟨false, rfl⟩
  | cons hcode _ _ ih =>
    obtain ⟨moreEnd, hr⟩ := ih
    exact ⟨_, decAll_cons_iff.2 ⟨_, _, _, _, _, hcode, hr, rfl, rfl⟩⟩

theorem Decodes.split {codes more : List Code} {d d' : De} {out : ByteString} (h : Decodes (codes ++ more) d d' out) :
    ∃ q o o', Decodes codes d q o ∧ Decodes more q d' o' ∧ out = o ++ o' := by
  induction codes generalizing d out with
  | nil => exact ⟨d, [], out, .nil, h, rfl⟩
  | cons cp rest ih =>
    obtain - | ⟨hcode, hq, hrest⟩ := h
    obtain ⟨q, o, o', h₁, h₂, rfl⟩ := ih hrest
    exact ⟨q, _, o', .cons hcode hq h₁, h₂, (List.append_assoc ..).symm⟩

theorem decEnd_of_ready {d : De} (hr : d.ctl.ready) :
    decEnd d = .ok ({ d with ctl := { done := true, fault := .none } }, [], false) := by
  rw [decEnd, decGuard, guardUnit_of_ready hr.1 hr.2, closeUnit_of_ready hr]

/-- DCMP_BYTE of each byte, then DCMP_END: the Unpacker reads the stream's codepoints, and the Decoder executes them. -/
theorem execAll_dcmp_of_streamLeft {bs : ByteString} {codes : List Code} {s : State} {d' : De} {out : ByteString}
    (hu : s.unblocked) (hr : s.up.ctl.ready) (h : UpOk s.up) (hs : StreamLeft s.up codes bs)
    (hd : Decodes codes s.de d' out) (hdr : d'.ctl.ready) :
    ∃ u d resp rs,
      execAll (bs.map .dcmpByte ++ [.dcmpEnd]) s = some ({ s with up := u, de := d, resp := resp }, rs) ∧
      u.ctl.fault = .none ∧ d.ctl.fault = .none ∧ responseBytes rs = out := by
  induction bs generalizing codes s out with
  | nil =>
    rw [hs.codes_eq_nil (h.acc_short hr.1)] at hd
    cases hd
    exact ⟨_, _, _, _, execAll_cons_of_next
      (exec_dcmpEnd_of_decEnd hu (unpkEnd_of_ready hr) (decEnd_of_ready hdr)) rfl, rfl, rfl, rfl⟩
  | cons b bs ih =>
    obtain ⟨u, now, rest, heq, hctl, rfl, hleft⟩ := hs.unpkByte hr h
    have hok : UpOk u := by simpa [heq] using unpkByte_keeps_ok b h
    obtain ⟨q, o, o', hnow, hrest, rfl⟩ := hd.split
    obtain ⟨blkEnd, hdec⟩ := decAll_of_decodes hnow
    obtain ⟨u', d, resp, rs, hrun, huf, hdf, hout⟩ :=
      ih (s := { s with up := u, de := q, resp := { out := o.map .byte, blkEnd := blkEnd } }) hu (hctl.symm ▸ hr) hok
        hleft hrest
    refine ⟨u', d, resp, _, execAll_cons_of_next (exec_dcmpByte_of_decAll hu heq hdec) hrun, huf, hdf, ?_⟩
    rw [responseBytes_cons_byte, hout]

/-- What decompress gives of a packed stream, from a state with nothing pending (44_facade.md R275). -/
theorem decompress_completes {s : State} {y x : ByteString} {codes : List Code} {d : De} (hp : s.port = [])
    (hy : packedStream codes = some y) (hdec : Decodes codes State.reset.de d x) (hd : d.ctl.ready) :
    ∃ t, decompress y s = some (t, x) ∧ faultFree t = true := by
  obtain ⟨s₁, hinit, hu, hresp, hef, hpf, hup, hde⟩ : ∃ s₁, exec (.init Config.defaultMax) s = .next s₁ ∧ s₁.unblocked ∧
      s₁.resp.out = [] ∧ s₁.enc.ctl.fault = .none ∧ s₁.pk.ctl.fault = .none ∧ s₁.up = unpackInit s.up ∧
      s₁.de = State.reset.de := ⟨_, rfl, rfl, rfl, rfl, rfl, rfl, rfl⟩
  have hleft : StreamLeft s₁.up codes y := streamLeft_of_packedStream (hup ▸ rfl) (hup ▸ rfl) hy
  obtain ⟨u, d', resp, rs, hrun, huf, hdf, hout⟩ :=
    execAll_dcmp_of_streamLeft hu (hup ▸ ⟨rfl, rfl⟩) (hup ▸ unpackInit_ok s.up) hleft (hde ▸ hdec) hd
  have hcmds : execAll (decompressCommands y) s = _ := execAll_cons_of_next hinit hrun
  have hbytes : responseBytes (s₁.resp :: rs) = x := by simpa [responseBytes, hresp, itemBytes] using hout
  have hfree := faultFree_iff (s := { s₁ with up := u, de := d', resp := resp }).2 ⟨hef, hdf, hpf, huf, hu⟩
  refine ⟨_, decompress_eq_some.2 ⟨hbytes ▸ runCommands_of_execAll (fun _ => wf_of_mem_decompressCommands) hp hcmds,
    hfree⟩, hfree⟩

/-- Settles O60: compress writes the packed stream of codepoints that a fresh Decoder turns into the input, and decompress
reads such a stream. -/
theorem decompressInvertsCompress : Obligations.DecompressInvertsCompress := by
  intro m x s hm hp
  obtain ⟨t, y, codes, d, hcompress, ht, hport, hy, hdec, hd⟩ := compress_completes x hm hp
  obtain ⟨u, hdecompress, hu⟩ := decompress_completes hport hy hdec hd
  exact ⟨t, u, y, hcompress, ht, hdecompress, hu⟩

end Sys2Proof.Machine
end

section
/-! Faults and dispatch (60_exceptions.md R294 to R299): the idle step, dispatch branch by branch, what a faulted unit ignores,
and that a recorded fault stays. -/

namespace Sys2Proof.Machine

/-! ### Dispatch -/

/-- Settles O7. -/
theorem idleStepChangesNothing : Obligations.IdleStepChangesNothing := fun _ => step_of_nil

/-- Opcode 0xD is INIT with the whole data field (30_encoding.md R91). -/
theorem decode_of_init_op {w : CmdWord} (hop : w.toNat / 65536 = 13) :
    decode (.cmd w) = .ok (.init (BitVec.ofNat 16 w.toNat)) := by
  have hdata : dataField w = BitVec.ofNat 16 w.toNat := BitVec.eq_of_toNat_eq (dataField_toNat w)
  rw [decode_cmd, opField_toNat, hop, hdata]
  rfl

/-- No other opcode decodes to INIT. -/
theorem decode_ne_init {w : CmdWord} {i : Instr} (hop : w.toNat / 65536 ≠ 13) (hd : decode (.cmd w) = .ok i) (m : Word16) :
    i ≠ .init m := by
  rintro rfl
  obtain ⟨-, henc⟩ := encodeOfDecodeIsTheWord _ _ hd
  obtain rfl : commandWord 0xD#4 m = w := PortWord.cmd.inj henc
  rw [← opField_toNat, opField_commandWord] at hop
  exact hop rfl

/-- Settles O8: INIT by its opcode; a blocked port ignores what decodes and what does not; an ill-formed word is an illegal
command; a well-formed one decodes. -/
theorem dispatchFollowsItsProcedure : Obligations.DispatchFollowsItsProcedure := by
  intro s w rest hp
  refine ⟨fun hop => step_of_decoded hp (decode_of_init_op hop), fun hop hf => ?_, fun hu hw => ?_, fun _ hw => ?_⟩
  · cases hd : decode (.cmd w) with
    | ok i => exact (step_of_decoded hp hd).trans (blockedPortIgnoresAllButInit i _ hf (decode_ne_init hop hd))
    | error x => exact (step_of_undecoded hp hd).trans (illegalCommand_of_blocked hf)
  · exact (step_of_illFormed hp hw).trans (illegalCommand_of_unblocked hu)
  · obtain ⟨i, hd, -⟩ := wellFormedWord_iff_isCommand.1 hw
    exact ⟨i, hd, step_of_decoded hp hd⟩

/-! ### A faulted unit -/

theorem encByte_of_faulted {e : Enc} (b : Byte) (h : e.ctl.fault ≠ .none) : encByte b e = .ok (e, []) :=
  guardUnit_of_faulted h

theorem encEnd_of_faulted {e : Enc} (h : e.ctl.fault ≠ .none) : encEnd e = .ok (e, []) := guardUnit_of_faulted h

theorem unpkByte_of_faulted {u : Up} (b : Byte) (h : u.ctl.fault ≠ .none) : unpkByte b u = (u, []) := by
  rw [unpkByte, unpkGuard, guardUnit_of_faulted h]

theorem decGuard_of_faulted {d : De} (arm : DecResult) (h : d.ctl.fault ≠ .none) : decGuard d arm = .ok (d, [], false) :=
  guardUnit_of_faulted h

theorem runArm_of_faulted {s : State} (arm : DecResult) (hu : s.unblocked) (h : s.de.ctl.fault ≠ .none) :
    runArm s arm = .next (silent s) := runArm_of_decGuard hu (decGuard_of_faulted arm h)

/-- A faulted Encoder passes nothing to the Packer, and PACK_END still runs (44_facade.md R271). -/
theorem cmpEnd_of_faulted {s : State} (h : s.enc.ctl.fault ≠ .none) : cmpEnd s = respondPk s (packEnd s.pk) := by
  rw [cmpEnd, encEnd_of_faulted h]
  rfl

/-- A faulted Unpacker passes nothing to the Decoder, and DEC_END still runs (44_facade.md R273). -/
theorem dcmpEnd_of_faulted {s : State} (h : s.up.ctl.fault ≠ .none) : dcmpEnd s = respondDec s (decEnd s.de) := by
  rw [dcmpEnd, unpkEnd_of_faulted h]
  rfl

/-- Settles O12, unit by unit. -/
theorem faultedUnitIgnoresItsCommands : Obligations.FaultedUnitIgnoresItsCommands := by
  intro s b cp hu
  refine ⟨fun h => ⟨?_, ?_, ?_, ?_⟩, fun h => ⟨?_, ?_⟩, fun h => ⟨?_, ?_, ?_, ?_⟩, fun h => ?_⟩
  · exact (exec_encByte_eq_next hu).2 ⟨_, _, encByte_of_faulted b h, rfl⟩
  · exact exec_encEnd_of_encEnd hu (encEnd_of_faulted h)
  · exact exec_cmpByte_of_packAll hu (encByte_of_faulted b h) rfl
  · exact congrArg (dispatchCommand s) (cmpEnd_of_faulted h)
  · exact exec_packCode_of_ok hu (packCode_of_faulted cp h)
  · exact exec_packEnd_of_ok hu (packEnd_of_faulted h)
  · exact exec_unpkByte_of_eq hu (unpkByte_of_faulted b h)
  · exact exec_unpkEnd_of_eq hu (unpkEnd_of_faulted h)
  · exact exec_dcmpByte_of_decAll hu (unpkByte_of_faulted b h) rfl
  · exact congrArg (dispatchCommand s) (dcmpEnd_of_faulted h)
  · have hignored (arm : DecResult) : runArm s arm = .next (silent s) := runArm_of_faulted arm hu h
    exact ⟨hignored _, hignored _, hignored _, hignored _, hignored _, hignored _, hignored _, hignored _⟩

/-! ### A recorded fault stays

Stronger than O14 asks: what keeps its fault keeps the whole unit. Where an instruction does not reach the unit, that is its
frame (`unitsWriteOnlyTheirOwnFields`); where it does, the guard ends the unit's part. -/

section Sticky

variable {i : Instr} {s t : State} (h : exec i s = .next t) (hi : ∀ m, i ≠ .init m)
include h hi

theorem enc_of_faulted (hf : s.enc.ctl.fault ≠ .none) : t.enc = s.enc := by
  obtain ⟨hframe, -⟩ := unitsWriteOnlyTheirOwnFields i s t h
  obtain rfl | h := exec_eq_next h
  · rfl
  cases i with
  | encByte _ | encEnd =>
    obtain ⟨e, out, he, rfl⟩ := respondEnc_eq_ok.1 h
    cases (guardUnit_of_faulted hf).symm.trans he
    rfl
  | cmpByte _ =>
    obtain ⟨e, codes, p, out, he, -, rfl⟩ := cmpByte_eq_ok h
    cases (guardUnit_of_faulted hf).symm.trans he
    rfl
  | cmpEnd =>
    obtain ⟨e, codes, p, out, q, last, he, -, -, rfl⟩ := cmpEnd_eq_ok h
    cases (guardUnit_of_faulted hf).symm.trans he
    rfl
  | init m => exact absurd rfl (hi m)
  | _ => exact hframe rfl

theorem de_of_faulted (hf : s.de.ctl.fault ≠ .none) : t.de = s.de := by
  obtain ⟨-, -, -, hframe, -⟩ := unitsWriteOnlyTheirOwnFields i s t h
  obtain rfl | h := exec_eq_next h
  · rfl
  cases i with
  | decCode _ | decResolve _ | decEnd | cpEoi | cpBump | cpClear | cpLiteral _ | cpDynamic _ =>
    obtain ⟨d, out, blkEnd, hd, rfl⟩ := respondDec_eq_ok.1 h
    cases (decGuard_of_faulted _ hf).symm.trans hd
    rfl
  | dcmpByte _ =>
    obtain ⟨d, out, blkEnd, hd, rfl⟩ := dcmpByte_eq_ok h
    cases (decAll_of_faulted _ hf).symm.trans hd
    rfl
  | dcmpEnd =>
    obtain ⟨d, out, blkEnd, hd, rfl⟩ := dcmpEnd_eq_ok h
    cases (decGuard_of_faulted _ hf).symm.trans hd
    rfl
  | init m => exact absurd rfl (hi m)
  | _ => exact hframe rfl

theorem up_of_faulted (hf : s.up.ctl.fault ≠ .none) : t.up = s.up := by
  obtain ⟨-, -, hframe, -⟩ := unitsWriteOnlyTheirOwnFields i s t h
  obtain rfl | h := exec_eq_next h
  · rfl
  cases i with
  | unpkByte b =>
    obtain rfl := respondUp_eq_ok.1 h
    exact congrArg Prod.fst (unpkByte_of_faulted b hf)
  | dcmpByte b =>
    obtain ⟨d, out, blkEnd, -, rfl⟩ := dcmpByte_eq_ok h
    exact congrArg Prod.fst (unpkByte_of_faulted b hf)
  | unpkEnd =>
    obtain rfl := respondUp_eq_ok.1 h
    exact congrArg Prod.fst (unpkEnd_of_faulted hf)
  | dcmpEnd =>
    obtain ⟨d, out, blkEnd, -, rfl⟩ := dcmpEnd_eq_ok h
    exact congrArg Prod.fst (unpkEnd_of_faulted hf)
  | init m => exact absurd rfl (hi m)
  | _ => exact hframe rfl

theorem pk_of_faulted (hn : ∀ n, i ≠ .initPack n) (hf : s.pk.ctl.fault ≠ .none) : t.pk = s.pk := by
  obtain ⟨-, hframe, -⟩ := unitsWriteOnlyTheirOwnFields i s t h
  obtain rfl | h := exec_eq_next h
  · rfl
  cases i with
  | packCode _ | packEnd =>
    obtain ⟨p, out, hp, rfl⟩ := respondPk_eq_ok.1 h
    cases (packGuard_of_faulted _ hf).symm.trans hp
    rfl
  | cmpByte _ =>
    obtain ⟨e, codes, p, out, -, hp, rfl⟩ := cmpByte_eq_ok h
    cases (packAll_of_faulted codes hf).symm.trans hp
    rfl
  | cmpEnd =>
    obtain ⟨e, codes, p, out, q, last, -, hp, hq, rfl⟩ := cmpEnd_eq_ok h
    cases (packAll_of_faulted codes hf).symm.trans hp
    cases (packEnd_of_faulted hf).symm.trans hq
    rfl
  | init m => exact absurd rfl (hi m)
  | initPack n => exact absurd rfl (hn n)
  | _ => exact hframe rfl

theorem cmd_of_blocked (hf : s.cmd.fault ≠ .none) : t.cmd = s.cmd := by
  cases h.symm.trans (blockedPortIgnoresAllButInit i s hf hi)
  rfl

end Sticky

/-- Settles O14: a faulted unit is unchanged, and a blocked port ignores every instruction but INIT. -/
theorem faultsAreSticky : Obligations.FaultsAreSticky := by
  intro i s t h hi
  refine ⟨fun hf => ?_, fun hf => ?_, fun hf => ?_, fun hf => ?_, fun hf hn => ?_⟩
  · rw [enc_of_faulted h hi hf]
  · rw [de_of_faulted h hi hf]
  · rw [up_of_faulted h hi hf]
  · rw [cmd_of_blocked h hi hf]
  · rw [pk_of_faulted h hi hn hf]

end Sys2Proof.Machine
end

section
/-! Reset (70_reset_and_hazards.md R330): power-on is what INIT 32768 leaves, and meets every invariant. -/

namespace Sys2Proof.Machine

/-- Settles O52: INIT sets every field, and 32768 is a legal maximum. -/
theorem powerOnIsInitDefault : Obligations.PowerOnIsInitDefault := by
  intro s
  obtain ⟨-, hinit⟩ := initSetsEveryField s 32768#16
  exact hinit

/-- Settles O56: each unit of the power-on state is what its part of INIT 32768 leaves. -/
theorem resetMeetsTheInvariant : Obligations.ResetMeetsTheInvariant where
  enc := encConfigure_ok Config.defaultMax State.reset.enc
  de := decInit_ok State.reset.de
  pk := packInit_ok Config.initSize State.reset.pk
  up := unpackInit_ok State.reset.up
  cmd := .head _

end Sys2Proof.Machine
end

section
/-! Closed units (70_reset_and_hazards.md R333): after its END command a unit's rules end at the closed check. -/

namespace Sys2Proof.Machine

theorem encByte_of_closed {e : Enc} (b : Byte) (hf : e.ctl.fault = .none) (hd : e.ctl.done = true) :
    encByte b e = .ok ({ e with ctl := { done := true, fault := .streamClosed } }, []) := guardUnit_of_closed hf hd

theorem encEnd_of_closed {e : Enc} (hf : e.ctl.fault = .none) (hd : e.ctl.done = true) :
    encEnd e = .ok ({ e with ctl := { done := true, fault := .streamClosed } }, []) := guardUnit_of_closed hf hd

theorem packCode_of_closed {p : Pk} (cp : Code) (hf : p.ctl.fault = .none) (hd : p.ctl.done = true) :
    packCode cp p = .ok ({ p with ctl := { done := true, fault := .streamClosed } }, []) := by
  rw [packCode, packGuard, guardUnit_of_closed hf hd]

theorem unpkByte_of_closed {u : Up} (b : Byte) (hf : u.ctl.fault = .none) (hd : u.ctl.done = true) :
    unpkByte b u = ({ u with ctl := { done := true, fault := .streamClosed } }, []) := by
  rw [unpkByte, unpkGuard, guardUnit_of_closed hf hd]

/-- Whatever its arm, a Decoder rule of a closed Decoder records STREAM_CLOSED. -/
theorem runArm_of_closed {s : State} (arm : DecResult) (hu : s.unblocked) (hf : s.de.ctl.fault = .none)
    (hd : s.de.ctl.done = true) :
    runArm s arm = .next (silent { s with de := { s.de with ctl := { done := true, fault := .streamClosed } } }) :=
  runArm_of_decGuard hu (guardUnit_of_closed hf hd)

/-- Settles O13, unit by unit; each of the Decoder's instructions is an arm behind one guard. -/
theorem closedUnitRecordsStreamClosed : Obligations.ClosedUnitRecordsStreamClosed := by
  intro s i hu
  refine ⟨fun hf hd hi => ?_, fun hf hd hi => ?_, fun hf hd hi => ?_, fun hf hd hi => ?_⟩
  · obtain hi | ⟨b, rfl⟩ := hi
    · obtain rfl := List.mem_singleton.1 hi
      exact exec_encEnd_of_encEnd hu (encEnd_of_closed hf hd)
    · exact (exec_encByte_eq_next hu).2 ⟨_, _, encByte_of_closed b hf hd, rfl⟩
  · obtain hi | ⟨cp, rfl⟩ := hi
    · obtain rfl := List.mem_singleton.1 hi
      exact exec_packEnd_of_ok hu (packEnd_of_closed hf hd)
    · exact exec_packCode_of_ok hu (packCode_of_closed cp hf hd)
  · obtain hi | ⟨b, rfl⟩ := hi
    · obtain rfl := List.mem_singleton.1 hi
      exact exec_unpkEnd_of_eq hu (unpkEnd_of_closed hf hd)
    · exact exec_unpkByte_of_eq hu (unpkByte_of_closed b hf hd)
  · have closed (arm : DecResult) := runArm_of_closed arm hu hf hd
    obtain hi | ⟨cp, rfl | rfl | rfl⟩ | ⟨b, rfl⟩ := hi
    · simp only [List.mem_cons, List.not_mem_nil, or_false] at hi
      obtain rfl | rfl | rfl | rfl := hi <;> exact closed _
    all_goals exact closed _

end Sys2Proof.Machine
end

section
/-! Every command terminates with a next state (70_reset_and_hazards.md R341): under the invariants each rule completes,
and none of the model's stops is reached. -/

namespace Sys2Proof.Machine

/-- DEC_RESOLVE differs from DEC_CODE at END_OF_INFO only, where it raises (42_decoder.md R189). -/
theorem DeOk.decStep_resolve_completes {d : De} (h : DeOk d) (cp : Code) : ∃ r, decStep true cp d = .ok r := by
  by_cases he : cp = Config.eoi
  · exact he ▸ ⟨_, rfl⟩
  · exact (decStep_of_not_eoi he).symm ▸ h.decStep_completes cp

/-- A sequence completes if its first part does, and its second from whatever the first gives. -/
theorem bind_completes {α β : Type} {r : Result α} {f : α → Result β} (hr : ∃ a, r = .ok a)
    (hf : ∀ a, r = .ok a → ∃ b, f a = .ok b) : ∃ b, (r >>= f) = .ok b := by
  obtain ⟨a, ha⟩ := hr
  obtain ⟨b, hb⟩ := hf a ha
  exact ⟨b, bind_eq_ok.2 ⟨a, ha, hb⟩⟩

theorem respondEnc_completes (s : State) {r : Result (Enc × List Code)} (h : ∃ a, r = .ok a) :
    ∃ t, respondEnc s r = .ok t := bind_completes h fun _ _ => ⟨_, rfl⟩

theorem respondPk_completes (s : State) {r : Result (Pk × ByteString)} (h : ∃ a, r = .ok a) :
    ∃ t, respondPk s r = .ok t := bind_completes h fun _ _ => ⟨_, rfl⟩

/-- A guarded Decoder rule completes if its arm does. -/
theorem respondDec_completes (s : State) {arm : DecResult} (h : ∃ a, arm = .ok a) :
    ∃ t, respondDec s (decGuard s.de arm) = .ok t := bind_completes (guardUnit_completes fun _ => h) fun _ _ => ⟨_, rfl⟩

/-- Progress, rule by rule: each unit's rule completes under that unit's invariant. In CMP_END, PACK_END starts from the
Packer that the loop leaves. -/
theorem ruleOf_completes {s : State} (h : State.Ok s) (i : Instr) : ∃ t, ruleOf i s = .ok t := by
  cases i with
  | encByte b => exact respondEnc_completes s (h.enc.encByte_completes b)
  | encEnd => exact respondEnc_completes s h.enc.encEnd_completes
  | packCode cp => exact respondPk_completes s (h.pk.packCode_completes cp)
  | packEnd => exact respondPk_completes s h.pk.packEnd_completes
  | decCode cp => exact respondDec_completes s (h.de.decStep_completes cp)
  | decResolve cp => exact respondDec_completes s (h.de.decStep_resolve_completes cp)
  | cpLiteral b => exact respondDec_completes s (h.de.decData_completes (codeOfByte b))
  | cpDynamic cp => exact respondDec_completes s (h.de.decData_completes cp)
  | decEnd | cpEoi | cpBump | cpClear => exact respondDec_completes s ⟨_, rfl⟩
  | cmpByte b =>
    refine bind_completes (h.enc.encByte_completes b) fun (_, codes) _ => ?_
    exact bind_completes (h.pk.packAll_completes codes) fun _ _ => ⟨_, rfl⟩
  | cmpEnd =>
    refine bind_completes h.enc.encEnd_completes fun (_, codes) _ => ?_
    refine bind_completes (h.pk.packAll_completes codes) fun (_, _) hp => ?_
    exact bind_completes (packAll_keeps_ok h.pk hp).packEnd_completes fun _ _ => ⟨_, rfl⟩
  | dcmpByte b => exact bind_completes (h.de.decAll_completes (unpkByte b s.up).2) fun _ _ => ⟨_, rfl⟩
  | dcmpEnd =>
    obtain ⟨_, hd⟩ := decEnd_completes s.de
    exact bind_completes ⟨_, hd⟩ fun _ _ => ⟨_, rfl⟩
  | unpkByte _ | unpkEnd | init _ | initPack _ | reserved _ => exact ⟨_, rfl⟩

/-- Dispatch stops at no instruction: it ignores it, or runs its rule. -/
theorem exec_completes {s : State} (h : State.Ok s) (i : Instr) : ∃ t, exec i s = .next t := by
  obtain ⟨t, ht⟩ := ruleOf_completes h i
  by_cases hi : ∃ m, i = .init m
  · obtain ⟨m, rfl⟩ := hi
    exact ⟨t, outcomeOf_eq_next.2 ht⟩
  rw [exec_eq_dispatchCommand s fun m hm => hi ⟨m, hm⟩]
  by_cases hu : s.unblocked
  · exact ⟨t, dispatchCommand_eq_next.2 (.inr ⟨hu, ht⟩)⟩
  · exact ⟨_, dispatchCommand_of_blocked _ hu⟩

/-- Settles O58: the idle step completes, and every other step is an instruction's. -/
theorem everyStepCompletes : Obligations.EveryStepCompletes := by
  intro s h
  obtain hs | ⟨i, rest, hs⟩ := step_cases s
  · exact ⟨s, hs⟩
  · have hport : State.Ok { s with port := rest } := { h with }
    exact hs ▸ exec_completes hport i

end Sys2Proof.Machine
end
